-- ==== Sys2Proof/Word.lean ====
section
/-! DEFINITION. The word types of the block: bytes of EEPROM and RAM, 16-bit values, 32-bit command words
(00_scope.md R10, 30_encoding.md R90). -/

namespace Sys2Proof

/-- One byte: an EEPROM byte, a table cell, an operand A (30_encoding.md R90, 20_memory.md R60). -/
abbrev Byte := BitVec 8

/-- A u16: a sample, a version tag, an operand B, a fault's info value (10_state.md R25, R27, R42). -/
abbrev Half := BitVec 16

/-- A command word of the MAIN program (30_encoding.md R90). -/
abbrev Word := BitVec 32

end Sys2Proof
end

