-- ==== Sys2Proof/Syntax.lean ====
section
/-! DEFINITION. The commands of the block, one constructor per row of spec/opcode_table.json (30_encoding.md R92). -/

namespace Sys2Proof

/-- A decoded command (30_encoding.md R91, R92). Each operand has the width of its field, so every term is a
command some word encodes. -/
inductive Instr where
  /-- `IRQ.OFF` (40_access_primitives.md R120). -/
  | irqOff
  /-- `IRQ.ON` (R121). -/
  | irqOn
  /-- `CS.ENTER` (R122). -/
  | csEnter
  /-- `CS.EXIT` (R123). -/
  | csExit
  /-- `FENCE` (R124). -/
  | fence
  /-- `ASSERT.IOFF` (R125). -/
  | assertIoff
  /-- `SMP.INIT` (41_sampler.md R140). -/
  | smpInit
  /-- `SMP.GET idx` (R146). -/
  | smpGet (idx : Half)
  /-- `SMP.GETALL` (R147). -/
  | smpGetall
  /-- `SMP.ISR`, the body of the conversion-complete handler (R145). -/
  | smpIsr
  /-- `ROT.INIT` (42_rotary.md R173). -/
  | rotInit
  /-- `ROT.STEP pa, pb` (R174). -/
  | rotStep (pa pb : Bool)
  /-- `ROT.TAKE` (R175). -/
  | rotTake
  /-- `ROT.ISR`, the body of the pin-change handler (R178). -/
  | rotIsr
  /-- `EE.INIT clear` (43_store.md R212). -/
  | eeInit (clear : Bool)
  /-- `EE.PUT offset, value` (R215). -/
  | eePut (offset : Half) (value : Byte)
deriving DecidableEq, Repr

end Sys2Proof
end

