-- ==== Sys2Proof/Decode.lean ====
section
/-! DEFINITION. The command word and its decoder, total on every 32-bit word and rejecting by name (30_encoding.md
R90 to R93), and the encoder written from the same rows (R92, R94). A command is an element of a list of 32-bit words,
so no byte order enters (20_memory.md R63). -/

namespace Sys2Proof

/-- Why a word is no command (30_encoding.md R93). -/
inductive DecodeError where
  /-- `OP` is not in the map of R92. -/
  | reservedOpcode
  /-- A field that the row marks `0` is not zero. -/
  | nonzeroField
deriving DecidableEq, Repr

/-- `OP = word[31:24]` (R90). -/
def opField (w : Word) : Byte := w.extractLsb' 24 8

/-- `A = word[23:16]` (R90). -/
def aField (w : Word) : Byte := w.extractLsb' 16 8

/-- `B = word[15:0]` (R90). -/
def bField (w : Word) : Half := w.extractLsb' 0 16

/-- The word with the three fields given (R90). -/
def commandWord (op a : Byte) (b : Half) : Word := op ++ a ++ b

/-- A row whose `A` and `B` must be zero. -/
def needZeroAB (a : Byte) (b : Half) (i : Instr) : Except DecodeError Instr :=
  if a = 0#8 ∧ b = 0#16 then .ok i else .error .nonzeroField

/-- The decoder (R90, R91, R92). -/
def decode (w : Word) : Except DecodeError Instr :=
  let a := aField w
  let b := bField w
  match (opField w).toNat with
  | 0x01 => needZeroAB a b .irqOff
  | 0x02 => needZeroAB a b .irqOn
  | 0x03 => needZeroAB a b .csEnter
  | 0x04 => needZeroAB a b .csExit
  | 0x05 => needZeroAB a b .fence
  | 0x06 => needZeroAB a b .assertIoff
  | 0x10 => needZeroAB a b .smpInit
  | 0x11 => if a = 0#8 then .ok (.smpGet b) else .error .nonzeroField
  | 0x12 => needZeroAB a b .smpGetall
  | 0x13 => needZeroAB a b .smpIsr
  | 0x20 => needZeroAB a b .rotInit
  | 0x21 =>
    if a.extractLsb' 2 6 = 0#6 ∧ b = 0#16 then .ok (.rotStep (a.getLsbD 0) (a.getLsbD 1)) else .error .nonzeroField
  | 0x22 => needZeroAB a b .rotTake
  | 0x23 => needZeroAB a b .rotIsr
  | 0x30 => if a.extractLsb' 1 7 = 0#7 ∧ b = 0#16 then .ok (.eeInit (a.getLsbD 0)) else .error .nonzeroField
  | 0x31 => .ok (.eePut b a)
  | _ => .error .reservedOpcode

/-- The word of a command (R92, R94). -/
def encode : Instr → Word
  | .irqOff => commandWord 0x01#8 0#8 0#16
  | .irqOn => commandWord 0x02#8 0#8 0#16
  | .csEnter => commandWord 0x03#8 0#8 0#16
  | .csExit => commandWord 0x04#8 0#8 0#16
  | .fence => commandWord 0x05#8 0#8 0#16
  | .assertIoff => commandWord 0x06#8 0#8 0#16
  | .smpInit => commandWord 0x10#8 0#8 0#16
  | .smpGet idx => commandWord 0x11#8 0#8 idx
  | .smpGetall => commandWord 0x12#8 0#8 0#16
  | .smpIsr => commandWord 0x13#8 0#8 0#16
  | .rotInit => commandWord 0x20#8 0#8 0#16
  | .rotStep pa pb => commandWord 0x21#8 (0#6 ++ BitVec.ofBool pb ++ BitVec.ofBool pa) 0#16
  | .rotTake => commandWord 0x22#8 0#8 0#16
  | .rotIsr => commandWord 0x23#8 0#8 0#16
  | .eeInit clear => commandWord 0x30#8 (0#7 ++ BitVec.ofBool clear) 0#16
  | .eePut offset value => commandWord 0x31#8 value offset

/-- `FAULT_INFO` of an illegal word: `word[31:16]` (R90). -/
def illegalInfo (w : Word) : Half := w.extractLsb' 16 16

/-- The command of an opcode-table row whose bits are `w`. -/
def decodeTableWord (nbits w : Nat) : Option Instr :=
  match decode (BitVec.ofNat 32 (w % 2 ^ nbits)) with
  | .ok i => some i
  | .error _ => none

end Sys2Proof
end

