-- ==== Sys2Proof/Config.lean ====
section
/-! DEFINITION. What an implementation fixes (00_scope.md R8), what is given at launch (R9), the agents and the
scheduler's choices (R7), and the free values: constants without a body that nothing in Lean can evaluate. -/

namespace Sys2Proof

/-- The agents of the block (00_scope.md R7); `FAULT_AGENT` names one of them (10_state.md R25). -/
inductive Agent where
  | main | isrAdc | isrPcint | adc | pins | power
deriving DecidableEq, Repr, Inhabited

/-- One choice of the scheduler: the step of an agent (00_scope.md R7); POWER has two, the second only under
`EE_BYTE_ATOMIC = false` (70_reset_and_hazards.md R283, R284). -/
inductive Turn where
  | main | isrAdc | isrPcint | adc | pins | power | powerTorn
deriving DecidableEq, Repr, Inhabited

/-- `ROT_OVF`: what an accumulator overflow does (00_scope.md R8, 42_rotary.md R176). -/
inductive RotOvf where
  | fault | wrap
deriving DecidableEq, Repr

/-- `ADC_OVERRUN`: what a completion does while the previous one is unserviced (41_sampler.md R144). -/
inductive AdcOverrun where
  | hold | fault
deriving DecidableEq, Repr

/-- `SEARCH_BROKEN`: what the newest-slot search does on a broken ring (43_store.md R205). -/
inductive SearchBroken where
  | fault | draw
deriving DecidableEq, Repr

/-- `BUILD`: changes no rule (60_exceptions.md R253). -/
inductive Build where
  | debug | release
deriving DecidableEq, Repr

/-- The configuration parameters of 00_scope.md R8. The configuration is held in `State` and no step changes it
(10_state.md R29, R40, R47; log 1), so that a statement about every state is one about every configuration. -/
structure Config where
  /-- `N`, the number of sampler channels. -/
  n : Nat
  /-- `CH[0..N-1]`, the channel descriptors. -/
  ch : List Nat
  /-- `CHSEL_BITS`, the width of a channel code (log 16). -/
  chselBits : Nat
  /-- `ADC_BITS`, the width of a conversion result. -/
  adcBits : Nat
  /-- `SIZE`, the payload bytes of a record. -/
  size : Nat
  /-- `EE_CAP`, the capacity of the non-volatile store in bytes. -/
  eeCap : Nat
  /-- `ROT_TABLE[0..27]`, the transition table. -/
  rotTable : List Byte
  /-- `ROT_ACC_BITS`, the width of the accumulator (log 15). -/
  rotAccBits : Nat
  /-- `ROT_OVF`. -/
  rotOvf : RotOvf
  /-- `ADC_OVERRUN`. -/
  adcOverrun : AdcOverrun
  /-- `EE_BYTE_ATOMIC`. -/
  eeByteAtomic : Bool
  /-- `SEARCH_BROKEN`. -/
  searchBroken : SearchBroken
  /-- `VALIDATOR`, as the verdicts on the payloads listed; any other payload's verdict is the free value
  `Config.validator` (43_store.md R213; log 8). -/
  verdicts : List (List Byte × Bool)
  /-- `BUILD`. -/
  build : Build
deriving DecidableEq, Repr

/-- The launch inputs of 00_scope.md R9 that outlive the first power-on. -/
structure Launch where
  /-- `EE0`, as the cells that differ from the erased byte. -/
  ee0 : List (Nat × Byte)
  /-- `PINS0`. -/
  pinA0 : Bool
  pinB0 : Bool
  /-- `SEL_OTHER0`. -/
  selOther0 : BitVec 4
  /-- `MEMBUF0[0..SIZE-1]`. -/
  membuf0 : List Byte
  /-- The initial `ADC_CTRL.PRE`. -/
  pre0 : BitVec 3
deriving DecidableEq, Repr

/-- The scheduler's choice number `k`, where `State` lists none (70_reset_and_hazards.md R288; log 5). A FREE VALUE. -/
opaque Config.freeTurn : Nat → Turn

/-- The environment's draw number `k`, before it is brought into the set it is drawn from, where `State` lists none
(00_scope.md R13; log 7). A FREE VALUE. -/
opaque Config.freeDraw : Nat → Nat

/-- The verdict of `VALIDATOR` on a payload the configuration lists no verdict for (43_store.md R213; log 8). A FREE
VALUE. -/
opaque Config.validator : List Byte → Bool

end Sys2Proof
end

