-- ==== Sys2Proof/Machine/ConfigCheck.lean ====
section
/-! DEFINITION. Which configurations and launch inputs have runs at all: the bounds of 00_scope.md R8, the conditions
of 42_rotary.md R171 on a transition table, the slot count of 43_store.md R200, and the default values of R8, R9, R172. -/

namespace Sys2Proof.Machine

/-- `NS = floor(EE_CAP / (SIZE + 2))` (43_store.md R200). -/
def slotCount (cfg : Config) : Nat := cfg.eeCap / (cfg.size + 2)

/-! ## The transition table (42_rotary.md R171) -/

/-- The code of the next state in cell `4*s + p` (30_encoding.md R98, R99). -/
def cellNext (table : List Byte) (s p : Nat) : Nat := ((table.getD (4 * s + p) 0xFF#8).extractLsb' 0 4).toNat

/-- The code of the trigger in cell `4*s + p` (30_encoding.md R98, R99). -/
def cellTrigger (table : List Byte) (s p : Nat) : Nat := ((table.getD (4 * s + p) 0xFF#8).extractLsb' 4 4).toNat

/-- R171, condition 1: 28 cells, each with a state code in `0..6` and a trigger code in `0..2`. -/
def tableCodesOk (table : List Byte) : Bool :=
  table.length == 28 &&
  (List.range 7).all fun s => (List.range 4).all fun p =>
    decide (cellNext table s p ≤ 6) && decide (cellTrigger table s p ≤ 2)

/-- R171, condition 2: a cell with trigger `Cw` (1) is in row `CwFinal` (3), one with `Ccw` (2) in row `CcwFinal` (6),
and its next state is `Start` (0). -/
def tableTriggersOk (table : List Byte) : Bool :=
  (List.range 7).all fun s => (List.range 4).all fun p =>
    (cellTrigger table s p != 1 || (s == 3 && cellNext table s p == 0)) &&
    (cellTrigger table s p != 2 || (s == 6 && cellNext table s p == 0))

/-- Some pattern drives state `s` to state `s'` with trigger `tr`. -/
def tableHasEdge (table : List Byte) (s s' tr : Nat) : Bool :=
  (List.range 4).any fun p => cellNext table s p == s' && cellTrigger table s p == tr

/-- R171, condition 3: both full paths exist, with the trigger on the last transition and none before it. -/
def tablePathsOk (table : List Byte) : Bool :=
  tableHasEdge table 0 1 0 && tableHasEdge table 1 2 0 && tableHasEdge table 2 3 0 && tableHasEdge table 3 0 1 &&
  tableHasEdge table 0 4 0 && tableHasEdge table 4 5 0 && tableHasEdge table 5 6 0 && tableHasEdge table 6 0 2

/-- R171, condition 4: a pattern drives `Start`, `CwBegin`, `Start` with no trigger. -/
def tableAbortOk (table : List Byte) : Bool := tableHasEdge table 0 1 0 && tableHasEdge table 1 0 0

/-- How many of the three states `first`, `first + 1`, `first + 2` have been visited in that order since the last
visit to `Start`, after a visit to `s'` (R171, condition 5). -/
def pathProgress (first k s' : Nat) : Nat :=
  if s' = 0 then 0 else if k < 3 ∧ s' = first + k then k + 1 else k

/-- The pairs (state, progress) one transition away from `node`. -/
def pathSuccessors (table : List Byte) (first : Nat) (node : Nat × Nat) : List (Nat × Nat) :=
  (List.range 4).map fun p => (cellNext table node.1 p, pathProgress first node.2 (cellNext table node.1 p))

/-- The pairs (state, progress) found from `todo`, a search with a bound on the pairs looked at. -/
def pathReach (table : List Byte) (first : Nat) : Nat → List (Nat × Nat) → List (Nat × Nat) → List (Nat × Nat)
  | 0, _, seen => seen
  | _ + 1, [], seen => seen
  | fuel + 1, node :: todo, seen =>
    if seen.contains node then pathReach table first fuel todo seen
    else pathReach table first fuel (pathSuccessors table first node ++ todo) (node :: seen)

/-- R171, condition 5, for one direction: the pairs found hold the start, are closed under every transition, and the
trigger `tr` leaves only pairs with all three states visited. Each pair is expanded once and adds four, so 120 looks
suffice for the 28 pairs. -/
def tableNoShortcut (table : List Byte) (first tr : Nat) : Bool :=
  let seen := pathReach table first 120 [(0, 0)] []
  seen.contains (0, 0) && seen.all fun node =>
    (pathSuccessors table first node).all seen.contains &&
    (List.range 4).all fun p => cellTrigger table node.1 p != tr || node.2 == 3

/-- The tables the model accepts (42_rotary.md R171). -/
def tableOk (table : List Byte) : Bool :=
  tableCodesOk table && tableTriggersOk table && tablePathsOk table && tableAbortOk table &&
  tableNoShortcut table 1 1 && tableNoShortcut table 4 2

/-! ## The bounds of 00_scope.md R8 -/

/-- `2 <= N <= 256` and one descriptor per channel. -/
def channelsOk (cfg : Config) : Bool :=
  decide (2 ≤ cfg.n) && decide (cfg.n ≤ 256) && cfg.ch.length == cfg.n

/-- Every descriptor is a `CHSEL_BITS`-bit code, and `CHSEL_BITS` fits the field `SEL[3:0]` (log 16). -/
def codesOk (cfg : Config) : Bool :=
  decide (1 ≤ cfg.chselBits) && decide (cfg.chselBits ≤ 4) && cfg.ch.all fun c => decide (c < 2 ^ cfg.chselBits)

/-- `ADC_BITS` is in `1..16`. -/
def adcBitsOk (cfg : Config) : Bool := decide (1 ≤ cfg.adcBits) && decide (cfg.adcBits ≤ 16)

/-- `SIZE >= 1` and `NS >= 2`. -/
def storeOk (cfg : Config) : Bool := decide (1 ≤ cfg.size) && decide (2 ≤ slotCount cfg)

/-- `ROT_ACC_BITS` is a width whose values a u16 shows whole (log 15). -/
def accBitsOk (cfg : Config) : Bool := decide (1 ≤ cfg.rotAccBits) && decide (cfg.rotAccBits ≤ 16)

/-- The configurations that have runs (00_scope.md R8, R19; 60_exceptions.md R257). -/
def configOk (cfg : Config) : Bool :=
  channelsOk cfg && codesOk cfg && adcBitsOk cfg && storeOk cfg && accBitsOk cfg && tableOk cfg.rotTable

/-- EEPROM cells with addresses rising from `lo` on, none holding the erased byte `0xFF`. -/
def cellsFrom : Nat → List (Nat × Byte) → Bool
  | _, [] => true
  | lo, (a, v) :: rest => decide (lo ≤ a) && v != 0xFF#8 && cellsFrom (a + 1) rest

/-- A list of EEPROM cells in canonical form: addresses strictly rising, none holding the erased byte `0xFF`, which an
unlisted address reads as (00_scope.md R9; log 23). -/
def cellsOk (m : List (Nat × Byte)) : Bool := cellsFrom 0 m

/-- The launch inputs have the sizes R9 gives them: `EE0[0..EE_CAP-1]` and `MEMBUF0[0..SIZE-1]` (log 26). -/
def launchOk (cfg : Config) (launch : Launch) : Bool :=
  cellsOk launch.ee0 && (launch.ee0.all fun c => decide (c.1 < cfg.eeCap)) && launch.membuf0.length == cfg.size

/-! ## The default values -/

/-- The default `ROT_TABLE` (42_rotary.md R172). -/
def defaultTable : List Byte :=
  [0x00#8, 0x01#8, 0x04#8, 0x00#8] ++ [0x02#8, 0x01#8, 0x00#8, 0x00#8] ++ [0x02#8, 0x01#8, 0x03#8, 0x00#8] ++
  [0x02#8, 0x00#8, 0x03#8, 0x10#8] ++ [0x05#8, 0x00#8, 0x04#8, 0x00#8] ++ [0x05#8, 0x06#8, 0x04#8, 0x00#8] ++
  [0x05#8, 0x06#8, 0x00#8, 0x20#8]

/-- The configuration of the reset state: R8's defaults; DESIGN CHOICE where R8 gives none (`N`, `CH`, `SIZE`, the
validator, and `BUILD`, which no rule reads; log 2). -/
def defaultConfig : Config :=
  { n := 3, ch := [0, 1, 2], chselBits := 4, adcBits := 10, size := 30, eeCap := 1024, rotTable := defaultTable,
    rotAccBits := 16, rotOvf := .fault, adcOverrun := .hold, eeByteAtomic := true, searchBroken := .fault,
    verdicts := [], build := .debug }

/-- The launch inputs of the reset state: `EE0` all `0xFF` (00_scope.md R9); DESIGN CHOICE for the others (log 3). -/
def defaultLaunch : Launch :=
  { ee0 := [], pinA0 := true, pinB0 := true, selOther0 := 0#4, membuf0 := List.replicate 30 0#8, pre0 := 0#3 }

end Sys2Proof.Machine
end

