-- ==== Sys2Proof/Machine/State.lean ====
section
/-! DEFINITION. The state of the block (10_state.md R20 to R47), the reasons a step stops, and the state after reset
(R46, 70_reset_and_hazards.md R280). -/

namespace Sys2Proof.Machine

/-- The EEPROM contents: the cells that differ from the erased byte `0xFF`, addresses strictly rising (`cellsOk`). -/
abbrev Memory := List Host.Cell

/-- `CTX`, the execution context now running (10_state.md R23). -/
inductive Ctx where
  | main | isrAdc | isrPcint
deriving DecidableEq, Repr

/-- `RotaryState` (10_state.md R36); its codes are in `Operands.lean` (30_encoding.md R100). -/
inductive RotaryState where
  | start | cwBegin | cwNext | cwFinal | ccwBegin | ccwNext | ccwFinal
deriving DecidableEq, Repr

/-- A value in the log `RET` (10_state.md R21). -/
inductive RetValue where
  /-- The u16 of `SMP.GET`. -/
  | u16 (v : Half)
  /-- The list of N u16 of `SMP.GETALL`. -/
  | u16s (vs : List Half)
  /-- The s16 of `ROT.TAKE`, as its two's-complement bits. -/
  | s16 (v : Half)
  /-- The list of SIZE u8 of `EE.INIT`. -/
  | bytes (vs : List Byte)
  /-- The marker a power loss appends. -/
  | powerLoss
deriving DecidableEq, Repr

/-- The fault state (10_state.md R25). -/
structure FaultRegs where
  /-- `FAULTED`. -/
  faulted : Bool
  /-- `FAULT_CODE`. -/
  code : Byte
  /-- `FAULT_AGENT`. -/
  agent : Agent
  /-- `FAULT_MPC`. -/
  mpc : Nat
  /-- `FAULT_INFO`. -/
  info : Half
deriving DecidableEq, Repr

/-- `ADC_CTRL`, by its fields (10_state.md R30); its 8-bit view is `adcCtrlByte` in `Operands.lean`. -/
structure AdcCtrl where
  en : Bool
  start : Bool
  free : Bool
  /-- `IF`, conversion-complete interrupt pending. -/
  iflag : Bool
  /-- `IE`, conversion-complete interrupt enabled. -/
  ie : Bool
  /-- `PRE`, preserved by every write. -/
  pre : BitVec 3
deriving DecidableEq, Repr

/-- `SEL`, by its fields (10_state.md R31); its 8-bit view is `selByte` in `Operands.lean`. -/
structure Sel where
  /-- `OTHER`, preserved by every write. -/
  other : BitVec 4
  /-- `CHSEL`, the channel armed for the next conversion. -/
  chsel : BitVec 4
deriving DecidableEq, Repr

/-- One EEPROM operation of a micro-step (00_scope.md R12). -/
inductive EeOp where
  /-- `EEErase(a)`. -/
  | erase (a : Nat)
  /-- `EEWrite(a, v)`. -/
  | write (a : Nat) (v : Byte)
deriving DecidableEq, Repr

/-- MAIN's position inside `EE.INIT` (43_store.md R212, 60_exceptions.md R261): the EEPROM operations still to do, one
per micro-step, and what `Finish` then writes. -/
structure EeJob where
  ops : List EeOp
  slot : Nat
  ver : Half
  record : List Byte
deriving DecidableEq, Repr

/-- The inputs the step takes: the scheduler's choices and the environment's draws still to come, and the index of the
next free value, for when a list is used up (10_state.md R47; log 5, log 7). -/
structure Env where
  turns : List Turn
  draws : List Nat
  ctr : Nat
deriving DecidableEq, Repr

/-- The state of the block. -/
structure State where
  /-- The configuration (00_scope.md R8), no step changes it. -/
  cfg : Config
  /-- The launch inputs (R9), no step changes them. -/
  launch : Launch
  /-- The MAIN program (R9), read-only storage (20_memory.md R72). -/
  prog : List Word
  /-- `MPC` (10_state.md R20). -/
  mpc : Nat
  /-- `RET` (R21). -/
  ret : List (Nat × RetValue)
  /-- `I` (R22). -/
  i : Bool
  /-- `CTX` (R23). -/
  ctx : Ctx
  /-- `CS_STACK`, innermost last (R24). -/
  csStack : List Bool
  /-- The fault state (R25). -/
  fault : FaultRegs
  /-- `SMP_READY` (R26). -/
  smpReady : Bool
  /-- `S[0..N-1]` (R27). -/
  samples : List Half
  /-- `CUR` (R28). -/
  cur : Nat
  /-- `ADC_CTRL` (R30). -/
  adcCtrl : AdcCtrl
  /-- `SEL` (R31). -/
  sel : Sel
  /-- `CONV_ACTIVE` (R32). -/
  convActive : Bool
  /-- `CONV_CH` (R32). -/
  convCh : BitVec 4
  /-- `ADC_DATA` (R34). -/
  adcData : Half
  /-- `DONE_CH` (R34; log 17). -/
  doneCh : List (BitVec 4)
  /-- `ROT_READY` (R35). -/
  rotReady : Bool
  /-- `RS` (R36). -/
  rs : RotaryState
  /-- `ACC` (R37), a signed integer kept in the range of `ROT_ACC_BITS` by 42_rotary.md R176. -/
  acc : Int
  /-- `PIN_A` (R38). -/
  pinA : Bool
  /-- `PIN_B` (R38). -/
  pinB : Bool
  /-- `PCIE` (R39). -/
  pcie : Bool
  /-- `PCIF` (R39). -/
  pcif : Bool
  /-- `EE[0..EE_CAP-1]` (R41). -/
  ee : Memory
  /-- `ST_READY` (R42). -/
  stReady : Bool
  /-- `ST_SLOT` (R42). -/
  stSlot : Nat
  /-- `ST_VER` (R42). -/
  stVer : Half
  /-- `MEMBUF[0..SIZE-1]` (R43). -/
  membuf : List Byte
  /-- MAIN's position inside a multi-micro-step command (70_reset_and_hazards.md R289). -/
  job : Option EeJob
  /-- The inputs still to come: the model's own field. -/
  env : Env
deriving DecidableEq, Repr

/-- Why a step stops the machine. -/
inductive Fault where
  /-- Raised by `step` in a state with `FAULTED = 1`: no agent has a step there (60_exceptions.md R250). Safe. -/
  | quiescent
  /-- Raised by the EEPROM primitives at an address `a >= EE_CAP`, where no byte exists (00_scope.md R12). No run
  reaches it (20_memory.md R61; log 14). Safe. -/
  | eepromAddress (a : Nat)
deriving DecidableEq, Repr

/-- What has no meaning. -/
inductive Refusal where
  /-- Raised by an arm of `exec` for a command without a meaning; no arm does. Safe. -/
  | notModelled (mnemonic : String)
  /-- Raised by `step` under a configuration or launch inputs that break 00_scope.md R8, R9 or 42_rotary.md R171: such a
  configuration has no runs (00_scope.md R19, 60_exceptions.md R257). Safe. -/
  | configuration
deriving DecidableEq, Repr

/-- The fault state before any fault; the fields beside `FAULTED` hold no value there (10_state.md R25; log 4). -/
def FaultRegs.clear : FaultRegs := { faulted := false, code := 0#8, agent := .main, mpc := 0, info := 0#16 }

/-- The state at first power-on (10_state.md R46, 70_reset_and_hazards.md R280). An element with no reset value is zero
(70_reset_and_hazards.md R282; log 4). -/
def State.powerOn (cfg : Config) (launch : Launch) (prog : List Word) (env : Env) : State :=
  { cfg := cfg, launch := launch, prog := prog, mpc := 0, ret := [], i := false, ctx := .main, csStack := [],
    fault := FaultRegs.clear, smpReady := false, samples := List.replicate cfg.n 0#16, cur := 0,
    adcCtrl := { en := false, start := false, free := false, iflag := false, ie := false, pre := launch.pre0 },
    sel := { other := launch.selOther0, chsel := 0#4 }, convActive := false, convCh := 0#4, adcData := 0#16,
    doneCh := [], rotReady := false, rs := .start, acc := 0, pinA := launch.pinA0, pinB := launch.pinB0,
    pcie := false, pcif := false, ee := launch.ee0, stReady := false, stSlot := 0, stVer := 0#16,
    membuf := launch.membuf0, job := none, env := env }

/-- The machine right after reset: the first power-on of the default configuration (00_scope.md R8) with no program
loaded and no inputs given (log 2, log 3, log 9). -/
def State.reset : State := State.powerOn defaultConfig defaultLaunch [] { turns := [], draws := [], ctr := 0 }

end Sys2Proof.Machine
end

