-- ==== Sys2Proof/Machine/Ops.lean ====
section
/-! DEFINITION. The named operations over memory, registers and inputs: the EEPROM primitives (00_scope.md R12), entering
the fault state (60_exceptions.md R250), interrupt entry and return (R261, R262), results (10_state.md R20, R21) and
draws (00_scope.md R13). -/

namespace Sys2Proof.Machine

/-- What a meaning answers. -/
abbrev Result := Host.Outcome State Fault Refusal

/-- The next operation, on the state the first one answers. -/
def andThen (r : Result) (f : State → Result) : Result :=
  match r with
  | .next s => f s
  | .fault e => .fault e
  | .refused e => .refused e

/-! ## EEPROM -/

/-- What an EEPROM byte that the memory does not list holds: the erased state (00_scope.md R9; log 23). -/
def erasedByte : Byte := 0xFF#8

/-- The canonical form of memory. -/
def memoryWf (m : Memory) : Bool := cellsOk m

/-- `EERead(a)` (00_scope.md R12). -/
def eeRead : Memory → Nat → Byte
  | [], _ => erasedByte
  | (b, v) :: rest, a => if a = b then v else eeRead rest a

/-- Memory with byte `a` set to `v`, in canonical form. -/
def eeSet : Memory → Nat → Byte → Memory
  | [], a, v => if v = erasedByte then [] else [(a, v)]
  | (b, w) :: rest, a, v =>
    if a < b then (if v = erasedByte then (b, w) :: rest else (a, v) :: (b, w) :: rest)
    else if a = b then (if v = erasedByte then rest else (a, v) :: rest)
    else (b, w) :: eeSet rest a v

/-- The address an EEPROM operation acts on. -/
def eeOpAddr : EeOp → Nat
  | .erase a => a
  | .write a _ => a

/-- The value an EEPROM operation leaves: `EEErase` leaves `0xFF`, `EEWrite` its value whatever the byte held
(00_scope.md R12). -/
def eeOpValue : EeOp → Byte
  | .erase _ => erasedByte
  | .write _ v => v

/-- An EEPROM operation on memory. -/
def eeApply (m : Memory) (op : EeOp) : Memory := eeSet m (eeOpAddr op) (eeOpValue op)

/-- An EEPROM operation as one micro-step (20_memory.md R74). An address outside the store has no byte (log 14). -/
def eeMicro (op : EeOp) (s : State) : Result :=
  if eeOpAddr op < s.cfg.eeCap then .next { s with ee := eeApply s.ee op } else .fault (.eepromAddress (eeOpAddr op))

/-! ## Faults -/

/-- The fault codes of 60_exceptions.md R251. -/
inductive FaultCode where
  | illegalCommand | wrongContext | notInitialized | doubleInit | indexRange | offsetRange | accOverflow | adcOverrun
  | csUnderflow | assertFailed | badTableCell | ringBroken
deriving DecidableEq, Repr

/-- The numbers of the fault codes (R251). -/
def faultNumber : FaultCode → Byte
  | .illegalCommand => 0x01#8
  | .wrongContext => 0x02#8
  | .notInitialized => 0x03#8
  | .doubleInit => 0x04#8
  | .indexRange => 0x05#8
  | .offsetRange => 0x06#8
  | .accOverflow => 0x07#8
  | .adcOverrun => 0x08#8
  | .csUnderflow => 0x09#8
  | .assertFailed => 0x0A#8
  | .badTableCell => 0x0B#8
  | .ringBroken => 0x0C#8

/-- Entering the fault state from a step of `agent`: the fault fields are written and nothing else (60_exceptions.md
R250). -/
def raiseBy (agent : Agent) (code : FaultCode) (info : Half) (s : State) : State :=
  { s with fault := { faulted := true, code := faultNumber code, agent := agent, mpc := s.mpc, info := info } }

/-- The agent whose step runs in a context (10_state.md R23, R25). -/
def ctxAgent : Ctx → Agent
  | .main => .main
  | .isrAdc => .isrAdc
  | .isrPcint => .isrPcint

/-- `raise Fault(code, info)` in a command or a handler body (R250). -/
def raise (code : FaultCode) (info : Half) (s : State) : State := raiseBy (ctxAgent s.ctx) code info s

/-! ## Position and results -/

/-- `MPC <- MPC + 1`, the end of a MAIN command that does not fault (10_state.md R20). -/
def advance (s : State) : State := { s with mpc := s.mpc + 1 }

/-- `RET <- (MPC, value)` (10_state.md R21). -/
def logRet (value : RetValue) (s : State) : State := { s with ret := s.ret ++ [(s.mpc, value)] }

/-! ## Interrupts -/

/-- Interrupt entry: further interrupts are masked and the handler's context runs (60_exceptions.md R261). -/
def interruptEntry (ctx : Ctx) (s : State) : State := { s with i := false, ctx := ctx }

/-- Interrupt return (R261, R262). -/
def interruptReturn (s : State) : State := { s with i := true, ctx := .main }

/-! ## Inputs -/

/-- `draw x in SET` for a set of `k` elements, as the index of the element drawn (00_scope.md R13): the next draw of the
environment, brought into range, or a free value where none is listed (log 7). -/
def draw (k : Nat) (s : State) : Nat × State :=
  match s.env.draws with
  | d :: rest => (d % k, { s with env := { s.env with draws := rest } })
  | [] => (Config.freeDraw s.env.ctr % k, { s with env := { s.env with ctr := s.env.ctr + 1 } })

/-- The scheduler's next choice, or a free value where none is listed (70_reset_and_hazards.md R288; log 5). -/
def takeTurn (s : State) : Turn × State :=
  match s.env.turns with
  | t :: rest => (t, { s with env := { s.env with turns := rest } })
  | [] => (Config.freeTurn s.env.ctr, { s with env := { s.env with ctr := s.env.ctr + 1 } })

end Sys2Proof.Machine
end

