-- ==== Sys2Proof/Machine/Flags.lean ====
section
/-! DEFINITION. Flag computations: the global mask and the critical-section stack (40_access_primitives.md R120 to R123),
the read-modify-writes of the converter's registers (10_state.md R30, R31), when an interrupt reaches the core
(60_exceptions.md R259), and the accumulator's range (42_rotary.md R176). -/

namespace Sys2Proof.Machine

/-- `I <- v`. -/
def setI (v : Bool) (s : State) : State := { s with i := v }

/-- `CS_STACK <- CS_STACK ++ [I]; I <- 0` (40_access_primitives.md R122). -/
def pushSection (s : State) : State := { s with csStack := s.csStack ++ [s.i], i := false }

/-- `I <- last(CS_STACK); CS_STACK <- init(CS_STACK)`, none when no section is open (R123). -/
def popSection (s : State) : Option State :=
  match s.csStack.getLast? with
  | some saved => some { s with i := saved, csStack := s.csStack.dropLast }
  | none => none

/-- `SEL <- {SEL[7:4], code}` (10_state.md R31). -/
def armChannel (code : BitVec 4) (s : State) : State := { s with sel := { s.sel with chsel := code } }

/-- A conversion starts: it latches the armed channel (10_state.md R32). -/
def startConversion (s : State) : State := { s with convActive := true, convCh := s.sel.chsel }

/-- The conversion-complete source reaches the core (60_exceptions.md R259). -/
def adcInterruptReady (s : State) : Bool := s.i && s.adcCtrl.iflag && s.adcCtrl.ie

/-- The pin-change source reaches the core (R259). -/
def pinInterruptReady (s : State) : Bool := s.i && s.pcif && s.pcie

/-- The bounds of a signed value of `bits` bits. -/
def accInRange (bits : Nat) (t : Int) : Bool := decide (-(2 ^ (bits - 1) : Int) ≤ t) && decide (t ≤ 2 ^ (bits - 1) - 1)

/-- `AccAdd(acc, d)`, none where it raises `ACC_OVERFLOW` (42_rotary.md R176). -/
def accAdd (cfg : Config) (acc d : Int) : Option Int :=
  if accInRange cfg.rotAccBits (acc + d) then some (acc + d)
  else match cfg.rotOvf with
    | .fault => none
    | .wrap => some ((acc + d).bmod (2 ^ cfg.rotAccBits))

end Sys2Proof.Machine
end

