-- ==== Sys2Proof/Machine/Access.lean ====
section
/-! DEFINITION. The critical-section access primitives and the interrupt enable (40_access_primitives.md R120 to R125). -/

namespace Sys2Proof.Machine

/-- `IRQ.OFF` (40_access_primitives.md R120). -/
def execIrqOff (s : State) : Result := .next (advance (setI false s))

/-- `IRQ.ON` (R121). A pending interrupt may be taken at the next boundary, with no delay (70_reset_and_hazards.md R294). -/
def execIrqOn (s : State) : Result := .next (advance (setI true s))

/-- `CS.ENTER` (R122). -/
def execCsEnter (s : State) : Result := .next (advance (pushSection s))

/-- `CS.EXIT` (R123). -/
def execCsExit (s : State) : Result :=
  match popSection s with
  | some t => .next (advance t)
  | none => .next (raise .csUnderflow 0#16 s)

/-- `FENCE` (R124): the model's program order is already the fence's effect (20_memory.md R69). -/
def execFence (s : State) : Result := .next (advance s)

/-- `ASSERT.IOFF` (R125), the same in both builds (60_exceptions.md R253). -/
def execAssertIoff (s : State) : Result :=
  if s.i then .next (raise .assertFailed 0#16 s) else .next (advance s)

end Sys2Proof.Machine
end

