-- ==== Sys2Proof/Machine/Operands.lean ====
section
/-! DEFINITION. Operand forms and encodings that the meanings read: the channel table, the BitPair cell and the codes of
states and triggers (30_encoding.md R97 to R101), slot placement and tags (R102 to R104), and the 8-bit views of the
converter's registers (10_state.md R30, R31). -/

namespace Sys2Proof.Machine

/-- `CH[k]` as a 4-bit code (10_state.md R29, R31). -/
def channel (cfg : Config) (k : Nat) : BitVec 4 := BitVec.ofNat 4 (cfg.ch.getD k 0)

/-- A bit as a number. -/
def bitNat (b : Bool) : Nat := if b then 1 else 0

/-- The input pattern `p = 2*pin_b + pin_a` (30_encoding.md R99). -/
def pinPattern (pa pb : Bool) : Nat := 2 * bitNat pb + bitNat pa

/-- The code of a rotary state (30_encoding.md R100). -/
def rotaryCode : RotaryState → Nat
  | .start => 0
  | .cwBegin => 1
  | .cwNext => 2
  | .cwFinal => 3
  | .ccwBegin => 4
  | .ccwNext => 5
  | .ccwFinal => 6

/-- The rotary state of a code, none for the reserved codes 7 to 15 (R100). -/
def rotaryOfCode : Nat → Option RotaryState
  | 0 => some .start
  | 1 => some .cwBegin
  | 2 => some .cwNext
  | 3 => some .cwFinal
  | 4 => some .ccwBegin
  | 5 => some .ccwNext
  | 6 => some .ccwFinal
  | _ => none

/-- The accumulator change of a trigger code, none for the reserved codes 3 to 15 (R101). -/
def triggerDelta : Nat → Option Int
  | 0 => some 0
  | 1 => some 1
  | 2 => some (-1)
  | _ => none

/-- The table index `4*s + p` (R99). -/
def tableIndex (rs : RotaryState) (p : Nat) : Nat := 4 * rotaryCode rs + p

/-- The transition the table gives for state `rs` and pattern `p`: the next state and the accumulator change, or none
where the cell holds a reserved code (R98, R100, R101). -/
def tableStep (table : List Byte) (rs : RotaryState) (p : Nat) : Option (RotaryState × Int) :=
  match rotaryOfCode (cellNext table (rotaryCode rs) p), triggerDelta (cellTrigger table (rotaryCode rs) p) with
  | some ns, some d => some (ns, d)
  | _, _ => none

/-- `NS` (43_store.md R200). -/
def ns (s : State) : Nat := slotCount s.cfg

/-- `addr(s) = s*(SIZE+2)` (30_encoding.md R104). -/
def slotAddr (cfg : Config) (slot : Nat) : Nat := slot * (cfg.size + 2)

/-- `Tag(s)`, little-endian (43_store.md R201, 20_memory.md R62). -/
def slotTag (cfg : Config) (m : Memory) (slot : Nat) : Half :=
  eeRead m (slotAddr cfg slot + 1) ++ eeRead m (slotAddr cfg slot)

/-- `Payload(s)` (43_store.md R201). -/
def slotPayload (cfg : Config) (m : Memory) (slot : Nat) : List Byte :=
  (List.range cfg.size).map fun j => eeRead m (slotAddr cfg slot + 2 + j)

/-- `t[15:8]`. -/
def highByte (t : Half) : Byte := t.extractLsb' 8 8

/-- `t[7:0]`. -/
def lowByte (t : Half) : Byte := t.extractLsb' 0 8

/-- `Blank(t)` (43_store.md R202, 90_conflicts.md C1). -/
def blankTag (t : Half) : Bool := highByte t == 0xFF#8

/-- `Key(t)` (43_store.md R202). -/
def tagKey (t : Half) : Int := if blankTag t then -1 else (t.toNat : Int)

/-- The EEPROM address `EE.PUT` writes (43_store.md R215). -/
def putAddr (s : State) (offset : Half) : Nat := slotAddr s.cfg s.stSlot + 2 + offset.toNat

/-- `ADC_CTRL` as its 8 bits (10_state.md R30). -/
def adcCtrlByte (c : AdcCtrl) : Byte :=
  BitVec.ofBool c.en ++ BitVec.ofBool c.start ++ BitVec.ofBool c.free ++ BitVec.ofBool c.iflag ++ BitVec.ofBool c.ie ++
    c.pre

/-- `SEL` as its 8 bits (10_state.md R31). -/
def selByte (sel : Sel) : Byte := sel.other ++ sel.chsel

end Sys2Proof.Machine
end

