-- ==== Sys2Proof/Machine/Rotary.lean ====
section
/-! DEFINITION. The debouncer's commands (42_rotary.md R173 to R178). -/

namespace Sys2Proof.Machine

/-- `ROT.INIT` (42_rotary.md R173); `PCIF` is left as it is. -/
def execRotInit (s : State) : Result :=
  if s.ctx ≠ .main then .next (raise .wrongContext 0x20#16 s)
  else if s.rotReady then .next (raise .doubleInit 0x20#16 s)
  else .next (advance { s with rs := .start, acc := 0, rotReady := true, pcie := true })

/-- One transition: the state after it, or the fault it raises with its info value. Shared by `ROT.STEP` and `ROT.ISR`
(R174, R178). The checks come in the order written and before any write; a trigger `None` runs no `AccAdd`. -/
def rotTransition (pa pb : Bool) (s : State) : Except (FaultCode × Half) State :=
  if s.i then .error (.wrongContext, 0x21#16)
  else if s.rotReady = false then .error (.notInitialized, 0x21#16)
  else match tableStep s.cfg.rotTable s.rs (pinPattern pa pb) with
    | none => .error (.badTableCell, BitVec.ofNat 16 (tableIndex s.rs (pinPattern pa pb)))
    | some (ns, d) =>
      if d = 0 then .ok { s with rs := ns }
      else match accAdd s.cfg s.acc d with
        | none => .error (.accOverflow, BitVec.ofInt 16 s.acc)
        | some acc' => .ok { s with rs := ns, acc := acc' }

/-- `ROT.STEP pa, pb` (R174). -/
def execRotStep (pa pb : Bool) (s : State) : Result :=
  match rotTransition pa pb s with
  | .ok t => .next (advance t)
  | .error (code, info) => .next (raise code info s)

/-- `ROT.TAKE`'s drain inside the critical section, which leaves `I` as it was (R175). -/
def takeAcc (s : State) : State := logRet (.s16 (BitVec.ofInt 16 s.acc)) { s with acc := 0 }

/-- The unsynchronised zero test of `ROT.TAKE` on a non-zero `ACC`: whether it reads a torn zero. It is drawn only where a
handler can run between the bytes (R175). -/
def drawTorn (s : State) : Bool × State :=
  if s.i ∧ 8 < s.cfg.rotAccBits then
    let d := draw 2 s
    (d.1 == 1, d.2)
  else (false, s)

/-- `ROT.TAKE` (R175). -/
def execRotTake (s : State) : Result :=
  if s.ctx ≠ .main then .next (raise .wrongContext 0x22#16 s)
  else if s.rotReady = false then .next (raise .notInitialized 0x22#16 s)
  else if s.acc = 0 then .next (advance (logRet (.s16 0#16) s))
  else
    let d := drawTorn s
    if d.1 then .next (advance (logRet (.s16 0#16) d.2)) else .next (advance (takeAcc d.2))

/-- `ROT.ISR` (R178), the body of the pin-change handler; it leaves `MPC` alone (10_state.md R20). The faults of the
transition carry the info values `ROT.STEP` gives them (log 12). -/
def execRotIsr (s : State) : Result :=
  if s.ctx ≠ .isrPcint then .next (raise .wrongContext 0x23#16 s)
  else match rotTransition s.pinA s.pinB s with
    | .ok t => .next t
    | .error (code, info) => .next (raise code info s)

end Sys2Proof.Machine
end

