-- ==== Sys2Proof/Machine/Sampler.lean ====
section
/-! DEFINITION. The sampler's commands (41_sampler.md R140 to R147). -/

namespace Sys2Proof.Machine

/-- A conversion result: `draw r in [0, 2^ADC_BITS)`, zero-extended (41_sampler.md R141, R144). -/
def drawResult (s : State) : Half × State :=
  let d := draw (2 ^ s.cfg.adcBits) s
  (BitVec.ofNat 16 d.1, d.2)

/-- `BlockingConvert()` (R141). `START` is 1 only inside it and 0 after it. -/
def blockingConvert (s : State) : Half × State :=
  let d := drawResult { s with adcCtrl := { s.adcCtrl with start := true } }
  (d.1, { d.2 with adcData := d.1, adcCtrl := { d.2.adcCtrl with start := false } })

/-- One round of `SMP.INIT`'s loop: arm `CH[k]`, convert, `S[k] <-` the result (R140). -/
def seedSlot (s : State) (k : Nat) : State :=
  let c := blockingConvert (armChannel (channel s.cfg k) s)
  { c.2 with samples := c.2.samples.set k c.1 }

/-- `SMP.INIT`'s loop, `k` ascending from 0 to `N-1` (R140). -/
def seedAll (s : State) : State := (List.range s.cfg.n).foldl seedSlot s

/-- The first register write of `SMP.INIT` (R140). -/
def converterOn (s : State) : State :=
  { s with adcCtrl := { s.adcCtrl with en := true, free := false, ie := false } }

/-- The last lines of `SMP.INIT`: free-running conversion of `CH[0]` with `CH[1]` armed next (R140). -/
def startFreeRunning (s : State) : State :=
  let s1 := armChannel (channel s.cfg 0) { s with cur := 0 }
  let s2 := startConversion { s1 with adcCtrl := { s1.adcCtrl with iflag := false, free := true, ie := true } }
  { armChannel (channel s.cfg 1) s2 with smpReady := true }

/-- `SMP.INIT` (41_sampler.md R140). -/
def execSmpInit (s : State) : Result :=
  if s.ctx ≠ .main then .next (raise .wrongContext 0x10#16 s)
  else if s.i then .next (raise .wrongContext 0x10#16 s)
  else if s.smpReady then .next (raise .doubleInit 0x10#16 s)
  else .next (advance (startFreeRunning (seedAll (converterOn s))))

/-- `S[k]`. -/
def sampleAt (s : State) (k : Nat) : Half := s.samples.getD k 0#16

/-- `SMP.GET idx` (R146). -/
def execSmpGet (idx : Half) (s : State) : Result :=
  if s.i then .next (raise .wrongContext 0x11#16 s)
  else if s.smpReady = false then .next (raise .notInitialized 0x11#16 s)
  else if s.cfg.n ≤ idx.toNat then .next (raise .indexRange idx s)
  else .next (advance (logRet (.u16 (sampleAt s idx.toNat)) s))

/-- `SMP.GETALL` (R147). -/
def execSmpGetall (s : State) : Result :=
  if s.i then .next (raise .wrongContext 0x12#16 s)
  else if s.smpReady = false then .next (raise .notInitialized 0x12#16 s)
  else .next (advance (logRet (.u16s ((List.range s.cfg.n).map (sampleAt s))) s))

/-- `SMP.ISR`'s effect: store the result at the cursor, advance it, arm the channel two ahead (R145). -/
def storeConversion (s : State) : State :=
  armChannel (channel s.cfg ((s.cur + 2) % s.cfg.n))
    { s with samples := s.samples.set s.cur s.adcData, cur := (s.cur + 1) % s.cfg.n }

/-- `SMP.ISR` (R145), the body of the conversion-complete handler; it leaves `MPC` alone (10_state.md R20). -/
def execSmpIsr (s : State) : Result :=
  if s.ctx ≠ .isrAdc then .next (raise .wrongContext 0x13#16 s)
  else if s.i then .next (raise .wrongContext 0x13#16 s)
  else if s.smpReady = false then .next (raise .notInitialized 0x13#16 s)
  else .next (storeConversion s)

end Sys2Proof.Machine
end

