-- ==== Sys2Proof/Machine/Store.lean ====
section
/-! DEFINITION. The wear-levelled store's commands (43_store.md R200 to R215). -/

namespace Sys2Proof.Machine

/-! ## The newest slot (R204, R205) -/

/-- `k_s = Key(Tag(s))` (43_store.md R204). -/
def slotKey (cfg : Config) (m : Memory) (slot : Nat) : Int := tagKey (slotTag cfg m slot)

/-- Slot `slot` is blank (R202). -/
def slotBlank (cfg : Config) (m : Memory) (slot : Nat) : Bool := blankTag (slotTag cfg m slot)

/-- All `NS` slots are blank. -/
def allBlank (cfg : Config) (m : Memory) : Bool := (List.range (slotCount cfg)).all (slotBlank cfg m)

/-- Slot `j` is a descent: `k_j > k_((j+1) mod NS)` (R204). -/
def isDescent (cfg : Config) (m : Memory) (j : Nat) : Bool :=
  decide (slotKey cfg m ((j + 1) % slotCount cfg) < slotKey cfg m j)

/-- The descents, in address order. -/
def descents (cfg : Config) (m : Memory) : List Nat := (List.range (slotCount cfg)).filter (isDescent cfg m)

/-- `RING_OK` (R204). -/
def ringOk (cfg : Config) (m : Memory) : Bool := allBlank cfg m || (descents cfg m).length == 1

/-- What the search finds (R205). -/
inductive Search where
  /-- `None`: every slot is blank. -/
  | none
  /-- The newest slot. -/
  | slot (j : Nat)
  /-- `RING_OK` fails. -/
  | broken
deriving DecidableEq, Repr

/-- The newest slot where `RING_OK` holds (R205); a linear scan gives the same result as the source's binary search,
whose comparisons are not observable (R205). -/
def searchRing (cfg : Config) (m : Memory) : Search :=
  if allBlank cfg m then .none
  else match descents cfg m with
    | [j] => .slot j
    | _ => .broken

/-- The set a broken-ring search draws from: `None` and the non-blank slots (R205). -/
def searchChoices (cfg : Config) (m : Memory) : List (Option Nat) :=
  none :: ((List.range (slotCount cfg)).filter fun j => !slotBlank cfg m j).map some

/-- `FindNewest()`: its result with the state after its draw, or none where it raises `RING_BROKEN` (R205). -/
def findNewest (s : State) : Option (Option Nat × State) :=
  match searchRing s.cfg s.ee with
  | .none => some (none, s)
  | .slot j => some (some j, s)
  | .broken =>
    match s.cfg.searchBroken with
    | .fault => none
    | .draw =>
      let d := draw (searchChoices s.cfg s.ee).length s
      some ((searchChoices s.cfg s.ee).getD d.1 none, d.2)

/-! ## Write sequences (R207, R208) -/

/-- `WriteSlot(slot, ver, X)`: tag high byte erased, payload ascending, tag low byte, tag high byte (R207). -/
def writeSlotOps (cfg : Config) (slot : Nat) (ver : Half) (record : List Byte) : List EeOp :=
  .erase (slotAddr cfg slot + 1) ::
    (List.range cfg.size).map (fun j => EeOp.write (slotAddr cfg slot + 2 + j) (record.getD j erasedByte)) ++
    [.write (slotAddr cfg slot) (lowByte ver), .write (slotAddr cfg slot + 1) (highByte ver)]

/-- Phase 1 of `ClearStore(first)`: the tag high bytes, cyclically from slot `first` (R208). -/
def clearTagOps (cfg : Config) (first : Nat) : List EeOp :=
  (List.range (slotCount cfg)).map fun t => EeOp.erase (slotAddr cfg ((first + t) % slotCount cfg) + 1)

/-- Phase 2 of `ClearStore`: every other byte of the region, ascending (R208). Byte `b` is a tag high byte exactly when
its offset in its slot is 1. -/
def clearRestOps (cfg : Config) : List EeOp :=
  ((List.range (slotCount cfg * (cfg.size + 2))).filter fun b => b % (cfg.size + 2) != 1).map EeOp.erase

/-- `ClearStore(first)` (R208). -/
def clearStoreOps (cfg : Config) (first : Nat) : List EeOp := clearTagOps cfg first ++ clearRestOps cfg

/-! ## `EE.INIT` (R210 to R214) -/

/-- `VALIDATOR(P)` (R213): the configuration's verdict, or the free value (log 8). -/
def accepts (cfg : Config) (payload : List Byte) : Bool :=
  match cfg.verdicts.lookup payload with
  | some verdict => verdict
  | none => Config.validator payload

/-- The rest of `EE.INIT` when it writes the caller's default `D` at slot 0 with version 0, after `before` (R211, R212). -/
def seedJob (s : State) (before : List EeOp) : EeJob :=
  { ops := before ++ writeSlotOps s.cfg 0 0#16 s.membuf, slot := 0, ver := 0#16, record := s.membuf }

/-- The next version overflows (R210). -/
def versionOverflows (nv : Half) : Bool := highByte nv == 0xFF#8

/-- The wipe before an overflow restart, or nothing (R210). -/
def advanceWipe (s : State) (i : Nat) : List EeOp :=
  if versionOverflows (slotTag s.cfg s.ee i + 1#16) then clearStoreOps s.cfg ((i + 1) % ns s) else []

/-- The slot and the version of the advanced record (R210). -/
def advanceTarget (s : State) (i : Nat) : Nat × Half :=
  if versionOverflows (slotTag s.cfg s.ee i + 1#16) then (0, 0#16)
  else ((i + 1) % ns s, slotTag s.cfg s.ee i + 1#16)

/-- The advance of the record found in slot `i`: wipe if the version overflows, copy forward, then keep or reseed by the
validator's verdict (R210, R212). -/
def advanceJob (s : State) (i : Nat) : EeJob :=
  let payload := slotPayload s.cfg s.ee i
  let target := advanceTarget s i
  let copy := advanceWipe s i ++ writeSlotOps s.cfg target.1 target.2 payload
  if accepts s.cfg payload then { ops := copy, slot := target.1, ver := target.2, record := payload }
  else seedJob s (copy ++ clearStoreOps s.cfg ((target.1 + 1) % ns s))

/-- Everything `EE.INIT` will do, with the state after the search's draw, or none where the search raises `RING_BROKEN`.
All reads are made here: they have no side effect, MAIN alone writes the store, and the validator is a function of the
payload, so where among the micro-steps they fall is not observable (43_store.md preamble, R212, R213; log 13). -/
def eeInitPlan (clear : Bool) (s : State) : Option (EeJob × State) :=
  if clear then some (seedJob s (clearStoreOps s.cfg 0), s)
  else match findNewest s with
    | none => none
    | some (none, t) => some (seedJob s [], t)
    | some (some i, t) => some (advanceJob s i, t)

/-- `Finish(slot, ver, X)`, the last micro-step (R212). -/
def eeFinish (job : EeJob) (s : State) : State :=
  advance (logRet (.bytes job.record)
    { s with membuf := job.record, stSlot := job.slot, stVer := job.ver, stReady := true, job := none })

/-- The next micro-step of an `EE.INIT` in progress (00_scope.md R14, 43_store.md R212); `MPC` stays until the last
(10_state.md R20). -/
def eeContinue (job : EeJob) (s : State) : Result :=
  match job.ops with
  | [] => .next (eeFinish job s)
  | op :: rest => andThen (eeMicro op s) fun t => .next { t with job := some { job with ops := rest } }

/-- `EE.INIT clear` (R212): the checks, the reads and the first micro-step, or the next micro-step where one is in
progress. -/
def execEeInit (clear : Bool) (s : State) : Result :=
  match s.job with
  | some job => eeContinue job s
  | none =>
    if s.ctx ≠ .main then .next (raise .wrongContext 0x30#16 s)
    else if s.stReady then .next (raise .doubleInit 0x30#16 s)
    else match eeInitPlan clear s with
      | none => .next (raise .ringBroken 0#16 s)
      | some (job, t) => eeContinue job t

/-! ## `EE.PUT` (R215) -/

/-- `EE.PUT offset, value` (R215). -/
def execEePut (offset : Half) (value : Byte) (s : State) : Result :=
  if s.ctx ≠ .main then .next (raise .wrongContext 0x31#16 s)
  else if s.stReady = false then .next (raise .notInitialized 0x31#16 s)
  else if s.cfg.size ≤ offset.toNat then .next (raise .offsetRange offset s)
  else andThen (eeMicro (.write (putAddr s offset) value) s) fun t => .next (advance t)

/-! ## MAIN's next EEPROM operation (70_reset_and_hazards.md R284) -/

/-- The operation MAIN's next micro-step of `EE.PUT` does, none where it would fault. -/
def pendingPut (offset : Half) (value : Byte) (s : State) : Option (EeOp × State) :=
  if s.ctx = .main ∧ s.stReady ∧ offset.toNat < s.cfg.size then some (.write (putAddr s offset) value, s) else none

/-- The operation a job does next, none where only `Finish` is left. -/
def jobOp (job : EeJob) (s : State) : Option (EeOp × State) :=
  match job.ops with
  | [] => none
  | op :: _ => some (op, s)

/-- The operation MAIN's next micro-step of `EE.INIT` does, none where it would fault or only writes RAM. -/
def pendingInit (clear : Bool) (s : State) : Option (EeOp × State) :=
  match s.job with
  | some job => jobOp job s
  | none =>
    if s.ctx = .main ∧ s.stReady = false then
      match eeInitPlan clear s with
      | none => none
      | some (job, t) => jobOp job t
    else none

/-- The EEPROM operation of the next micro-step of command `i`, with the state after the search's draw. -/
def pendingEeOp (i : Instr) (s : State) : Option (EeOp × State) :=
  match i with
  | .eeInit clear => pendingInit clear s
  | .eePut offset value => pendingPut offset value s
  | .irqOff | .irqOn | .csEnter | .csExit | .fence | .assertIoff => none
  | .smpInit | .smpGet _ | .smpGetall | .smpIsr => none
  | .rotInit | .rotStep _ _ | .rotTake | .rotIsr => none

end Sys2Proof.Machine
end

