-- ==== Sys2Proof/Machine/Dispatch.lean ====
section
/-! DEFINITION. The meaning of each command: one arm per row of the opcode table (30_encoding.md R92). -/

namespace Sys2Proof.Machine

def exec (i : Instr) (s : State) : Host.Outcome State Fault Refusal :=
  match i with
  | .irqOff => Sys2Proof.Machine.execIrqOff s
  | .irqOn => Sys2Proof.Machine.execIrqOn s
  | .csEnter => Sys2Proof.Machine.execCsEnter s
  | .csExit => Sys2Proof.Machine.execCsExit s
  | .fence => Sys2Proof.Machine.execFence s
  | .assertIoff => Sys2Proof.Machine.execAssertIoff s
  | .smpInit => Sys2Proof.Machine.execSmpInit s
  | .smpGet idx => Sys2Proof.Machine.execSmpGet idx s
  | .smpGetall => Sys2Proof.Machine.execSmpGetall s
  | .smpIsr => Sys2Proof.Machine.execSmpIsr s
  | .rotInit => Sys2Proof.Machine.execRotInit s
  | .rotStep pa pb => Sys2Proof.Machine.execRotStep pa pb s
  | .rotTake => Sys2Proof.Machine.execRotTake s
  | .rotIsr => Sys2Proof.Machine.execRotIsr s
  | .eeInit clear => Sys2Proof.Machine.execEeInit clear s
  | .eePut offset value => Sys2Proof.Machine.execEePut offset value s

end Sys2Proof.Machine
end

