-- ==== Sys2Proof/Machine/Agents.lean ====
section
/-! DEFINITION. The steps of the agents (00_scope.md R7): MAIN, the two interrupt service steps, the converter, the pins
and the power, and when each is enabled. -/

namespace Sys2Proof.Machine

/-! ## MAIN (10_state.md R20, 30_encoding.md R90) -/

/-- MAIN fetches the word at `MPC`, decodes and executes it; a word that is no command faults (30_encoding.md R90, R93).
Past the program's end there is no word and MAIN has no step (70_reset_and_hazards.md R289). -/
def mainStep (s : State) : Result :=
  match s.prog[s.mpc]? with
  | none => .next s
  | some w =>
    match decode w with
    | .ok i => exec i s
    | .error _ => .next (raise .illegalCommand (illegalInfo w) s)

/-- The EEPROM operation of MAIN's next micro-step, with the state after a search's draw (70_reset_and_hazards.md R284). -/
def nextEeOp (s : State) : Option (EeOp × State) :=
  match s.prog[s.mpc]? with
  | none => none
  | some w =>
    match decode w with
    | .ok i => pendingEeOp i s
    | .error _ => none

/-! ## Interrupt service (60_exceptions.md R258 to R263) -/

/-- Entry, body and return as one step from `s`, entered at `entered`; a fault in the body ends the step with the fault
fields written and nothing else (60_exceptions.md R250, R261; log 11). -/
def service (body : State → Result) (entered s : State) : Result :=
  andThen (body entered) fun t =>
    .next (if t.fault.faulted then { s with fault := t.fault } else interruptReturn t)

/-- The `ISR_ADC` service step: entry clears `IF` (R258, R261). -/
def serviceAdc (s : State) : Result :=
  service execSmpIsr { interruptEntry .isrAdc s with adcCtrl := { s.adcCtrl with iflag := false } } s

/-- The `ISR_PCINT` service step: entry clears `PCIF` (R258, R261). -/
def servicePcint (s : State) : Result :=
  service execRotIsr { interruptEntry .isrPcint s with pcif := false } s

/-! ## The converter (41_sampler.md R144) -/

/-- A completed conversion: its result, the bookkeeping, the flag, and the next conversion's start (R144). -/
def completeConversion (s : State) : State :=
  let d := drawResult s
  startConversion
    { d.2 with
      adcData := d.1, doneCh := d.2.doneCh ++ [d.2.convCh], adcCtrl := { d.2.adcCtrl with iflag := true } }

/-- The ADC agent's step; with a completion unserviced it faults, or is not enabled (`enabled`), by `ADC_OVERRUN` (R144). -/
def adcStep (s : State) : Result :=
  if s.adcCtrl.iflag then .next (raiseBy .adc .adcOverrun (s.convCh.setWidth 16) s)
  else .next (completeConversion s)

/-! ## The pins (42_rotary.md R177) -/

/-- The PINS agent's step: one of the three other pairs of levels is drawn, as the distance from the present pattern. -/
def pinsStep (s : State) : Result :=
  let d := draw 3 s
  let p := (pinPattern s.pinA s.pinB + 1 + d.1) % 4
  .next { d.2 with pinA := p % 2 == 1, pinB := p / 2 == 1, pcif := true }

/-! ## The power (70_reset_and_hazards.md R283, R284) -/

/-- A power loss: the marker is logged, every volatile element takes its reset value, and `EE`, the pins, the fault state
and `RET` are kept (R283). The inputs still to come are the model's own and are kept too. -/
def powerLoss (s : State) : State :=
  { State.powerOn s.cfg s.launch s.prog s.env with
    ret := s.ret ++ [(s.mpc, .powerLoss)], ee := s.ee, pinA := s.pinA, pinB := s.pinB, fault := s.fault }

/-- A power loss during a byte write: the byte is drawn, then power is lost (R284). -/
def powerTornStep (s : State) : Result :=
  match nextEeOp s with
  | none => .next s
  | some (op, t) =>
    let d := draw 256 t
    andThen (eeMicro (.write (eeOpAddr op) (BitVec.ofNat 8 d.1)) d.2) fun u => .next (powerLoss u)

/-! ## Who may step (60_exceptions.md R255, R260) -/

/-- The agent has a step in this state. While `FAULTED = 1` none has (60_exceptions.md R250). -/
def enabled (t : Turn) (s : State) : Bool :=
  !s.fault.faulted &&
  match t with
  | .main => s.ctx == .main && decide (s.mpc < s.prog.length)
  | .isrAdc => s.ctx == .main && adcInterruptReady s
  | .isrPcint => s.ctx == .main && pinInterruptReady s
  | .adc =>
    s.adcCtrl.en && s.adcCtrl.free && s.convActive && !(s.adcCtrl.iflag && s.cfg.adcOverrun == .hold)
  | .pins => true
  | .power => true
  | .powerTorn => !s.cfg.eeByteAtomic && s.ctx == .main && (nextEeOp s).isSome

/-- The step of an agent. -/
def agentStep (t : Turn) (s : State) : Result :=
  match t with
  | .main => mainStep s
  | .isrAdc => serviceAdc s
  | .isrPcint => servicePcint s
  | .adc => adcStep s
  | .pins => pinsStep s
  | .power => .next (powerLoss s)
  | .powerTorn => powerTornStep s

/-- The turn of the agent chosen: its step, or, where it holds, nothing (60_exceptions.md R255; log 6). -/
def runTurn (t : Turn) (s : State) : Result := if enabled t s then agentStep t s else .next s

/-- One turn of the scheduler's choosing (60_exceptions.md R260, 70_reset_and_hazards.md R288). -/
def schedule (s : State) : Result := runTurn (takeTurn s).1 (takeTurn s).2

/-! ## Placing a word where MAIN fetches -/

/-- The program with `w` at index `k`, padded with zero words where it is shorter. -/
def placeWord (prog : List Word) (k : Nat) (w : Word) : List Word :=
  (prog ++ List.replicate (k + 1 - prog.length) 0#32).set k w

/-- The state whose next turn is MAIN's, on the word `w`. -/
def withMainWord (s : State) (w : Word) : State :=
  { s with prog := placeWord s.prog s.mpc w, env := { s.env with turns := .main :: s.env.turns } }

end Sys2Proof.Machine
end

