-- ==== Sys2Proof/WellFormed.lean ====
section
/-! DEFINITION. Well-formedness: of a command, of a configuration (00_scope.md R8, R19; 42_rotary.md R171) and of the
launch inputs (R9). -/

namespace Sys2Proof

/-- Every command is well formed: an operand's type is its field (30_encoding.md R91), and its range against `N` or
`SIZE` is the command's own check, not the decoder's. -/
def Instr.wellFormed : Instr → Bool
  | .irqOff => true
  | .irqOn => true
  | .csEnter => true
  | .csExit => true
  | .fence => true
  | .assertIoff => true
  | .smpInit => true
  | .smpGet _ => true
  | .smpGetall => true
  | .smpIsr => true
  | .rotInit => true
  | .rotStep _ _ => true
  | .rotTake => true
  | .rotIsr => true
  | .eeInit _ => true
  | .eePut _ _ => true

/-- The configuration with its launch inputs has runs; any other is refused (00_scope.md R19, 60_exceptions.md R257). -/
def Config.wellFormed (cfg : Config) (launch : Launch) : Bool := Machine.configOk cfg && Machine.launchOk cfg launch

end Sys2Proof
end

