-- ==== Sys2Proof/Machine/Step.lean ====
section
/-! DEFINITION. One step of the machine: one step of one agent (00_scope.md R7, R14; 20_memory.md R68). -/

namespace Sys2Proof.Machine

/-- One step. A faulted state has none (60_exceptions.md R250; log 10); a configuration outside its bounds has no runs
(00_scope.md R19). -/
def step (s : State) : Host.Outcome State Fault Refusal :=
  if s.fault.faulted then .fault .quiescent
  else if s.cfg.wellFormed s.launch then schedule s
  else .refused .configuration

/-- `s` with the command word `w` at `MPC` and the next turn MAIN's (log 9). -/
def State.withFetchWord (s : State) (nbits w : Nat) : State := withMainWord s (BitVec.ofNat 32 (w % 2 ^ nbits))

end Sys2Proof.Machine
end

