-- ==== Sys2Proof/Safety.lean ====
section
/-! DEFINITION. What counts as a run, a final state and a fair run (70_reset_and_hazards.md R288, R289), the invariants
of the machine, and the terms claims are stated in. -/

namespace Sys2Proof.Safety

open Sys2Proof.Machine

/-! ## Runs -/

/-- MAIN is finished: `MPC` equals the program's length and no multi-micro-step command is in progress (R289). -/
def mainFinished (s : State) : Prop := s.mpc = s.prog.length ∧ s.job = none

/-- A final state (R289): a faulted state is never one (60_exceptions.md R250). -/
def isFinal (s : State) : Prop := mainFinished s ∧ s.fault.faulted = false

/-- An endless run of the machine. -/
def IsRun (r : Nat → State) : Prop := ∀ k, step (r k) = .next (r (k + 1))

/-- A turn that stays enabled from some point on is taken later. -/
def FairFor (t : Turn) (r : Nat → State) : Prop :=
  ∀ k, (∀ j, k ≤ j → enabled t (r j) = true) → ∃ j, k ≤ j ∧ (takeTurn (r j)).1 = t

/-- Weak fairness of MAIN, the two services and the converter; PINS and POWER are under none (R288; log 20). -/
def WeaklyFair (r : Nat → State) : Prop :=
  FairFor .main r ∧ FairFor .isrAdc r ∧ FairFor .isrPcint r ∧ FairFor .adc r

/-- MAIN executes command `i` `k` times. -/
def repeatExec (i : Instr) : Nat → State → Result
  | 0, s => .next s
  | k + 1, s => andThen (exec i s) (repeatExec i k)

/-- The command MAIN fetches, if it is one (30_encoding.md R90). -/
def fetched (s : State) : Option Instr :=
  match s.prog[s.mpc]? with
  | none => none
  | some w =>
    match decode w with
    | .ok i => some i
    | .error _ => none

/-- The step from `s` is a step of agent turn `t`, which is enabled. -/
def takes (t : Turn) (s : State) : Prop := (takeTurn s).1 = t ∧ enabled t (takeTurn s).2 = true

/-- The step from `s` is MAIN executing command `i`. -/
def runs (i : Instr) (s : State) : Prop := takes .main s ∧ fetched s = some i

/-! ## Invariants -/

/-- The invariant of the machine: what holds at every boundary between steps. -/
structure Inv (s : State) : Prop where
  /-- Memory is in its one canonical form. -/
  eeCanonical : memoryWf s.ee = true
  /-- Every listed byte exists (10_state.md R41). -/
  eeWithin : ∀ c ∈ s.ee, c.1 < s.cfg.eeCap
  /-- `CTX = MAIN` except inside a service step (10_state.md R23). -/
  ctxMain : s.ctx = .main
  /-- One slot per channel (R27). -/
  samplesLength : s.samples.length = s.cfg.n
  /-- "cursor is always < N" (R28). -/
  cursorBound : s.smpReady = true → s.cur < s.cfg.n
  /-- The conversion-complete interrupt is enabled only after `SMP.INIT` (70_reset_and_hazards.md R287). -/
  adcEnabled : s.adcCtrl.ie = true → s.smpReady = true
  /-- The pin-change interrupt is enabled only after `ROT.INIT` (R287). -/
  pinEnabled : s.pcie = true → s.rotReady = true
  /-- `ACC` is a signed `ROT_ACC_BITS` value (10_state.md R37). -/
  accRange : s.rotReady = true → accInRange s.cfg.rotAccBits s.acc = true
  /-- `ST_SLOT < NS` (R42). -/
  slotBound : s.stReady = true → s.stSlot < ns s
  /-- `MEMBUF` has `SIZE` bytes (R43). -/
  membufLength : s.membuf.length = s.cfg.size
  /-- A command in progress is the `EE.INIT` at `MPC` (R20), before the store is ready. -/
  jobCommand : s.job ≠ none → s.stReady = false ∧ ∃ clear, fetched s = some (.eeInit clear)
  /-- A command in progress stays in the region (20_memory.md R61) and finishes with a slot and a record. -/
  jobWithin : ∀ job, s.job = some job →
    (∀ op ∈ job.ops, eeOpAddr op < ns s * (s.cfg.size + 2)) ∧ job.slot < ns s ∧ job.record.length = s.cfg.size

/-- The sampler's pipeline (41_sampler.md R149, R150): with no completion waiting, the conversion in flight is of
`CH[CUR]` and the one armed next of `CH[CUR+1]`; with one waiting, both are of `CH[CUR+1]`; and completion `j` converted
`CH[j mod N]`. That the list of completions is empty before `SMP.INIT`, after a power loss too, is log 17's choice. -/
structure Pipeline (s : State) : Prop where
  /-- Before `SMP.INIT` nothing is converted. -/
  idle : s.smpReady = false → s.convActive = false ∧ s.doneCh = []
  /-- `CUR` counts the services: the completions less the one waiting. -/
  cursor : s.smpReady = true → s.cur = (s.doneCh.length - bitNat s.adcCtrl.iflag) % s.cfg.n
  /-- A completion waits only if there was one. -/
  pending : s.smpReady = true → s.adcCtrl.iflag = true → s.doneCh ≠ []
  /-- The conversion in flight. -/
  inFlight : s.smpReady = true → s.convCh = channel s.cfg ((s.cur + bitNat s.adcCtrl.iflag) % s.cfg.n)
  /-- The conversion armed next. -/
  armed : s.smpReady = true → s.sel.chsel = channel s.cfg ((s.cur + 1) % s.cfg.n)
  /-- Slot and channel agree (R150). -/
  done : ∀ j, (h : j < s.doneCh.length) → s.doneCh[j] = channel s.cfg (j % s.cfg.n)

/-! ## The debouncer's paths (42_rotary.md R171, R179, R180) -/

/-- The states visited from `rs` under the patterns, the table's reserved cells ending the walk. -/
def rotVisits (table : List Byte) : RotaryState → List Nat → List RotaryState
  | _, [] => []
  | rs, p :: ps =>
    match tableStep table rs p with
    | none => []
    | some (ns, _) => ns :: rotVisits table ns ps

/-- The state reached and the sum of the accumulator changes, none where a cell is reserved. -/
def rotWalk (table : List Byte) : RotaryState → List Nat → Option (RotaryState × Int)
  | rs, [] => some (rs, 0)
  | rs, p :: ps =>
    match tableStep table rs p with
    | none => none
    | some (ns, d) =>
      match rotWalk table ns ps with
      | none => none
      | some (rs', sum) => some (rs', d + sum)

/-- The states visited since the last visit to `Start`. -/
def sinceStart (visits : List RotaryState) : List RotaryState :=
  (visits.reverse.takeWhile fun rs => rs != .start).reverse

/-- The patterns from `Start` complete a full path: one of them makes a transition with the accumulator change `d`, and
the states visited since the last visit to `Start` before it hold those of `path` in order (42_rotary.md R171, R179). -/
def completesPath (table : List Byte) (path : List RotaryState) (d : Int) (ps : List Nat) : Bool :=
  (List.range ps.length).any fun k =>
    path.isSublist (sinceStart (rotVisits table .start (ps.take k))) &&
    match rotWalk table .start (ps.take k) with
    | none => false
    | some (rs, _) =>
      match tableStep table rs (ps.getD k 0) with
      | none => false
      | some (_, e) => e == d

/-- MAIN executes `ROT.STEP` of each pair of levels in order. -/
def stepLevels : List (Bool × Bool) → State → Result
  | [], s => .next s
  | (pa, pb) :: rest, s => andThen (exec (.rotStep pa pb) s) (stepLevels rest)

/-- The sum of the values `ROT.TAKE` has returned (42_rotary.md R180). -/
def takenSum (ret : List (Nat × RetValue)) : Int :=
  (ret.map fun e => match e.2 with
    | .s16 v => v.toInt
    | .u16 _ => 0
    | .u16s _ => 0
    | .bytes _ => 0
    | .powerLoss => 0).sum

/-- The accumulator change of the transition the levels `pa`, `pb` select. -/
def transitionGain (pa pb : Bool) (s : State) : Int :=
  match tableStep s.cfg.rotTable s.rs (pinPattern pa pb) with
  | none => 0
  | some (_, d) => d

/-! ## The store's micro-steps (43_store.md R207 to R209, R216, R217) -/

/-- Memory after the EEPROM operations in order. -/
def eeApplyAll (m : Memory) (ops : List EeOp) : Memory := ops.foldl eeApply m

end Sys2Proof.Safety
end

