-- ==== Sys2Proof/Certificates/Slice0/Obligations.lean ====
section
/-! DEFINITION. The statements for the provers, from the numbered rules of spec/. A rule cited as R<n> is named with its
file in OBLIGATIONS.json. -/

open Sys2Proof Sys2Proof.Machine Sys2Proof.Safety

/-! ## Encoding (30_encoding.md) -/

/-- Every command, with every operand, is the decoding of its word (R90, R91, R92). -/
def Obligations.DecodeInvertsEncode : Prop := ∀ i : Instr, decode (encode i) = .ok i

/-- A word that decodes is the word of the command it decodes to: no bit of it is dropped (R90, R92). -/
def Obligations.EncodeInvertsDecode : Prop := ∀ (w : Word) (i : Instr), decode w = .ok i → encode i = w

/-- The words of R96's table decode to the commands it lists, and the words it names illegal to none. -/
def Obligations.ExampleWordsDecode : Prop :=
  decode 0x01000000#32 = .ok .irqOff ∧ decode 0x02000000#32 = .ok .irqOn ∧ decode 0x03000000#32 = .ok .csEnter ∧
  decode 0x04000000#32 = .ok .csExit ∧ decode 0x05000000#32 = .ok .fence ∧ decode 0x06000000#32 = .ok .assertIoff ∧
  decode 0x10000000#32 = .ok .smpInit ∧ decode 0x11000002#32 = .ok (.smpGet 2#16) ∧
  decode 0x12000000#32 = .ok .smpGetall ∧ decode 0x13000000#32 = .ok .smpIsr ∧
  decode 0x20000000#32 = .ok .rotInit ∧ decode 0x21010000#32 = .ok (.rotStep true false) ∧
  decode 0x21020000#32 = .ok (.rotStep false true) ∧ decode 0x21030000#32 = .ok (.rotStep true true) ∧
  decode 0x22000000#32 = .ok .rotTake ∧ decode 0x23000000#32 = .ok .rotIsr ∧
  decode 0x30000000#32 = .ok (.eeInit false) ∧ decode 0x30010000#32 = .ok (.eeInit true) ∧
  decode 0x31330001#32 = .ok (.eePut 1#16 0x33#8) ∧
  decode 0x21040000#32 = .error .nonzeroField ∧ decode 0x30020000#32 = .error .nonzeroField ∧
  decode 0x11010000#32 = .error .nonzeroField ∧ decode 0x00000000#32 = .error .reservedOpcode

/-- A word whose `OP` is not in the map, or with a must-be-zero field non-zero, raises `ILLEGAL_COMMAND` with
`word[31:16]` when MAIN fetches it, and nothing else changes (R90, R93). -/
def Obligations.IllegalWordsFault : Prop :=
  ∀ (s : State) (w : Word), s.prog[s.mpc]? = some w →
    ((opField w).toNat ∉
        [0x01, 0x02, 0x03, 0x04, 0x05, 0x06, 0x10, 0x11, 0x12, 0x13, 0x20, 0x21, 0x22, 0x23, 0x30, 0x31] ∨
      ((opField w).toNat ∈ [0x01, 0x02, 0x03, 0x04, 0x05, 0x06, 0x10, 0x12, 0x13, 0x20, 0x22, 0x23] ∧
        (aField w ≠ 0#8 ∨ bField w ≠ 0#16)) ∨
      ((opField w).toNat = 0x11 ∧ aField w ≠ 0#8) ∨
      ((opField w).toNat = 0x21 ∧ ((aField w).extractLsb' 2 6 ≠ 0#6 ∨ bField w ≠ 0#16)) ∨
      ((opField w).toNat = 0x30 ∧ ((aField w).extractLsb' 1 7 ≠ 0#7 ∨ bField w ≠ 0#16))) →
    mainStep s = .next
      { s with
        fault := { faulted := true, code := 0x01#8, agent := ctxAgent s.ctx, mpc := s.mpc, info := w.extractLsb' 16 16 } }

/-! ## The step (00_scope.md, 60_exceptions.md) -/

/-- When the scheduler's next turn is MAIN's and the word at `MPC` decodes to a command, the step is `exec` of that
command, the turn being used up (R20, R90). -/
def Obligations.StepRunsDecodedCommand : Prop :=
  ∀ (s : State) (ts : List Turn) (w : Word) (i : Instr),
    s.fault.faulted = false → s.cfg.wellFormed s.launch = true → s.env.turns = .main :: ts → s.ctx = .main →
    s.prog[s.mpc]? = some w → decode w = .ok i →
    step s = exec i { s with env := { s.env with turns := ts } }

/-- A faulted state has no step (R250), which the model reports as the stop `quiescent` (log 10); and the configurations
R257 names have no runs. -/
def Obligations.StatesWithoutStep : Prop :=
  ∀ s : State,
    (s.fault.faulted = true → step s = .fault .quiescent) ∧
    (s.fault.faulted = false →
      (s.cfg.n < 2 ∨ ns s < 2 ∨ tableOk s.cfg.rotTable = false ∨ s.cfg.adcBits < 1 ∨ 16 < s.cfg.adcBits ∨
        ∃ c ∈ s.cfg.ch, 2 ^ s.cfg.chselBits ≤ c) →
      step s = .refused .configuration)

/-- An agent that is not enabled lets its turn pass: only the turn is used up (R255; the passing turn is the model's
choice, log 6). -/
def Obligations.HeldTurnPasses : Prop :=
  ∀ (s u : State) (t : Turn) (ts : List Turn),
    s.fault.faulted = false → s.cfg.wellFormed s.launch = true → s.env.turns = t :: ts →
    u = { s with env := { s.env with turns := ts } } → enabled t u = false → step s = .next u

/-! ## Access primitives (40_access_primitives.md) -/

/-- `IRQ.OFF` clears `I` and `IRQ.ON` sets it, after which a pending, enabled interrupt may be taken; `CS.ENTER` saves `I`
innermost and clears it; `FENCE` changes no state except `MPC`; `ASSERT.IOFF` passes with `I = 0` and raises
`ASSERT_FAILED` with `I = 1` (R120, R121, R122, R124, R125). -/
def Obligations.AccessCommandsResult : Prop :=
  ∀ s : State,
    exec .irqOff s = .next { s with i := false, mpc := s.mpc + 1 } ∧
    exec .irqOn s = .next { s with i := true, mpc := s.mpc + 1 } ∧
    (∀ t, exec .irqOn s = .next t → s.fault.faulted = false → s.ctx = .main →
      (s.adcCtrl.iflag = true → s.adcCtrl.ie = true → enabled .isrAdc t = true) ∧
      (s.pcif = true → s.pcie = true → enabled .isrPcint t = true)) ∧
    exec .csEnter s = .next { s with csStack := s.csStack ++ [s.i], i := false, mpc := s.mpc + 1 } ∧
    exec .fence s = .next { s with mpc := s.mpc + 1 } ∧
    (s.i = false → exec .assertIoff s = .next { s with mpc := s.mpc + 1 }) ∧
    (s.i = true → exec .assertIoff s = .next
      { s with fault := { faulted := true, code := 0x0A#8, agent := ctxAgent s.ctx, mpc := s.mpc, info := 0#16 } }) ∧
    decode (commandWord 0x01#8 0#8 0#16) = .ok .irqOff ∧ decode (commandWord 0x02#8 0#8 0#16) = .ok .irqOn ∧
    decode (commandWord 0x03#8 0#8 0#16) = .ok .csEnter ∧ decode (commandWord 0x05#8 0#8 0#16) = .ok .fence ∧
    decode (commandWord 0x06#8 0#8 0#16) = .ok .assertIoff

/-- `CS.EXIT` restores the innermost saved `I`, after which a pending, enabled interrupt may be taken if it was 1, and with
no open section raises `CS_UNDERFLOW` (R123). -/
def Obligations.SectionExitRestoresMask : Prop :=
  ∀ s : State,
    (∀ (open_ : List Bool) (saved : Bool), s.csStack = open_ ++ [saved] →
      exec .csExit s = .next { s with csStack := open_, i := saved, mpc := s.mpc + 1 }) ∧
    (∀ (open_ : List Bool) (t : State), s.csStack = open_ ++ [true] → exec .csExit s = .next t →
      s.fault.faulted = false → s.ctx = .main →
      (s.adcCtrl.iflag = true → s.adcCtrl.ie = true → enabled .isrAdc t = true) ∧
      (s.pcif = true → s.pcie = true → enabled .isrPcint t = true)) ∧
    (s.csStack = [] →
      exec .csExit s = .next
        { s with fault := { faulted := true, code := 0x09#8, agent := ctxAgent s.ctx, mpc := s.mpc, info := 0#16 } }) ∧
    decode (commandWord 0x04#8 0#8 0#16) = .ok .csExit

/-- Sections nest to any depth: `n` entries and then `n` exits restore `I` and the stack (R122, R123). -/
def Obligations.SectionsNestToAnyDepth : Prop :=
  ∀ (n : Nat) (s : State),
    andThen (repeatExec .csEnter n s) (repeatExec .csExit n) = .next { s with mpc := s.mpc + 2 * n }

/-- The frame of the access primitives: they write at most `I`, `CS_STACK`, `MPC` and the fault state; `I` and the stack
only as R120 to R125 list, and no byte of memory. -/
def Obligations.AccessFrame : Prop :=
  ∀ (i : Instr) (s t : State), i ∈ [.irqOff, .irqOn, .csEnter, .csExit, .fence, .assertIoff] → exec i s = .next t →
    t = { s with i := t.i, csStack := t.csStack, mpc := t.mpc, fault := t.fault } ∧
    (i ∈ [.irqOff, .irqOn, .fence, .assertIoff] → t.csStack = s.csStack) ∧
    (i ∈ [.fence, .assertIoff] → t.i = s.i) ∧
    (i ∈ [.irqOff, .irqOn, .csEnter, .fence] → t.fault = s.fault) ∧
    ∀ a, eeRead t.ee a = eeRead s.ee a

/-- A fault leaves the state as it was before the step but for the fault fields, which name the running agent and `MPC`:
every command (R250). -/
def Obligations.FaultWritesOnlyFaultState : Prop :=
  ∀ (i : Instr) (s t : State), s.fault.faulted = false → exec i s = .next t → t.fault.faulted = true →
    t = { s with fault := t.fault } ∧ t.fault.agent = ctxAgent s.ctx ∧ t.fault.mpc = s.mpc

/-- Entering the fault state writes the code's number, the agent of the running context, `MPC` and the info value, for each
of the twelve codes, and nothing else (R250, R251). -/
def Obligations.FaultCodesNumbered : Prop :=
  ∀ (s : State) (info : Half) (code : FaultCode) (number : Byte),
    (code, number) ∈
      [(.illegalCommand, 0x01#8), (.wrongContext, 0x02#8), (.notInitialized, 0x03#8), (.doubleInit, 0x04#8),
        (.indexRange, 0x05#8), (.offsetRange, 0x06#8), (.accOverflow, 0x07#8), (.adcOverrun, 0x08#8),
        (.csUnderflow, 0x09#8), (.assertFailed, 0x0A#8), (.badTableCell, 0x0B#8), (.ringBroken, 0x0C#8)] →
    raise code info s =
      { s with
        fault := { faulted := true, code := number, agent := ctxAgent s.ctx, mpc := s.mpc, info := info } }

/-! ## Sampler (41_sampler.md) -/

/-- `SMP.INIT` leaves the converter free running on `CH[0]` with `CH[1]` armed, the cursor at 0, every slot seeded in
ascending order with a value of `ADC_BITS` bits that the environment draws, `ADC_DATA` at the last of them, `PRE` and
`OTHER` kept, and touches nothing else; outside MAIN, with `I = 1` or a second time it faults, in that order (R140, R141;
the list the draws are taken from is the model's form, log 7). -/
def Obligations.SampleInitResult : Prop :=
  ∀ s : State,
    (configOk s.cfg = true → s.samples.length = s.cfg.n → s.ctx = .main → s.i = false → s.smpReady = false →
      ∃ (seeds : List Half) (data : Half) (env : Env),
        exec .smpInit s = .next
          { s with
            samples := seeds, cur := 0, smpReady := true, adcData := data, env := env, mpc := s.mpc + 1,
            adcCtrl := { en := true, start := false, free := true, iflag := false, ie := true, pre := s.adcCtrl.pre },
            sel := { other := s.sel.other, chsel := channel s.cfg 1 },
            convActive := true, convCh := channel s.cfg 0 } ∧
        seeds.length = s.cfg.n ∧ (∀ v ∈ seeds, v.toNat < 2 ^ s.cfg.adcBits) ∧ seeds.getLast? = some data ∧
        ∀ ds rest : List Nat, s.env.draws = ds ++ rest → ds.length = s.cfg.n → (∀ d ∈ ds, d < 2 ^ s.cfg.adcBits) →
          seeds = ds.map (BitVec.ofNat 16) ∧ env = { s.env with draws := rest }) ∧
    ((s.ctx ≠ .main ∨ s.i = true) → exec .smpInit s = .next (raise .wrongContext 0x10#16 s)) ∧
    (s.ctx = .main → s.i = false → s.smpReady = true → exec .smpInit s = .next (raise .doubleInit 0x10#16 s)) ∧
    decode (commandWord 0x10#8 0#8 0#16) = .ok .smpInit

/-- `SMP.GET idx` logs `S[idx]`, and `SMP.GETALL` all N values as one snapshot, under exclusion after `SMP.INIT`;
otherwise each faults, the first check that applies first (R146, R147). -/
def Obligations.SampleReadResult : Prop :=
  ∀ (s : State) (idx : Half),
    (s.i = false → s.smpReady = true → ∀ h : idx.toNat < s.samples.length, idx.toNat < s.cfg.n →
      exec (.smpGet idx) s = .next { s with ret := s.ret ++ [(s.mpc, .u16 s.samples[idx.toNat])], mpc := s.mpc + 1 }) ∧
    (s.i = false → s.smpReady = true → s.cfg.n ≤ idx.toNat → exec (.smpGet idx) s = .next (raise .indexRange idx s)) ∧
    (s.i = false → s.smpReady = true → s.samples.length = s.cfg.n →
      exec .smpGetall s = .next { s with ret := s.ret ++ [(s.mpc, .u16s s.samples)], mpc := s.mpc + 1 }) ∧
    (s.i = true → exec (.smpGet idx) s = .next (raise .wrongContext 0x11#16 s) ∧
      exec .smpGetall s = .next (raise .wrongContext 0x12#16 s)) ∧
    (s.i = false → s.smpReady = false → exec (.smpGet idx) s = .next (raise .notInitialized 0x11#16 s) ∧
      exec .smpGetall s = .next (raise .notInitialized 0x12#16 s)) ∧
    decode (commandWord 0x11#8 0#8 idx) = .ok (.smpGet idx) ∧ decode (commandWord 0x12#8 0#8 0#16) = .ok .smpGetall

/-- `SMP.ISR` stores `ADC_DATA` at the cursor, advances it modulo N and arms the channel two ahead, keeping `OTHER` and
`MPC`; outside its handler, with `I = 1` or before `SMP.INIT` it faults, in that order (R145). -/
def Obligations.SampleIsrResult : Prop :=
  ∀ s : State,
    (s.ctx = .isrAdc → s.i = false → s.smpReady = true →
      exec .smpIsr s = .next
        { s with
          samples := s.samples.set s.cur s.adcData, cur := (s.cur + 1) % s.cfg.n,
          sel := { other := s.sel.other, chsel := channel s.cfg ((s.cur + 2) % s.cfg.n) } }) ∧
    ((s.ctx ≠ .isrAdc ∨ s.i = true) → exec .smpIsr s = .next (raise .wrongContext 0x13#16 s)) ∧
    (s.ctx = .isrAdc → s.i = false → s.smpReady = false → exec .smpIsr s = .next (raise .notInitialized 0x13#16 s)) ∧
    decode (commandWord 0x13#8 0#8 0#16) = .ok .smpIsr

/-- A handler body issued by MAIN raises `WRONG_CONTEXT` with its `OP` (R145, R178). -/
def Obligations.HandlerBodiesNotForMain : Prop :=
  ∀ s : State, s.ctx = .main →
    exec .smpIsr s = .next
      { s with fault := { faulted := true, code := 0x02#8, agent := .main, mpc := s.mpc, info := 0x13#16 } } ∧
    exec .rotIsr s = .next
      { s with fault := { faulted := true, code := 0x02#8, agent := .main, mpc := s.mpc, info := 0x23#16 } }

/-- The frame of the sampler's commands, faults included: `SMP.GET` and `SMP.GETALL` write only `RET`; `SMP.ISR` only
`S`, `CUR` and `SEL.CHSEL`; `SMP.INIT` the sampler's state; none a byte of memory. -/
def Obligations.SamplerFrame : Prop :=
  ∀ (i : Instr) (s t : State), exec i s = .next t →
    ((i = .smpGetall ∨ ∃ idx, i = .smpGet idx) →
      t = { s with ret := t.ret, mpc := t.mpc, fault := t.fault } ∧ ∀ a, eeRead t.ee a = eeRead s.ee a) ∧
    (i = .smpIsr →
      t = { s with samples := t.samples, cur := t.cur, sel := t.sel, fault := t.fault } ∧
      t.sel.other = s.sel.other ∧ ∀ a, eeRead t.ee a = eeRead s.ee a) ∧
    (i = .smpInit →
      t = { s with
            samples := t.samples, cur := t.cur, smpReady := t.smpReady, adcCtrl := t.adcCtrl, sel := t.sel,
            convActive := t.convActive, convCh := t.convCh, adcData := t.adcData, env := t.env, mpc := t.mpc,
            fault := t.fault } ∧
      t.sel.other = s.sel.other ∧ t.adcCtrl.pre = s.adcCtrl.pre ∧ ∀ a, eeRead t.ee a = eeRead s.ee a)

/-- A completion, which can happen only in a running converter: the result drawn lands in `ADC_DATA`, the flag is set, and
the next conversion latches the armed channel at once; while the previous one is unserviced it waits under `hold` and
faults under `fault` (R144; the list the draw is taken from is the model's form, log 7). -/
def Obligations.ConversionCompletes : Prop :=
  ∀ s : State,
    (enabled .adc s = true →
      s.fault.faulted = false ∧ s.adcCtrl.en = true ∧ s.adcCtrl.free = true ∧ s.convActive = true) ∧
    (s.fault.faulted = false → s.adcCtrl.en = true → s.adcCtrl.free = true → s.convActive = true →
      (s.adcCtrl.iflag = false →
        ∃ (r : Nat) (env : Env), r < 2 ^ s.cfg.adcBits ∧
          (∀ d rest, s.env.draws = d :: rest → r = d % 2 ^ s.cfg.adcBits ∧ env = { s.env with draws := rest }) ∧
          runTurn .adc s = .next
            { s with
              adcData := BitVec.ofNat 16 r, doneCh := s.doneCh ++ [s.convCh], convCh := s.sel.chsel, env := env,
              adcCtrl := { s.adcCtrl with iflag := true } }) ∧
      (s.adcCtrl.iflag = true → s.cfg.adcOverrun = .hold → enabled .adc s = false) ∧
      (s.adcCtrl.iflag = true → s.cfg.adcOverrun = .fault → runTurn .adc s = .next
        { s with
          fault := { faulted := true, code := 0x08#8, agent := .adc, mpc := s.mpc, info := s.convCh.setWidth 16 } }))

/-- Every step keeps the pipeline of the sampler: slot and channel agree, two ahead (R149, R150). `DONE_CH` counts from
`SMP.INIT`: that it is empty before it, after a power loss too (`Pipeline.idle`, and `Pipeline.done` across power losses),
is the model's choice (log 17). -/
def Obligations.StepKeepsPipeline : Prop :=
  ∀ s t : State, Inv s → Pipeline s → step s = .next t → Pipeline t

/-- Only `SMP.INIT`, the conversion-complete service and a power loss ever change the sample cache (R27). -/
def Obligations.SamplesChangeOnlyBy : Prop :=
  ∀ s t : State, step s = .next t → t.samples ≠ s.samples →
    runs .smpInit s ∨ takes .isrAdc s ∨ takes .power s ∨ takes .powerTorn s

/-! ## Debouncer (42_rotary.md) -/

/-- `ROT.INIT` starts the debouncer in `Start` with `ACC = 0` and enables its interrupt, keeping `PCIF`; outside MAIN or a
second time it faults (R173). -/
def Obligations.RotaryInitResult : Prop :=
  ∀ s : State,
    (s.ctx = .main → s.rotReady = false →
      exec .rotInit s = .next { s with rs := .start, acc := 0, rotReady := true, pcie := true, mpc := s.mpc + 1 }) ∧
    (s.ctx ≠ .main → exec .rotInit s = .next (raise .wrongContext 0x20#16 s)) ∧
    (s.ctx = .main → s.rotReady = true → exec .rotInit s = .next (raise .doubleInit 0x20#16 s)) ∧
    decode (commandWord 0x20#8 0#8 0#16) = .ok .rotInit

/-- `ROT.STEP`: where the table's cell is a state and a trigger and `AccAdd` gives a sum, the state becomes the cell's, `ACC`
the sum for a trigger and itself for none, and nothing else changes but `MPC`; its faults come in the order written, each
leaving `RS` and `ACC` as they were (R174; `AccAdd` is `AccumulatorAdd`'s). -/
def Obligations.RotaryStepResult : Prop :=
  ∀ (s : State) (pa pb : Bool),
    (∀ (ns : RotaryState) (d acc : Int), s.i = false → s.rotReady = true →
      tableStep s.cfg.rotTable s.rs (pinPattern pa pb) = some (ns, d) →
      (d = 0 ∧ acc = s.acc ∨ d ≠ 0 ∧ accAdd s.cfg s.acc d = some acc) →
      exec (.rotStep pa pb) s = .next { s with rs := ns, acc := acc, mpc := s.mpc + 1 }) ∧
    (s.i = true → exec (.rotStep pa pb) s = .next (raise .wrongContext 0x21#16 s)) ∧
    (s.i = false → s.rotReady = false → exec (.rotStep pa pb) s = .next (raise .notInitialized 0x21#16 s)) ∧
    (s.i = false → s.rotReady = true → tableStep s.cfg.rotTable s.rs (pinPattern pa pb) = none →
      exec (.rotStep pa pb) s =
        .next (raise .badTableCell (BitVec.ofNat 16 (4 * rotaryCode s.rs + pinPattern pa pb)) s)) ∧
    (∀ (ns : RotaryState) (d : Int), s.i = false → s.rotReady = true → s.cfg.rotOvf = .fault →
      tableStep s.cfg.rotTable s.rs (pinPattern pa pb) = some (ns, d) → d ≠ 0 →
      accInRange s.cfg.rotAccBits (s.acc + d) = false →
      exec (.rotStep pa pb) s = .next (raise .accOverflow (BitVec.ofInt 16 s.acc) s)) ∧
    decode (commandWord 0x21#8 (0#6 ++ BitVec.ofBool pb ++ BitVec.ofBool pa) 0#16) = .ok (.rotStep pa pb)

/-- `ROT.ISR` in its handler performs `ROT.STEP` of the present levels, with its checks and faults, and leaves `MPC`;
elsewhere it faults (R178; that the transition's faults carry `ROT.STEP`'s info is the model's reading, log 12). -/
def Obligations.RotaryIsrResult : Prop :=
  ∀ s : State,
    (s.ctx = .isrPcint → ∃ t, exec (.rotStep s.pinA s.pinB) s = .next t ∧ exec .rotIsr s = .next { t with mpc := s.mpc }) ∧
    (∀ (ns : RotaryState) (d acc : Int), s.ctx = .isrPcint → s.i = false → s.rotReady = true →
      tableStep s.cfg.rotTable s.rs (pinPattern s.pinA s.pinB) = some (ns, d) →
      (d = 0 ∧ acc = s.acc ∨ d ≠ 0 ∧ accAdd s.cfg s.acc d = some acc) →
      exec .rotIsr s = .next { s with rs := ns, acc := acc }) ∧
    (s.ctx ≠ .isrPcint → exec .rotIsr s = .next (raise .wrongContext 0x23#16 s)) ∧
    decode (commandWord 0x23#8 0#8 0#16) = .ok .rotIsr

/-- `AccAdd` (R176): with `t = acc + d` in `-2^(ROT_ACC_BITS-1)` to `2^(ROT_ACC_BITS-1) - 1` the sum; outside it none
under `fault`, and under `wrap` the value in those bounds equal to the sum modulo `2^ROT_ACC_BITS`. `accInRange` is these
bounds. -/
def Obligations.AccumulatorAdd : Prop :=
  ∀ (cfg : Config) (acc d lo hi : Int), 1 ≤ cfg.rotAccBits →
    lo = -(2 ^ (cfg.rotAccBits - 1)) → hi = 2 ^ (cfg.rotAccBits - 1) - 1 →
    (lo ≤ acc + d → acc + d ≤ hi → accAdd cfg acc d = some (acc + d)) ∧
    (acc + d < lo ∨ hi < acc + d →
      (cfg.rotOvf = .fault → accAdd cfg acc d = none) ∧
      (cfg.rotOvf = .wrap →
        ∃ r, accAdd cfg acc d = some r ∧ lo ≤ r ∧ r ≤ hi ∧ (r - (acc + d)) % (2 ^ cfg.rotAccBits : Int) = 0)) ∧
    (accInRange cfg.rotAccBits acc = true ↔ lo ≤ acc ∧ acc ≤ hi)

/-- `ROT.TAKE` (R175): zero returns 0; without the torn read `ACC` is returned whole and zeroed; with it 0 is returned
and `ACC` kept; `I` keeps its value. The draw's 1 as a torn read is the model's form (log 7). -/
def Obligations.RotaryTakeResult : Prop :=
  ∀ s : State,
    (s.ctx = .main → s.rotReady = true → s.acc = 0 →
      exec .rotTake s = .next { s with ret := s.ret ++ [(s.mpc, .s16 0#16)], mpc := s.mpc + 1 }) ∧
    (s.ctx = .main → s.rotReady = true → s.acc ≠ 0 → (s.i = false ∨ s.cfg.rotAccBits ≤ 8) →
      exec .rotTake s = .next
        { s with acc := 0, ret := s.ret ++ [(s.mpc, .s16 (BitVec.ofInt 16 s.acc))], mpc := s.mpc + 1 }) ∧
    (s.ctx = .main → s.rotReady = true → s.acc ≠ 0 → s.i = true → 8 < s.cfg.rotAccBits →
      ∃ env : Env,
        ((draw 2 s).1 = 1 → exec .rotTake s = .next
          { s with env := env, ret := s.ret ++ [(s.mpc, .s16 0#16)], mpc := s.mpc + 1 }) ∧
        ((draw 2 s).1 = 0 → exec .rotTake s = .next
          { s with
            env := env, acc := 0, ret := s.ret ++ [(s.mpc, .s16 (BitVec.ofInt 16 s.acc))], mpc := s.mpc + 1 })) ∧
    (s.ctx ≠ .main → exec .rotTake s = .next (raise .wrongContext 0x22#16 s)) ∧
    (s.ctx = .main → s.rotReady = false → exec .rotTake s = .next (raise .notInitialized 0x22#16 s)) ∧
    decode (commandWord 0x22#8 0#8 0#16) = .ok .rotTake

/-- The frame of the debouncer's commands, faults included: no byte of memory, no sampler or store state. -/
def Obligations.RotaryFrame : Prop :=
  ∀ (i : Instr) (s t : State), exec i s = .next t →
    ((∃ pa pb, i = .rotStep pa pb) → t = { s with rs := t.rs, acc := t.acc, mpc := t.mpc, fault := t.fault } ∧
      ∀ a, eeRead t.ee a = eeRead s.ee a) ∧
    (i = .rotIsr → t = { s with rs := t.rs, acc := t.acc, fault := t.fault } ∧ ∀ a, eeRead t.ee a = eeRead s.ee a) ∧
    (i = .rotTake → t = { s with acc := t.acc, ret := t.ret, env := t.env, mpc := t.mpc, fault := t.fault } ∧
      ∀ a, eeRead t.ee a = eeRead s.ee a) ∧
    (i = .rotInit →
      t = { s with rs := t.rs, acc := t.acc, rotReady := t.rotReady, pcie := t.pcie, mpc := t.mpc, fault := t.fault } ∧
      ∀ a, eeRead t.ee a = eeRead s.ee a)

/-- In every accepted table, a trigger comes only after the three states of its direction were visited in order since
the last visit to `Start`, whatever the patterns (R171). -/
def Obligations.TriggerNeedsFullPath : Prop :=
  ∀ (table : List Byte) (ps : List Nat) (p : Nat) (rs ns : RotaryState) (sum : Int), tableOk table = true →
    (∀ q ∈ ps, q < 4) → p < 4 → rotWalk table .start ps = some (rs, sum) →
    (tableStep table rs p = some (ns, 1) →
      [.cwBegin, .cwNext, .cwFinal].Sublist (sinceStart (rotVisits table .start ps))) ∧
    (tableStep table rs p = some (ns, -1) →
      [.ccwBegin, .ccwNext, .ccwFinal].Sublist (sinceStart (rotVisits table .start ps)))

/-- Bounce rejection (R179): with every accepted table, levels stepped from `Start` whose patterns complete no full path
leave `ACC` unchanged, whatever they visit on the way; and with the default table the five sequences of R179 give the sums
it lists. -/
def Obligations.BounceLeavesAccumulator : Prop :=
  (∀ (s : State) (levels : List (Bool × Bool)) (ps : List Nat),
    tableOk s.cfg.rotTable = true → s.i = false → s.rotReady = true → s.rs = .start →
    ps = levels.map (fun l => pinPattern l.1 l.2) →
    completesPath s.cfg.rotTable [.cwBegin, .cwNext, .cwFinal] 1 ps = false →
    completesPath s.cfg.rotTable [.ccwBegin, .ccwNext, .ccwFinal] (-1) ps = false →
    ∃ rs, stepLevels levels s = .next { s with rs := rs, mpc := s.mpc + levels.length }) ∧
  rotVisits defaultTable .start [1, 3] = [.cwBegin, .start] ∧
  ∀ (s : State) (levels : List (Bool × Bool)) (ps : List Nat) (sum : Int),
    s.cfg.rotTable = defaultTable → s.cfg.rotAccBits = 16 → s.i = false → s.rotReady = true → s.rs = .start →
    s.acc = 0 → ps = levels.map (fun l => pinPattern l.1 l.2) →
    (ps, sum) ∈
      [([1, 3], 0), ([1, 0, 2, 3], 1), ([2, 0, 1, 3], -1), ([1, 0, 1, 0, 2, 3], 1), ([1, 0, 2, 0, 1, 3], 0)] →
    stepLevels levels s = .next { s with acc := sum, mpc := s.mpc + levels.length }

/-- In every accepted table, patterns exist that count +1 along the clockwise path and -1 along the mirrored one (R171). -/
def Obligations.FullPathsCount : Prop :=
  ∀ table : List Byte, tableOk table = true →
    (∃ a b c d : Nat, a < 4 ∧ b < 4 ∧ c < 4 ∧ d < 4 ∧
      rotVisits table .start [a, b, c, d] = [.cwBegin, .cwNext, .cwFinal, .start] ∧
      rotWalk table .start [a, b, c, d] = some (.start, 1)) ∧
    (∃ a b c d : Nat, a < 4 ∧ b < 4 ∧ c < 4 ∧ d < 4 ∧
      rotVisits table .start [a, b, c, d] = [.ccwBegin, .ccwNext, .ccwFinal, .start] ∧
      rotWalk table .start [a, b, c, d] = some (.start, -1))

/-- No detent is lost or counted twice: in every step, by whichever agent, the accumulator and what `ROT.TAKE` has
returned change together by the change of the transition the step makes, if any (R180, assuming no overflow). -/
def Obligations.RotationConserved : Prop :=
  ∀ s t : State, Inv s → s.cfg.rotOvf = .fault → step s = .next t → s.rotReady = true → t.rotReady = true →
    t.fault.faulted = false →
    (∀ pa pb, runs (.rotStep pa pb) s → t.acc + takenSum t.ret = s.acc + takenSum s.ret + transitionGain pa pb s) ∧
    (takes .isrPcint s → t.acc + takenSum t.ret = s.acc + takenSum s.ret + transitionGain s.pinA s.pinB s) ∧
    ((∀ pa pb, ¬ runs (.rotStep pa pb) s) → ¬ takes .isrPcint s →
      t.acc + takenSum t.ret = s.acc + takenSum s.ret)

/-! ## Store (43_store.md) -/

/-- `EE.PUT` writes the one byte it addresses and nothing else but `MPC`; outside MAIN, before `EE.INIT` or past the
payload it faults, in that order (R215). -/
def Obligations.PutByteResult : Prop :=
  ∀ (s : State) (offset : Half) (value : Byte),
    (memoryWf s.ee = true → s.ctx = .main → s.stReady = true → offset.toNat < s.cfg.size → s.stSlot < ns s →
      ∃ ee : Memory, exec (.eePut offset value) s = .next { s with ee := ee, mpc := s.mpc + 1 } ∧
        eeRead ee (putAddr s offset) = value ∧ ∀ a, a ≠ putAddr s offset → eeRead ee a = eeRead s.ee a) ∧
    (s.ctx ≠ .main → exec (.eePut offset value) s = .next (raise .wrongContext 0x31#16 s)) ∧
    (s.ctx = .main → s.stReady = false → exec (.eePut offset value) s = .next (raise .notInitialized 0x31#16 s)) ∧
    (s.ctx = .main → s.stReady = true → s.cfg.size ≤ offset.toNat →
      exec (.eePut offset value) s = .next (raise .offsetRange offset s)) ∧
    putAddr s offset = s.stSlot * (s.cfg.size + 2) + 2 + offset.toNat ∧
    decode (commandWord 0x31#8 value offset) = .ok (.eePut offset value)

/-- `EE.INIT`'s checks, in the order written (R212). -/
def Obligations.StoreInitGuards : Prop :=
  ∀ (s : State) (clear : Bool), s.job = none →
    (s.ctx ≠ .main → exec (.eeInit clear) s = .next (raise .wrongContext 0x30#16 s)) ∧
    (s.ctx = .main → s.stReady = true → exec (.eeInit clear) s = .next (raise .doubleInit 0x30#16 s)) ∧
    decode (commandWord 0x30#8 (0#7 ++ BitVec.ofBool clear) 0#16) = .ok (.eeInit clear)

/-- The search on a ring that keeps its invariant: none exactly when every slot is blank, else the one descent, a
non-blank slot of the greatest key, the last of its tied run; on a broken ring, a fault under `SEARCH_BROKEN = fault`, and
under `draw` `None` or any non-blank slot (R204, R205; the list the draw is taken from is the model's form, log 7). -/
def Obligations.SearchFindsGreatest : Prop :=
  ∀ s : State,
    (ringOk s.cfg s.ee = true →
      (findNewest s = some (none, s) ∧ ∀ k, k < ns s → slotBlank s.cfg s.ee k = true) ∨
      ∃ j, findNewest s = some (some j, s) ∧ j < ns s ∧ slotBlank s.cfg s.ee j = false ∧
        slotKey s.cfg s.ee ((j + 1) % ns s) < slotKey s.cfg s.ee j ∧
        ∀ k, k < ns s → slotKey s.cfg s.ee k ≤ slotKey s.cfg s.ee j ∧
          (slotKey s.cfg s.ee ((k + 1) % ns s) < slotKey s.cfg s.ee k → k = j)) ∧
    (ringOk s.cfg s.ee = false → s.cfg.searchBroken = .fault → s.job = none → s.ctx = .main → s.stReady = false →
      exec (.eeInit false) s = .next (raise .ringBroken 0#16 s)) ∧
    (ringOk s.cfg s.ee = false → s.cfg.searchBroken = .draw →
      (∃ (r : Option Nat) (t : State), findNewest s = some (r, t) ∧ t = { s with env := t.env } ∧
        ∀ j, r = some j → j < ns s ∧ slotBlank s.cfg s.ee j = false) ∧
      ∀ r : Option Nat, (∀ j, r = some j → j < ns s ∧ slotBlank s.cfg s.ee j = false) →
        ∃ d, ∀ rest,
          findNewest { s with env := { s.env with draws := d :: rest } } =
            some (r, { s with env := { s.env with draws := rest } }))

/-- The states `WriteSlot` passes through: before its first operation the slot is as it was, before its last it is blank,
with the payload bytes written in ascending order so far and then the tag's low byte, and after it the slot holds the tag
and the record; no byte outside the slot ever changes (R207, R209). -/
def Obligations.WriteSlotCrashStates : Prop :=
  ∀ (cfg : Config) (m : Memory) (slot : Nat) (ver : Half) (record : List Byte) (k : Nat),
    memoryWf m = true → record.length = cfg.size →
    (writeSlotOps cfg slot ver record).length = cfg.size + 3 ∧
    eeApplyAll m ((writeSlotOps cfg slot ver record).take 0) = m ∧
    (∀ a, (a < slotAddr cfg slot ∨ slotAddr cfg slot + cfg.size + 2 ≤ a) →
      eeRead (eeApplyAll m ((writeSlotOps cfg slot ver record).take k)) a = eeRead m a) ∧
    (1 ≤ k → k ≤ cfg.size + 2 →
      slotBlank cfg (eeApplyAll m ((writeSlotOps cfg slot ver record).take k)) slot = true ∧
      (∀ j, (h : j < record.length) →
        eeRead (eeApplyAll m ((writeSlotOps cfg slot ver record).take k)) (slotAddr cfg slot + 2 + j) =
          if j + 2 ≤ k then record[j] else eeRead m (slotAddr cfg slot + 2 + j)) ∧
      eeRead (eeApplyAll m ((writeSlotOps cfg slot ver record).take k)) (slotAddr cfg slot) =
        if k = cfg.size + 2 then lowByte ver else eeRead m (slotAddr cfg slot)) ∧
    (cfg.size + 3 ≤ k →
      slotTag cfg (eeApplyAll m ((writeSlotOps cfg slot ver record).take k)) slot = ver ∧
      slotPayload cfg (eeApplyAll m ((writeSlotOps cfg slot ver record).take k)) slot = record)

/-- `ClearStore` erases every byte of the region, from whichever slot it starts, and no byte outside it (R208). -/
def Obligations.ClearStoreErasesRegion : Prop :=
  ∀ (cfg : Config) (m : Memory) (first : Nat), memoryWf m = true → first < slotCount cfg →
    (∀ a, a < slotCount cfg * (cfg.size + 2) → eeRead (eeApplyAll m (clearStoreOps cfg first)) a = 0xFF#8) ∧
    (∀ a, slotCount cfg * (cfg.size + 2) ≤ a → eeRead (eeApplyAll m (clearStoreOps cfg first)) a = eeRead m a)

/-- `EE.INIT` runs to its end, wherever the search does not fault: one micro-step for each operation of its plan and one
for `Finish`, which writes only RAM, logs the record and advances `MPC` (R212). -/
def Obligations.StoreInitRunsToFinish : Prop :=
  ∀ (s : State) (clear : Bool), configOk s.cfg = true → s.job = none → s.ctx = .main → s.stReady = false →
    (clear = true ∨ ringOk s.cfg s.ee = true ∨ s.cfg.searchBroken = .draw) →
    ∃ (job : EeJob) (env : Env), eeInitPlan clear s = some (job, { s with env := env }) ∧
      (∀ op ∈ job.ops, eeOpAddr op < ns s * (s.cfg.size + 2)) ∧
      repeatExec (.eeInit clear) (job.ops.length + 1) s = .next
        { s with
          env := env, ee := eeApplyAll s.ee job.ops, membuf := job.record, stSlot := job.slot, stVer := job.ver,
          stReady := true, ret := s.ret ++ [(s.mpc, .bytes job.record)], mpc := s.mpc + 1 }

/-- One micro-step of `EE.INIT` in progress: one EEPROM operation, `MPC` held (R20, R212, R74). -/
def Obligations.StoreInitMicroStep : Prop :=
  ∀ (s : State) (clear : Bool) (job : EeJob) (op : EeOp) (rest : List EeOp), memoryWf s.ee = true →
    s.job = some job → job.ops = op :: rest → eeOpAddr op < s.cfg.eeCap →
    ∃ ee : Memory, exec (.eeInit clear) s = .next { s with ee := ee, job := some { job with ops := rest } } ∧
      eeRead ee (eeOpAddr op) = eeOpValue op ∧ ∀ a, a ≠ eeOpAddr op → eeRead ee a = eeRead s.ee a

/-- What `EE.INIT` leaves when it starts from blank storage, with `clear = 1`, or finds a record the validator rejects:
the caller's default in slot 0 with version 0, every other slot blank, and the default returned (R211, R212). -/
def Obligations.StoreInitSeedsDefault : Prop :=
  ∀ (s : State) (clear : Bool), memoryWf s.ee = true → configOk s.cfg = true → s.membuf.length = s.cfg.size →
    (clear = true ∨ allBlank s.cfg s.ee = true ∨
      ∃ n, searchRing s.cfg s.ee = .slot n ∧ accepts s.cfg (slotPayload s.cfg s.ee n) = false) →
    ∃ job, eeInitPlan clear s = some (job, s) ∧ job.slot = 0 ∧ job.ver = 0#16 ∧ job.record = s.membuf ∧
      slotTag s.cfg (eeApplyAll s.ee job.ops) 0 = 0#16 ∧
      slotPayload s.cfg (eeApplyAll s.ee job.ops) 0 = s.membuf ∧
      ∀ k, 0 < k → k < ns s → slotBlank s.cfg (eeApplyAll s.ee job.ops) k = true

/-- What `EE.INIT` leaves when it finds a record that the validator accepts: the payload in the next slot of the ring
with the next version, or in slot 0 with version 0 after a version overflow, and that payload returned (R210, R212, R214). -/
def Obligations.StoreInitAdvances : Prop :=
  ∀ (s : State) (n : Nat), memoryWf s.ee = true → configOk s.cfg = true → searchRing s.cfg s.ee = .slot n →
    accepts s.cfg (slotPayload s.cfg s.ee n) = true →
    ∃ job, eeInitPlan false s = some (job, s) ∧ job.record = slotPayload s.cfg s.ee n ∧
      slotTag s.cfg (eeApplyAll s.ee job.ops) job.slot = job.ver ∧
      slotPayload s.cfg (eeApplyAll s.ee job.ops) job.slot = slotPayload s.cfg s.ee n ∧
      (slotTag s.cfg s.ee n ≠ 0xFEFF#16 → job.slot = (n + 1) % ns s ∧ job.ver = slotTag s.cfg s.ee n + 1#16 ∧
        ∀ k, k < ns s → k ≠ job.slot → slotTag s.cfg (eeApplyAll s.ee job.ops) k = slotTag s.cfg s.ee k) ∧
      (slotTag s.cfg s.ee n = 0xFEFF#16 → job.slot = 0 ∧ job.ver = 0#16 ∧
        ∀ k, 0 < k → k < ns s → slotBlank s.cfg (eeApplyAll s.ee job.ops) k = true)

/-- Crash recovery: after any number of the operations of the advance of an accepted record that does not overflow (what a
power loss there leaves in the store), the search finds the old slot until the last operation and the new one, of the
next version, after it, each with the old payload, and the ring stays in order (R216). -/
def Obligations.AdvanceSurvivesPowerLoss : Prop :=
  ∀ (s : State) (n k : Nat) (job : EeJob), memoryWf s.ee = true → configOk s.cfg = true →
    searchRing s.cfg s.ee = .slot n → slotTag s.cfg s.ee n ≠ 0xFEFF#16 →
    accepts s.cfg (slotPayload s.cfg s.ee n) = true → eeInitPlan false s = some (job, s) →
    ringOk s.cfg (eeApplyAll s.ee (job.ops.take k)) = true ∧
    job.ops.length = s.cfg.size + 3 ∧
    (1 ≤ k → k < job.ops.length → slotBlank s.cfg (eeApplyAll s.ee (job.ops.take k)) ((n + 1) % ns s) = true) ∧
    (k < job.ops.length → searchRing s.cfg (eeApplyAll s.ee (job.ops.take k)) = .slot n ∧
      slotPayload s.cfg (eeApplyAll s.ee (job.ops.take k)) n = slotPayload s.cfg s.ee n) ∧
    (job.ops.length ≤ k → searchRing s.cfg (eeApplyAll s.ee (job.ops.take k)) = .slot ((n + 1) % ns s) ∧
      slotTag s.cfg (eeApplyAll s.ee (job.ops.take k)) ((n + 1) % ns s) = slotTag s.cfg s.ee n + 1#16 ∧
      slotPayload s.cfg (eeApplyAll s.ee (job.ops.take k)) ((n + 1) % ns s) = slotPayload s.cfg s.ee n)

/-- `RING_OK` holds at every micro-step boundary of an `EE.INIT` that starts from it with `clear = 0`, overflow and
rejection included (R217). -/
def Obligations.InitKeepsRing : Prop :=
  ∀ (s t : State) (k : Nat) (job : EeJob), memoryWf s.ee = true → configOk s.cfg = true → ringOk s.cfg s.ee = true →
    eeInitPlan false s = some (job, t) → ringOk s.cfg (eeApplyAll s.ee (job.ops.take k)) = true

/-- The frame of the store's commands: `EE.PUT` stores at `putAddr` and writes no RAM; a micro-step of `EE.INIT` stores at
most at the address of the operation due, and writes no sampler, debouncer or interrupt state (R212, R215). -/
def Obligations.StoreFrame : Prop :=
  ∀ (i : Instr) (s t : State), exec i s = .next t →
    (∀ offset value, i = .eePut offset value →
      t = { s with ee := t.ee, mpc := t.mpc, fault := t.fault } ∧
      ∀ a, a ≠ putAddr s offset → eeRead t.ee a = eeRead s.ee a) ∧
    (∀ clear, i = .eeInit clear →
      t = { s with
            ee := t.ee, membuf := t.membuf, stSlot := t.stSlot, stVer := t.stVer, stReady := t.stReady, job := t.job,
            ret := t.ret, env := t.env, mpc := t.mpc, fault := t.fault } ∧
      (∀ op u, pendingInit clear s = some (op, u) → ∀ a, a ≠ eeOpAddr op → eeRead t.ee a = eeRead s.ee a) ∧
      (pendingInit clear s = none → ∀ a, eeRead t.ee a = eeRead s.ee a))

/-- The EEPROM changes only by MAIN's `EE.INIT` or `EE.PUT`, or by a power loss tearing a byte write (R41). -/
def Obligations.StoreChangesOnlyBy : Prop :=
  ∀ s t : State, step s = .next t → t.ee ≠ s.ee →
    (∃ clear, runs (.eeInit clear) s) ∨ (∃ offset value, runs (.eePut offset value) s) ∨ takes .powerTorn s

/-- Bytes past the region `[0, NS*(SIZE+2))` are never written, by any step of any agent (R61). -/
def Obligations.StoreTailUntouched : Prop :=
  ∀ s t : State, Inv s → step s = .next t → ∀ a, ns s * (s.cfg.size + 2) ≤ a → eeRead t.ee a = eeRead s.ee a

/-! ## Interrupts, pins, power, reset (60_exceptions.md, 70_reset_and_hazards.md) -/

/-- A service step is enabled exactly under R260's conditions. -/
def Obligations.ServiceEnabledWhen : Prop :=
  ∀ s : State,
    (enabled .isrAdc s = true ↔
      s.fault.faulted = false ∧ s.ctx = .main ∧ s.i = true ∧ s.adcCtrl.iflag = true ∧ s.adcCtrl.ie = true) ∧
    (enabled .isrPcint s = true ↔
      s.fault.faulted = false ∧ s.ctx = .main ∧ s.i = true ∧ s.pcif = true ∧ s.pcie = true)

/-- The conversion-complete service: entry, `SMP.ISR` and return as one step; `MPC`, `CS_STACK` and a command in
progress are untouched (R261, R262). -/
def Obligations.AdcServiceStep : Prop :=
  ∀ s : State, enabled .isrAdc s = true → s.smpReady = true →
    runTurn .isrAdc s = .next
      { s with
        adcCtrl := { s.adcCtrl with iflag := false }, samples := s.samples.set s.cur s.adcData,
        cur := (s.cur + 1) % s.cfg.n,
        sel := { other := s.sel.other, chsel := channel s.cfg ((s.cur + 2) % s.cfg.n) }, i := true, ctx := .main }

/-- The pin-change service, where `AccAdd` gives a sum, and where it does not: then the step ends in the fault with nothing
else written, the pending flag included (R250, R261; the reading of the two is log 11). -/
def Obligations.PinServiceStep : Prop :=
  ∀ (s : State) (ns : RotaryState) (d : Int), enabled .isrPcint s = true → s.rotReady = true →
    tableStep s.cfg.rotTable s.rs (pinPattern s.pinA s.pinB) = some (ns, d) →
    (∀ acc, (d = 0 ∧ acc = s.acc ∨ d ≠ 0 ∧ accAdd s.cfg s.acc d = some acc) →
      runTurn .isrPcint s = .next { s with pcif := false, rs := ns, acc := acc, i := true, ctx := .main }) ∧
    (d ≠ 0 → accInRange s.cfg.rotAccBits (s.acc + d) = false → s.cfg.rotOvf = .fault →
      runTurn .isrPcint s = .next
        { s with
          fault :=
            { faulted := true, code := 0x07#8, agent := .isrPcint, mpc := s.mpc, info := BitVec.ofInt 16 s.acc } })

/-- Exclusion: while `I = 0`, no step of an agent but MAIN and the power changes the handlers' data or the mask, so the
commands inside a section see it at one instant (R128, R147). -/
def Obligations.ExclusionKeepsHandlerData : Prop :=
  ∀ s t : State, s.i = false → step s = .next t → ¬ takes .main s → ¬ takes .power s → ¬ takes .powerTorn s →
    t.i = false ∧ t.samples = s.samples ∧ t.cur = s.cur ∧ t.sel = s.sel ∧ t.rs = s.rs ∧ t.acc = s.acc ∧
    t.mpc = s.mpc ∧ t.csStack = s.csStack

/-- The two services write disjoint state, so with both pending either order reaches the same state (R264, R297). -/
def Obligations.ServicesCommute : Prop :=
  ∀ s t u : State, enabled .isrAdc s = true → enabled .isrPcint s = true → s.smpReady = true →
    andThen (runTurn .isrAdc s) (runTurn .isrPcint) = .next t → t.fault.faulted = false →
    andThen (runTurn .isrPcint s) (runTurn .isrAdc) = .next u → u.fault.faulted = false → t = u

/-- A pin change takes a pair other than the present one and sets `PCIF`, whatever `PCIE` holds; and each of the three
other pairs can be drawn (R177; the list the draw is taken from is the model's form, log 7, log 28). -/
def Obligations.PinChange : Prop :=
  ∀ s : State, s.fault.faulted = false →
    (∃ (a b : Bool) (env : Env), (a ≠ s.pinA ∨ b ≠ s.pinB) ∧
      runTurn .pins s = .next { s with pinA := a, pinB := b, pcif := true, env := env }) ∧
    ∀ a b : Bool, (a ≠ s.pinA ∨ b ≠ s.pinB) →
      ∃ d, ∀ rest,
        runTurn .pins { s with env := { s.env with draws := d :: rest } } =
          .next { s with pinA := a, pinB := b, pcif := true, env := { s.env with draws := rest } }

/-- A power loss resets every volatile element the spec gives a value and keeps `EE`, the pins, the fault state and
`RET`, to which it appends the marker (R46, R283). -/
def Obligations.PowerLossResets : Prop :=
  ∀ s : State, s.fault.faulted = false →
    ∃ t, runTurn .power s = .next t ∧
      t.ret = s.ret ++ [(s.mpc, .powerLoss)] ∧ t.ee = s.ee ∧ t.pinA = s.pinA ∧ t.pinB = s.pinB ∧ t.fault = s.fault ∧
      t.mpc = 0 ∧ t.i = false ∧ t.ctx = .main ∧ t.csStack = [] ∧ t.job = none ∧
      t.smpReady = false ∧ t.rotReady = false ∧ t.stReady = false ∧
      t.adcCtrl = { en := false, start := false, free := false, iflag := false, ie := false, pre := s.launch.pre0 } ∧
      t.sel = { other := s.launch.selOther0, chsel := 0#4 } ∧ t.convActive = false ∧
      t.pcie = false ∧ t.pcif = false ∧ t.membuf = s.launch.membuf0 ∧
      t.cfg = s.cfg ∧ t.launch = s.launch ∧ t.prog = s.prog

/-- Under `EE_BYTE_ATOMIC = false`, and when MAIN's next micro-step writes or erases a byte, a power loss may leave any
value in that byte, and is otherwise a power loss; under `true` there is no such step (R284; the list the draw is
taken from is the model's form, log 7). -/
def Obligations.TornByteWrite : Prop :=
  ∀ s : State,
    (enabled .powerTorn s = true ↔
      s.fault.faulted = false ∧ s.cfg.eeByteAtomic = false ∧ s.ctx = .main ∧ ∃ op u, nextEeOp s = some (op, u)) ∧
    ∀ (op : EeOp) (u : State), memoryWf s.ee = true → enabled .powerTorn s = true → nextEeOp s = some (op, u) →
      eeOpAddr op < s.cfg.eeCap →
      ∃ (y : Byte) (ee : Memory) (env : Env),
        runTurn .powerTorn s = .next { powerLoss s with ee := ee, env := env } ∧
        eeRead ee (eeOpAddr op) = y ∧ (∀ d rest, u.env.draws = d :: rest → y = BitVec.ofNat 8 d) ∧
        ∀ a, a ≠ eeOpAddr op → eeRead ee a = eeRead s.ee a

/-- First power-on: every element the spec gives a reset value holds it (R46, R280). -/
def Obligations.PowerOnValues : Prop :=
  ∀ (cfg : Config) (launch : Launch) (prog : List Word) (env : Env) (s : State),
    s = State.powerOn cfg launch prog env →
    s.mpc = 0 ∧ s.ret = [] ∧ s.i = false ∧ s.ctx = .main ∧ s.csStack = [] ∧ s.fault.faulted = false ∧
    s.smpReady = false ∧
    s.adcCtrl = { en := false, start := false, free := false, iflag := false, ie := false, pre := launch.pre0 } ∧
    s.sel = { other := launch.selOther0, chsel := 0#4 } ∧ s.convActive = false ∧ s.rotReady = false ∧
    s.pinA = launch.pinA0 ∧ s.pinB = launch.pinB0 ∧ s.pcie = false ∧ s.pcif = false ∧
    s.cfg.rotTable = cfg.rotTable ∧ s.ee = launch.ee0 ∧ s.stReady = false ∧ s.membuf = launch.membuf0

/-! ## Whole-machine invariants -/

/-- The invariants hold at reset, and at every first power-on of a configuration that has runs. -/
def Obligations.InvariantsAtPowerOn : Prop :=
  (Inv State.reset ∧ Pipeline State.reset) ∧
  ∀ (cfg : Config) (launch : Launch) (prog : List Word) (env : Env), cfg.wellFormed launch = true →
    Inv (State.powerOn cfg launch prog env) ∧ Pipeline (State.powerOn cfg launch prog env)

/-- Every step of every agent keeps the invariant. -/
def Obligations.StepKeepsInvariant : Prop := ∀ s t : State, Inv s → step s = .next t → Inv t

/-- No run stops but in the fault state: under the invariant every unfaulted state of a configuration that has runs has
a next state, so no EEPROM address leaves the store (R61, R250). -/
def Obligations.UnfaultedStateSteps : Prop :=
  ∀ s : State, Inv s → s.fault.faulted = false → s.cfg.wellFormed s.launch = true → ∃ t, step s = .next t

/-- No step changes the configuration (the channel table and the transition table among it), the launch inputs or the
program (R29, R40, R72). -/
def Obligations.StepKeepsParameters : Prop :=
  ∀ s t : State, step s = .next t → t.cfg = s.cfg ∧ t.launch = s.launch ∧ t.prog = s.prog

/-- `RET` is append-only, across power losses too (R21). -/
def Obligations.ResultLogOnlyGrows : Prop := ∀ s t : State, step s = .next t → ∃ more, t.ret = s.ret ++ more

/-- `MPC` moves only by one, at the end of a MAIN command, or to 0 by a power loss (R20, R283). -/
def Obligations.PositionMovesOnlyByMain : Prop :=
  ∀ s t : State, step s = .next t → t.mpc ≠ s.mpc →
    (takes .main s ∧ t.mpc = s.mpc + 1) ∨ ((takes .power s ∨ takes .powerTorn s) ∧ t.mpc = 0)
end

