-- ==== Sys2Proof/Laws/Config.lean ====
section
/-! SUPPORT. What an accepted configuration and an accepted table give (00_scope.md R8, 42_rotary.md R171). -/

namespace Sys2Proof.Laws

open Sys2Proof.Machine

/-- The bounds of an accepted configuration. -/
theorem configOk_bounds {cfg : Config} (h : configOk cfg = true) :
    2 ≤ cfg.n ∧ cfg.n ≤ 256 ∧ cfg.ch.length = cfg.n ∧ 1 ≤ cfg.adcBits ∧ cfg.adcBits ≤ 16 ∧ 1 ≤ cfg.size ∧
      2 ≤ slotCount cfg ∧ 1 ≤ cfg.rotAccBits ∧ cfg.rotAccBits ≤ 16 ∧ tableOk cfg.rotTable = true := by
  simp only [configOk, channelsOk, codesOk, adcBitsOk, storeOk, accBitsOk, Bool.and_eq_true, decide_eq_true_eq,
    beq_iff_eq] at h
  tauto

/-- An accepted configuration with its launch inputs. -/
theorem wellFormed_parts {cfg : Config} {launch : Launch} (h : cfg.wellFormed launch = true) :
    configOk cfg = true ∧ cellsOk launch.ee0 = true ∧ (∀ c ∈ launch.ee0, c.1 < cfg.eeCap) ∧
      launch.membuf0.length = cfg.size := by
  simpa [Config.wellFormed, launchOk, and_assoc] using h

/-- Every code of an accepted table is a state and a trigger. -/
theorem tableOk_codes {table : List Byte} (h : tableOk table = true) {s p : Nat} (hs : s < 7) (hp : p < 4) :
    cellNext table s p ≤ 6 ∧ cellTrigger table s p ≤ 2 := by
  simp only [tableOk, tableCodesOk, Bool.and_eq_true, List.all_eq_true, List.mem_range, decide_eq_true_eq] at h
  exact h.1.1.1.1.1.2 s hs p hp

/-- Every state has a code. -/
theorem rotaryCode_lt (rs : RotaryState) : rotaryCode rs < 7 := by
  cases rs <;> decide

/-- A state's code decodes to it. -/
@[simp] theorem rotaryOfCode_rotaryCode (rs : RotaryState) : rotaryOfCode (rotaryCode rs) = some rs := by
  cases rs <;> rfl

/-- A code up to 6 is a state's. -/
theorem rotaryOfCode_of_le {c : Nat} (h : c ≤ 6) : ∃ rs, rotaryOfCode c = some rs ∧ rotaryCode rs = c := by
  interval_cases c <;> exact ⟨_, rfl, rfl⟩

/-- Every pair of levels has a pattern. -/
theorem pinPattern_lt (pa pb : Bool) : pinPattern pa pb < 4 := by
  cases pa <;> cases pb <;> decide

/-- A transition reads the cell's two fields. -/
theorem tableStep_eq_some {table : List Byte} {rs ns : RotaryState} {p : Nat} {d : Int}
    (h : tableStep table rs p = some (ns, d)) :
    rotaryOfCode (cellNext table (rotaryCode rs) p) = some ns ∧
      triggerDelta (cellTrigger table (rotaryCode rs) p) = some d := by
  unfold tableStep at h
  split at h
  · next hn hd => cases h; exact ⟨hn, hd⟩
  · cases h

/-- A code of a state is its own. -/
theorem rotaryCode_of_rotaryOfCode {c : Nat} {rs : RotaryState} (h : rotaryOfCode c = some rs) : rotaryCode rs = c := by
  unfold rotaryOfCode at h
  split at h <;> cases h <;> rfl

/-- A trigger's change, and its code. -/
theorem triggerDelta_eq_some {c : Nat} {d : Int} (h : triggerDelta c = some d) :
    c = 0 ∧ d = 0 ∨ c = 1 ∧ d = 1 ∨ c = 2 ∧ d = -1 := by
  unfold triggerDelta at h
  split at h <;> cases h <;> simp

/-- In an accepted table every pattern drives every state somewhere. -/
theorem tableStep_isSome {table : List Byte} (h : tableOk table = true) (rs : RotaryState) {p : Nat} (hp : p < 4) :
    ∃ ns d, tableStep table rs p = some (ns, d) := by
  obtain ⟨hn, ht⟩ := tableOk_codes h (rotaryCode_lt rs) hp
  obtain ⟨ns, hns, -⟩ := rotaryOfCode_of_le hn
  obtain ⟨d, hd⟩ : ∃ d, triggerDelta (cellTrigger table (rotaryCode rs) p) = some d := by
    generalize cellTrigger table (rotaryCode rs) p = c at ht
    interval_cases c <;> exact ⟨_, rfl⟩
  exact ⟨ns, d, by rw [tableStep, hns, hd]⟩

end Sys2Proof.Laws
end

