-- ==== Sys2Proof/Laws/Decode.lean ====
section
/-! SUPPORT. The fields of a command word (30_encoding.md R90). -/

namespace Sys2Proof.Laws

/-- The word as a number. -/
theorem commandWord_toNat (op a : Byte) (b : Half) :
    (commandWord op a b).toNat = op.toNat * 2 ^ 24 + a.toNat * 2 ^ 16 + b.toNat := by
  have := op.isLt
  have := a.isLt
  have := b.isLt
  show (op ++ a ++ b : BitVec (8 + 8 + 16)).toNat = _
  rw [BitVec.toNat_append, BitVec.toNat_append, ← Nat.shiftLeft_add_eq_or_of_lt (by omega),
    ← Nat.shiftLeft_add_eq_or_of_lt (by omega)]
  simp only [Nat.shiftLeft_eq]
  omega

@[simp] theorem opField_commandWord (op a : Byte) (b : Half) : opField (commandWord op a b) = op := by
  apply BitVec.eq_of_toNat_eq
  have := op.isLt
  have := a.isLt
  have := b.isLt
  simp only [opField, BitVec.extractLsb'_toNat, commandWord_toNat, Nat.shiftRight_eq_div_pow]
  omega

@[simp] theorem aField_commandWord (op a : Byte) (b : Half) : aField (commandWord op a b) = a := by
  apply BitVec.eq_of_toNat_eq
  have := a.isLt
  have := b.isLt
  simp only [aField, BitVec.extractLsb'_toNat, commandWord_toNat, Nat.shiftRight_eq_div_pow]
  omega

@[simp] theorem bField_commandWord (op a : Byte) (b : Half) : bField (commandWord op a b) = b := by
  apply BitVec.eq_of_toNat_eq
  have := b.isLt
  simp only [bField, BitVec.extractLsb'_toNat, commandWord_toNat, Nat.shiftRight_eq_div_pow]
  omega

/-- A word is its three fields. -/
theorem commandWord_fields (w : Word) : commandWord (opField w) (aField w) (bField w) = w := by
  apply BitVec.eq_of_toNat_eq
  have := w.isLt
  simp only [commandWord_toNat, opField, aField, bField, BitVec.extractLsb'_toNat, Nat.shiftRight_eq_div_pow]
  omega

/-- An `A` field with bits 7 to 2 zero is its two level bits. -/
theorem levels_of_zero (a : Byte) (h : a.extractLsb' 2 6 = 0#6) :
    0#6 ++ BitVec.ofBool (a.getLsbD 1) ++ BitVec.ofBool (a.getLsbD 0) = a := by
  revert a
  decide

/-- An `A` field with bits 7 to 1 zero is its flag bit. -/
theorem flag_of_zero (a : Byte) (h : a.extractLsb' 1 7 = 0#7) : 0#7 ++ BitVec.ofBool (a.getLsbD 0) = a := by
  revert a
  decide

end Sys2Proof.Laws
end

