-- ==== Sys2Proof/Laws/Memory.lean ====
section
/-! SUPPORT. The laws of the EEPROM: reading back what was written, writes leaving other bytes alone, and the canonical
form kept by every operation. -/

namespace Sys2Proof.Laws

open Sys2Proof.Machine Sys2Proof.Safety

/-- An address below every listed one reads as erased. -/
theorem eeRead_below {lo : Nat} {m : Memory} (h : cellsFrom lo m = true) {a : Nat} (ha : a < lo) :
    eeRead m a = erasedByte := by
  induction m generalizing lo with
  | nil => rfl
  | cons c rest ih =>
    obtain ⟨b, v⟩ := c
    simp only [cellsFrom, Bool.and_eq_true, decide_eq_true_eq] at h
    rw [eeRead, if_neg (by omega)]
    exact ih h.2 (by omega)

/-- The form with a lower bound weakens. -/
theorem cellsFrom_mono {lo hi : Nat} {m : Memory} (h : cellsFrom hi m = true) (hl : lo ≤ hi) : cellsFrom lo m = true := by
  cases m with
  | nil => rfl
  | cons c rest =>
    obtain ⟨b, v⟩ := c
    simp only [cellsFrom, Bool.and_eq_true, decide_eq_true_eq] at h ⊢
    exact ⟨⟨by omega, h.1.2⟩, h.2⟩

/-- A write keeps the canonical form. -/
theorem cellsFrom_eeSet {lo a : Nat} {m : Memory} (v : Byte) (h : cellsFrom lo m = true) (ha : lo ≤ a) :
    cellsFrom lo (eeSet m a v) = true := by
  induction m generalizing lo with
  | nil =>
    rw [eeSet]
    split
    · rfl
    · simp_all [cellsFrom, erasedByte]
  | cons c rest ih =>
    obtain ⟨b, w⟩ := c
    have h' := h
    simp only [cellsFrom, Bool.and_eq_true, decide_eq_true_eq] at h'
    obtain ⟨⟨hb, hw⟩, hr⟩ := h'
    rw [eeSet]
    split_ifs with h1 h2 h3 h4
    · exact h
    · simp only [cellsFrom, Bool.and_eq_true, decide_eq_true_eq]
      exact ⟨⟨ha, by simpa [erasedByte] using h2⟩, ⟨by omega, hw⟩, hr⟩
    · exact cellsFrom_mono hr (by omega)
    · subst h3
      simp only [cellsFrom, Bool.and_eq_true, decide_eq_true_eq]
      exact ⟨⟨ha, by simpa [erasedByte] using h4⟩, hr⟩
    · simp only [cellsFrom, Bool.and_eq_true, decide_eq_true_eq]
      exact ⟨⟨hb, hw⟩, ih hr (by omega)⟩

/-- A write leaves every other byte alone. -/
theorem eeRead_eeSet_ne {m : Memory} {a b : Nat} (v : Byte) (h : b ≠ a) : eeRead (eeSet m a v) b = eeRead m b := by
  induction m with
  | nil =>
    rw [eeSet]
    split
    · rfl
    · simp [eeRead, h]
  | cons c rest ih =>
    obtain ⟨d, w⟩ := c
    rw [eeSet]
    split_ifs with h1 h2 h3 h4
    · rfl
    · rw [eeRead, if_neg h]
    · subst h3
      rw [eeRead, if_neg h]
    · subst h3
      rw [eeRead, if_neg h, eeRead, if_neg h]
    · rw [eeRead, eeRead, ih]

/-- A byte written reads back. -/
theorem eeRead_eeSet_self {lo : Nat} {m : Memory} (h : cellsFrom lo m = true) (a : Nat) (v : Byte) :
    eeRead (eeSet m a v) a = v := by
  induction m generalizing lo with
  | nil =>
    rw [eeSet]
    split
    · next hv => rw [hv]; rfl
    · rw [eeRead, if_pos rfl]
  | cons c rest ih =>
    obtain ⟨d, w⟩ := c
    have h' := h
    simp only [cellsFrom, Bool.and_eq_true, decide_eq_true_eq] at h'
    rw [eeSet]
    split_ifs with h1 h2 h3 h4
    · rw [eeRead, if_neg (by omega), h2]
      exact eeRead_below h'.2 (by omega)
    · rw [eeRead, if_pos rfl]
    · subst h3
      rw [h4]
      exact eeRead_below h'.2 (by omega)
    · rw [eeRead, if_pos rfl]
    · rw [eeRead, if_neg h3]
      exact ih h'.2

/-- The cells after a write are among the old ones and the one written. -/
theorem mem_eeSet {m : Memory} {a : Nat} {v : Byte} {c : Host.Cell} (h : c ∈ eeSet m a v) : c ∈ m ∨ c = (a, v) := by
  induction m with
  | nil =>
    rw [eeSet] at h
    split at h <;> simp_all
  | cons d rest ih =>
    obtain ⟨b, w⟩ := d
    rw [eeSet] at h
    split_ifs at h <;> simp only [List.mem_cons] at h ⊢ <;> tauto

/-- Every EEPROM operation keeps the canonical form. -/
theorem eeApply_wf {m : Memory} (op : EeOp) (h : memoryWf m = true) : memoryWf (eeApply m op) = true :=
  cellsFrom_eeSet _ h (Nat.zero_le _)

/-- What an EEPROM operation leaves at its address. -/
theorem eeRead_eeApply_self {m : Memory} (op : EeOp) (h : memoryWf m = true) :
    eeRead (eeApply m op) (eeOpAddr op) = eeOpValue op :=
  eeRead_eeSet_self h _ _

/-- An EEPROM operation leaves every other byte alone. -/
theorem eeRead_eeApply_ne {m : Memory} (op : EeOp) {a : Nat} (h : a ≠ eeOpAddr op) :
    eeRead (eeApply m op) a = eeRead m a :=
  eeRead_eeSet_ne _ h

/-- The memory right after reset is in canonical form. -/
theorem reset_memoryWf : memoryWf State.reset.ee = true := rfl

/-! ## Sequences of operations -/

@[simp] theorem eeApplyAll_nil (m : Memory) : eeApplyAll m [] = m := rfl

@[simp] theorem eeApplyAll_cons (m : Memory) (op : EeOp) (ops : List EeOp) :
    eeApplyAll m (op :: ops) = eeApplyAll (eeApply m op) ops := rfl

theorem eeApplyAll_append (m : Memory) (ops ops' : List EeOp) :
    eeApplyAll m (ops ++ ops') = eeApplyAll (eeApplyAll m ops) ops' := List.foldl_append

/-- A sequence of operations keeps the canonical form. -/
theorem eeApplyAll_wf {m : Memory} (ops : List EeOp) (h : memoryWf m = true) : memoryWf (eeApplyAll m ops) = true := by
  induction ops generalizing m with
  | nil => exact h
  | cons op ops ih => exact ih (eeApply_wf op h)

/-- A sequence of operations leaves the bytes it does not address alone. -/
theorem eeRead_eeApplyAll_of_not_mem {ops : List EeOp} {m : Memory} {a : Nat} (h : ∀ op ∈ ops, eeOpAddr op ≠ a) :
    eeRead (eeApplyAll m ops) a = eeRead m a := by
  induction ops generalizing m with
  | nil => rfl
  | cons op ops ih =>
    rw [eeApplyAll_cons, ih fun o ho => h o (List.mem_cons_of_mem _ ho)]
    exact eeRead_eeApply_ne op fun e => h op List.mem_cons_self e.symm

/-- A byte that every operation addressing it leaves at `v`, and that starts at `v` or is addressed, ends at `v`. -/
theorem eeRead_eeApplyAll_const {ops : List EeOp} {m : Memory} {a : Nat} {v : Byte} (hm : memoryWf m = true)
    (hv : ∀ op ∈ ops, eeOpAddr op = a → eeOpValue op = v) (h : eeRead m a = v ∨ ∃ op ∈ ops, eeOpAddr op = a) :
    eeRead (eeApplyAll m ops) a = v := by
  induction ops generalizing m with
  | nil => simpa using h
  | cons op ops ih =>
    have hrest : ∀ o ∈ ops, eeOpAddr o = a → eeOpValue o = v := fun o ho => hv o (List.mem_cons_of_mem _ ho)
    rw [eeApplyAll_cons]
    by_cases ha : eeOpAddr op = a
    · refine ih (eeApply_wf op hm) hrest (.inl ?_)
      rw [← ha, eeRead_eeApply_self op hm]
      exact hv op List.mem_cons_self ha
    · refine ih (eeApply_wf op hm) hrest ?_
      rw [eeRead_eeApply_ne op fun e => ha e.symm]
      rcases h with h | ⟨o, ho, hoa⟩
      · exact .inl h
      · rcases List.mem_cons.1 ho with rfl | ho
        · exact absurd hoa ha
        · exact .inr ⟨o, ho, hoa⟩

end Sys2Proof.Laws
end

