-- ==== Sys2Proof/Laws/Ops.lean ====
section
/-! SUPPORT. What each shared operation can do, said once: draws and turns, the EEPROM micro-step, the service step, and
the step itself. -/

namespace Sys2Proof.Laws

open Sys2Proof.Machine Sys2Proof.Safety

/-! ## Inputs -/

/-- A draw changes only the inputs. -/
theorem draw_state (k : Nat) (s : State) : (draw k s).2 = { s with env := (draw k s).2.env } := by
  unfold draw
  split <;> rfl

/-- A draw is in its set. -/
theorem draw_lt {k : Nat} (hk : 0 < k) (s : State) : (draw k s).1 < k := by
  unfold draw
  split <;> exact Nat.mod_lt _ hk

/-- A draw takes the next one listed. -/
theorem draw_listed {s : State} {d : Nat} {rest : List Nat} (k : Nat) (h : s.env.draws = d :: rest) :
    draw k s = (d % k, { s with env := { s.env with draws := rest } }) := by
  simp only [draw, h]

/-- Taking a turn changes only the inputs. -/
theorem takeTurn_state (s : State) : (takeTurn s).2 = { s with env := (takeTurn s).2.env } := by
  unfold takeTurn
  split <;> rfl

/-- A turn taken is the next one listed. -/
theorem takeTurn_listed {s : State} {t : Turn} {ts : List Turn} (h : s.env.turns = t :: ts) :
    takeTurn s = (t, { s with env := { s.env with turns := ts } }) := by
  simp only [takeTurn, h]

/-! ## Sequencing -/

@[simp] theorem andThen_next (s : State) (f : State → Result) : andThen (.next s) f = f s := rfl

/-- A sequence answers a next state only through one in between. -/
theorem andThen_eq_next {r : Result} {f : State → Result} {t : State} (h : andThen r f = .next t) :
    ∃ u, r = .next u ∧ f u = .next t := by
  cases r with
  | next u => exact ⟨u, rfl, h⟩
  | fault e => cases h
  | refused e => cases h

/-- A micro-step at an address of the store. -/
theorem eeMicro_within {op : EeOp} {s : State} (h : eeOpAddr op < s.cfg.eeCap) :
    eeMicro op s = .next { s with ee := eeApply s.ee op } := if_pos h

/-- A micro-step that answers a next state. -/
theorem eeMicro_next {op : EeOp} {s t : State} (h : eeMicro op s = .next t) :
    eeOpAddr op < s.cfg.eeCap ∧ t = { s with ee := eeApply s.ee op } := by
  unfold eeMicro at h
  split at h
  · next hc => exact ⟨hc, by cases h; rfl⟩
  · cases h

/-! ## The step -/

/-- A step that answers a next state is a turn of an unfaulted state of a configuration that has runs. -/
theorem step_next {s t : State} (h : step s = .next t) :
    s.fault.faulted = false ∧ s.cfg.wellFormed s.launch = true ∧
      runTurn (takeTurn s).1 (takeTurn s).2 = .next t := by
  unfold step at h
  split at h
  · cases h
  · next hf =>
    split at h
    · next hw => exact ⟨by simpa using hf, hw, h⟩
    · cases h

/-- The step where it has one. -/
theorem step_eq {s : State} (hf : s.fault.faulted = false) (hw : s.cfg.wellFormed s.launch = true) :
    step s = runTurn (takeTurn s).1 (takeTurn s).2 := by
  simp [step, hf, hw, schedule]

/-- The turn of an enabled agent is its step. -/
theorem runTurn_enabled {u : Turn} {s : State} (h : enabled u s = true) : runTurn u s = agentStep u s := if_pos h

/-- A turn that answers a next state: the agent holds and nothing changes, or it is the step of an enabled agent. -/
theorem runTurn_next {u : Turn} {s t : State} (h : runTurn u s = .next t) :
    (enabled u s = false ∧ t = s) ∨ (enabled u s = true ∧ agentStep u s = .next t) := by
  unfold runTurn at h
  split at h
  · next he => exact .inr ⟨he, h⟩
  · next he => exact .inl ⟨by simpa using he, by cases h; rfl⟩

/-- MAIN enabled: the context and a word to fetch. -/
theorem enabled_main {s : State} (h : enabled .main s = true) :
    s.fault.faulted = false ∧ s.ctx = .main ∧ s.mpc < s.prog.length := by
  simpa [enabled, and_assoc] using h

/-- A service enabled: R260's conditions. -/
theorem enabled_isrAdc {s : State} (h : enabled .isrAdc s = true) :
    s.fault.faulted = false ∧ s.ctx = .main ∧ s.i = true ∧ s.adcCtrl.iflag = true ∧ s.adcCtrl.ie = true := by
  simpa [enabled, adcInterruptReady, and_assoc] using h

theorem enabled_isrPcint {s : State} (h : enabled .isrPcint s = true) :
    s.fault.faulted = false ∧ s.ctx = .main ∧ s.i = true ∧ s.pcif = true ∧ s.pcie = true := by
  simpa [enabled, pinInterruptReady, and_assoc] using h

/-- MAIN's step: the command fetched runs, or the word faults. -/
theorem mainStep_next {s t : State} (hl : s.mpc < s.prog.length) (h : mainStep s = .next t) :
    (∃ i, fetched s = some i ∧ exec i s = .next t) ∨
    (fetched s = none ∧ ∃ info, t = raise .illegalCommand info s) := by
  unfold mainStep at h
  unfold fetched
  rw [List.getElem?_eq_getElem hl] at h ⊢
  cases hd : decode s.prog[s.mpc] with
  | ok i =>
    simp only [hd] at h ⊢
    exact .inl ⟨i, rfl, h⟩
  | error e =>
    simp only [hd] at h ⊢
    cases h
    exact .inr ⟨by simp, _, rfl⟩

/-- A service step: the body ran and the return followed, or the body faulted and only the fault fields changed. -/
theorem service_next {body : State → Result} {entered s t : State} (h : service body entered s = .next t) :
    ∃ u, body entered = .next u ∧
      ((u.fault.faulted = true ∧ t = { s with fault := u.fault }) ∨
        (u.fault.faulted = false ∧ t = interruptReturn u)) := by
  obtain ⟨u, hu, ht⟩ := andThen_eq_next h
  refine ⟨u, hu, ?_⟩
  cases hf : u.fault.faulted <;> simp_all

end Sys2Proof.Laws
end

