-- ==== Sys2Proof/Laws/Sampler.lean ====
section
/-! SUPPORT. What the sampler's shared operations do: a drawn result, one seeding round, the seeding loop. -/

namespace Sys2Proof.Laws

open Sys2Proof.Machine Sys2Proof.Safety

/-- Drawing a result changes only the inputs. -/
theorem drawResult_state (s : State) : (drawResult s).2 = { s with env := (drawResult s).2.env } := draw_state _ _

/-- A result drawn is a value of `ADC_BITS` bits. -/
theorem drawResult_lt (s : State) : (drawResult s).1.toNat < 2 ^ s.cfg.adcBits := by
  have h := draw_lt (k := 2 ^ s.cfg.adcBits) (by positivity) s
  simp only [drawResult, BitVec.toNat_ofNat]
  exact lt_of_le_of_lt (Nat.mod_le _ _) h

/-- The state after one round of the seeding loop, given the value seeded and the inputs left. -/
def seeded (s : State) (samples : List Half) (data : Half) (env : Env) (code : BitVec 4) : State :=
  { s with
    samples := samples, adcData := data, env := env, adcCtrl := { s.adcCtrl with start := false },
    sel := { s.sel with chsel := code } }

/-- One round of the seeding loop writes `S[k]`, `ADC_DATA`, `START`, `SEL.CHSEL` and the inputs, nothing else. -/
theorem seedSlot_eq (s : State) (k : Nat) :
    ∃ (v : Half) (env : Env), seedSlot s k = seeded s (s.samples.set k v) v env (channel s.cfg k) ∧
      v.toNat < 2 ^ s.cfg.adcBits := by
  unfold seedSlot blockingConvert
  generalize hu : ({ armChannel (channel s.cfg k) s with
    adcCtrl := { (armChannel (channel s.cfg k) s).adcCtrl with start := true } } : State) = u
  refine ⟨(drawResult u).1, (drawResult u).2.env, ?_, ?_⟩
  · simp only
    rw [drawResult_state u]
    simp [← hu, seeded, armChannel]
  · simpa [← hu, armChannel] using drawResult_lt u

/-- The seeding loop writes the same fields as a round; it keeps the number of slots, and every slot seeded, or holding
such a value before, holds a value of `ADC_BITS` bits. -/
theorem seedFold_eq (k : Nat) (ks : List Nat) (s : State) :
    ∃ (samples : List Half) (v : Half) (env : Env) (code : BitVec 4),
      (k :: ks).foldl seedSlot s = seeded s samples v env code ∧ samples.length = s.samples.length ∧
      ∀ j, (h : j < samples.length) → (h' : j < s.samples.length) →
        (j ∈ k :: ks ∨ s.samples[j].toNat < 2 ^ s.cfg.adcBits) → samples[j].toNat < 2 ^ s.cfg.adcBits := by
  induction ks generalizing k s with
  | nil =>
    obtain ⟨v, env, h, hv⟩ := seedSlot_eq s k
    refine ⟨_, v, env, _, h, by simp, fun j hj hj' hor => ?_⟩
    rw [List.getElem_set]
    split
    · exact hv
    · next hk => exact hor.resolve_left (by simpa using fun e => hk e.symm)
  | cons k' ks ih =>
    obtain ⟨v, env, h, hv⟩ := seedSlot_eq s k
    obtain ⟨samples, v', env', code, g, gl, gs⟩ := ih k' (seedSlot s k)
    refine ⟨samples, v', env', code, ?_, ?_, fun j hj hj' hor => ?_⟩
    · rw [List.foldl_cons, g, h]; rfl
    · rw [gl, h]; simp [seeded]
    · have hlen : j < (seedSlot s k).samples.length := by rw [h]; simpa [seeded] using hj'
      have hcfg : (seedSlot s k).cfg = s.cfg := by rw [h]; rfl
      have key := gs j hj hlen
      rw [hcfg] at key
      refine key ?_
      by_cases hk : j = k
      · right
        simp only [h, seeded, List.getElem_set, if_pos hk.symm]
        exact hv
      · refine hor.imp (fun hm => by simpa [hk] using hm) fun hb => ?_
        simp only [h, seeded, List.getElem_set, if_neg (Ne.symm hk)]
        exact hb

/-- What `SMP.INIT`'s loop does where there is a channel. -/
theorem seedAll_eq {s : State} (hn : 0 < s.cfg.n) (hl : s.samples.length = s.cfg.n) :
    ∃ (samples : List Half) (v : Half) (env : Env) (code : BitVec 4),
      seedAll s = seeded s samples v env code ∧ samples.length = s.cfg.n ∧
      ∀ w ∈ samples, w.toNat < 2 ^ s.cfg.adcBits := by
  obtain ⟨m, hm⟩ : ∃ m, s.cfg.n = m + 1 := ⟨s.cfg.n - 1, by omega⟩
  obtain ⟨samples, v, env, code, h, hlen, hs⟩ := seedFold_eq 0 ((List.range m).map (· + 1)) s
  have hr : List.range s.cfg.n = 0 :: (List.range m).map (· + 1) := by
    rw [hm, List.range_succ_eq_map]
  refine ⟨samples, v, env, code, by rw [seedAll, hr, h], by omega, fun w hw => ?_⟩
  obtain ⟨j, hj, rfl⟩ := List.getElem_of_mem hw
  refine hs j hj (by omega) (.inl ?_)
  rw [← hr, List.mem_range]
  omega

/-- What `SMP.INIT`'s loop leaves alone, whatever the number of channels. -/
theorem seedAll_frame (s : State) :
    ∃ (samples : List Half) (v : Half) (env : Env) (start : Bool) (code : BitVec 4),
      seedAll s =
        { s with
          samples := samples, adcData := v, env := env, adcCtrl := { s.adcCtrl with start := start },
          sel := { s.sel with chsel := code } } ∧
      samples.length = s.samples.length := by
  cases hr : List.range s.cfg.n with
  | nil => exact ⟨s.samples, s.adcData, s.env, s.adcCtrl.start, s.sel.chsel, by rw [seedAll, hr]; rfl, rfl⟩
  | cons k ks =>
    obtain ⟨samples, v, env, code, h, hl, -⟩ := seedFold_eq k ks s
    exact ⟨samples, v, env, false, code, by rw [seedAll, hr, h]; rfl, hl⟩

/-- What the last lines of `SMP.INIT` write. -/
theorem startFreeRunning_eq (s : State) :
    startFreeRunning s =
      { s with
        cur := 0, adcCtrl := { s.adcCtrl with iflag := false, free := true, ie := true },
        sel := { s.sel with chsel := channel s.cfg 1 }, convActive := true, convCh := channel s.cfg 0,
        smpReady := true } := rfl

/-- What `SMP.INIT` leaves alone. -/
theorem smpInit_frame (s : State) :
    ∃ (samples : List Half) (v : Half) (env : Env) (start : Bool),
      startFreeRunning (seedAll (converterOn s)) =
        { s with
          samples := samples, adcData := v, env := env, cur := 0,
          adcCtrl := { en := true, start := start, free := true, iflag := false, ie := true, pre := s.adcCtrl.pre },
          sel := { s.sel with chsel := channel s.cfg 1 }, convActive := true, convCh := channel s.cfg 0,
          smpReady := true } ∧
      samples.length = s.samples.length := by
  obtain ⟨samples, v, env, start, code, h, hl⟩ := seedAll_frame (converterOn s)
  exact ⟨samples, v, env, start, by rw [startFreeRunning_eq, h]; rfl, hl⟩

end Sys2Proof.Laws
end

