-- ==== Sys2Proof/Laws/State.lean ====
section
/-! SUPPORT. One lemma per field per named update of the state: the value of the field after the update. -/

namespace Sys2Proof.Laws

open Sys2Proof.Machine

/-! ## `advance` -/

@[simp] theorem advance_cfg (s : State) : (advance s).cfg = s.cfg := rfl
@[simp] theorem advance_launch (s : State) : (advance s).launch = s.launch := rfl
@[simp] theorem advance_prog (s : State) : (advance s).prog = s.prog := rfl
@[simp] theorem advance_mpc (s : State) : (advance s).mpc = s.mpc + 1 := rfl
@[simp] theorem advance_ret (s : State) : (advance s).ret = s.ret := rfl
@[simp] theorem advance_i (s : State) : (advance s).i = s.i := rfl
@[simp] theorem advance_ctx (s : State) : (advance s).ctx = s.ctx := rfl
@[simp] theorem advance_csStack (s : State) : (advance s).csStack = s.csStack := rfl
@[simp] theorem advance_fault (s : State) : (advance s).fault = s.fault := rfl
@[simp] theorem advance_smpReady (s : State) : (advance s).smpReady = s.smpReady := rfl
@[simp] theorem advance_samples (s : State) : (advance s).samples = s.samples := rfl
@[simp] theorem advance_cur (s : State) : (advance s).cur = s.cur := rfl
@[simp] theorem advance_adcCtrl (s : State) : (advance s).adcCtrl = s.adcCtrl := rfl
@[simp] theorem advance_sel (s : State) : (advance s).sel = s.sel := rfl
@[simp] theorem advance_convActive (s : State) : (advance s).convActive = s.convActive := rfl
@[simp] theorem advance_convCh (s : State) : (advance s).convCh = s.convCh := rfl
@[simp] theorem advance_adcData (s : State) : (advance s).adcData = s.adcData := rfl
@[simp] theorem advance_doneCh (s : State) : (advance s).doneCh = s.doneCh := rfl
@[simp] theorem advance_rotReady (s : State) : (advance s).rotReady = s.rotReady := rfl
@[simp] theorem advance_rs (s : State) : (advance s).rs = s.rs := rfl
@[simp] theorem advance_acc (s : State) : (advance s).acc = s.acc := rfl
@[simp] theorem advance_pinA (s : State) : (advance s).pinA = s.pinA := rfl
@[simp] theorem advance_pinB (s : State) : (advance s).pinB = s.pinB := rfl
@[simp] theorem advance_pcie (s : State) : (advance s).pcie = s.pcie := rfl
@[simp] theorem advance_pcif (s : State) : (advance s).pcif = s.pcif := rfl
@[simp] theorem advance_ee (s : State) : (advance s).ee = s.ee := rfl
@[simp] theorem advance_stReady (s : State) : (advance s).stReady = s.stReady := rfl
@[simp] theorem advance_stSlot (s : State) : (advance s).stSlot = s.stSlot := rfl
@[simp] theorem advance_stVer (s : State) : (advance s).stVer = s.stVer := rfl
@[simp] theorem advance_membuf (s : State) : (advance s).membuf = s.membuf := rfl
@[simp] theorem advance_job (s : State) : (advance s).job = s.job := rfl
@[simp] theorem advance_env (s : State) : (advance s).env = s.env := rfl

/-! ## `logRet` -/

@[simp] theorem logRet_cfg (v : RetValue) (s : State) : (logRet v s).cfg = s.cfg := rfl
@[simp] theorem logRet_launch (v : RetValue) (s : State) : (logRet v s).launch = s.launch := rfl
@[simp] theorem logRet_prog (v : RetValue) (s : State) : (logRet v s).prog = s.prog := rfl
@[simp] theorem logRet_mpc (v : RetValue) (s : State) : (logRet v s).mpc = s.mpc := rfl
@[simp] theorem logRet_ret (v : RetValue) (s : State) : (logRet v s).ret = s.ret ++ [(s.mpc, v)] := rfl
@[simp] theorem logRet_i (v : RetValue) (s : State) : (logRet v s).i = s.i := rfl
@[simp] theorem logRet_ctx (v : RetValue) (s : State) : (logRet v s).ctx = s.ctx := rfl
@[simp] theorem logRet_csStack (v : RetValue) (s : State) : (logRet v s).csStack = s.csStack := rfl
@[simp] theorem logRet_fault (v : RetValue) (s : State) : (logRet v s).fault = s.fault := rfl
@[simp] theorem logRet_smpReady (v : RetValue) (s : State) : (logRet v s).smpReady = s.smpReady := rfl
@[simp] theorem logRet_samples (v : RetValue) (s : State) : (logRet v s).samples = s.samples := rfl
@[simp] theorem logRet_cur (v : RetValue) (s : State) : (logRet v s).cur = s.cur := rfl
@[simp] theorem logRet_adcCtrl (v : RetValue) (s : State) : (logRet v s).adcCtrl = s.adcCtrl := rfl
@[simp] theorem logRet_sel (v : RetValue) (s : State) : (logRet v s).sel = s.sel := rfl
@[simp] theorem logRet_convActive (v : RetValue) (s : State) : (logRet v s).convActive = s.convActive := rfl
@[simp] theorem logRet_convCh (v : RetValue) (s : State) : (logRet v s).convCh = s.convCh := rfl
@[simp] theorem logRet_adcData (v : RetValue) (s : State) : (logRet v s).adcData = s.adcData := rfl
@[simp] theorem logRet_doneCh (v : RetValue) (s : State) : (logRet v s).doneCh = s.doneCh := rfl
@[simp] theorem logRet_rotReady (v : RetValue) (s : State) : (logRet v s).rotReady = s.rotReady := rfl
@[simp] theorem logRet_rs (v : RetValue) (s : State) : (logRet v s).rs = s.rs := rfl
@[simp] theorem logRet_acc (v : RetValue) (s : State) : (logRet v s).acc = s.acc := rfl
@[simp] theorem logRet_pinA (v : RetValue) (s : State) : (logRet v s).pinA = s.pinA := rfl
@[simp] theorem logRet_pinB (v : RetValue) (s : State) : (logRet v s).pinB = s.pinB := rfl
@[simp] theorem logRet_pcie (v : RetValue) (s : State) : (logRet v s).pcie = s.pcie := rfl
@[simp] theorem logRet_pcif (v : RetValue) (s : State) : (logRet v s).pcif = s.pcif := rfl
@[simp] theorem logRet_ee (v : RetValue) (s : State) : (logRet v s).ee = s.ee := rfl
@[simp] theorem logRet_stReady (v : RetValue) (s : State) : (logRet v s).stReady = s.stReady := rfl
@[simp] theorem logRet_stSlot (v : RetValue) (s : State) : (logRet v s).stSlot = s.stSlot := rfl
@[simp] theorem logRet_stVer (v : RetValue) (s : State) : (logRet v s).stVer = s.stVer := rfl
@[simp] theorem logRet_membuf (v : RetValue) (s : State) : (logRet v s).membuf = s.membuf := rfl
@[simp] theorem logRet_job (v : RetValue) (s : State) : (logRet v s).job = s.job := rfl
@[simp] theorem logRet_env (v : RetValue) (s : State) : (logRet v s).env = s.env := rfl

/-! ## `raiseBy` -/

@[simp] theorem raiseBy_cfg (g : Agent) (c : FaultCode) (v : Half) (s : State) : (raiseBy g c v s).cfg = s.cfg := rfl
@[simp] theorem raiseBy_launch (g : Agent) (c : FaultCode) (v : Half) (s : State) : (raiseBy g c v s).launch = s.launch := rfl
@[simp] theorem raiseBy_prog (g : Agent) (c : FaultCode) (v : Half) (s : State) : (raiseBy g c v s).prog = s.prog := rfl
@[simp] theorem raiseBy_mpc (g : Agent) (c : FaultCode) (v : Half) (s : State) : (raiseBy g c v s).mpc = s.mpc := rfl
@[simp] theorem raiseBy_ret (g : Agent) (c : FaultCode) (v : Half) (s : State) : (raiseBy g c v s).ret = s.ret := rfl
@[simp] theorem raiseBy_i (g : Agent) (c : FaultCode) (v : Half) (s : State) : (raiseBy g c v s).i = s.i := rfl
@[simp] theorem raiseBy_ctx (g : Agent) (c : FaultCode) (v : Half) (s : State) : (raiseBy g c v s).ctx = s.ctx := rfl
@[simp] theorem raiseBy_csStack (g : Agent) (c : FaultCode) (v : Half) (s : State) : (raiseBy g c v s).csStack = s.csStack := rfl
@[simp] theorem raiseBy_fault (g : Agent) (c : FaultCode) (v : Half) (s : State) : (raiseBy g c v s).fault = ⟨true, faultNumber c, g, s.mpc, v⟩ := rfl
@[simp] theorem raiseBy_smpReady (g : Agent) (c : FaultCode) (v : Half) (s : State) : (raiseBy g c v s).smpReady = s.smpReady := rfl
@[simp] theorem raiseBy_samples (g : Agent) (c : FaultCode) (v : Half) (s : State) : (raiseBy g c v s).samples = s.samples := rfl
@[simp] theorem raiseBy_cur (g : Agent) (c : FaultCode) (v : Half) (s : State) : (raiseBy g c v s).cur = s.cur := rfl
@[simp] theorem raiseBy_adcCtrl (g : Agent) (c : FaultCode) (v : Half) (s : State) : (raiseBy g c v s).adcCtrl = s.adcCtrl := rfl
@[simp] theorem raiseBy_sel (g : Agent) (c : FaultCode) (v : Half) (s : State) : (raiseBy g c v s).sel = s.sel := rfl
@[simp] theorem raiseBy_convActive (g : Agent) (c : FaultCode) (v : Half) (s : State) : (raiseBy g c v s).convActive = s.convActive := rfl
@[simp] theorem raiseBy_convCh (g : Agent) (c : FaultCode) (v : Half) (s : State) : (raiseBy g c v s).convCh = s.convCh := rfl
@[simp] theorem raiseBy_adcData (g : Agent) (c : FaultCode) (v : Half) (s : State) : (raiseBy g c v s).adcData = s.adcData := rfl
@[simp] theorem raiseBy_doneCh (g : Agent) (c : FaultCode) (v : Half) (s : State) : (raiseBy g c v s).doneCh = s.doneCh := rfl
@[simp] theorem raiseBy_rotReady (g : Agent) (c : FaultCode) (v : Half) (s : State) : (raiseBy g c v s).rotReady = s.rotReady := rfl
@[simp] theorem raiseBy_rs (g : Agent) (c : FaultCode) (v : Half) (s : State) : (raiseBy g c v s).rs = s.rs := rfl
@[simp] theorem raiseBy_acc (g : Agent) (c : FaultCode) (v : Half) (s : State) : (raiseBy g c v s).acc = s.acc := rfl
@[simp] theorem raiseBy_pinA (g : Agent) (c : FaultCode) (v : Half) (s : State) : (raiseBy g c v s).pinA = s.pinA := rfl
@[simp] theorem raiseBy_pinB (g : Agent) (c : FaultCode) (v : Half) (s : State) : (raiseBy g c v s).pinB = s.pinB := rfl
@[simp] theorem raiseBy_pcie (g : Agent) (c : FaultCode) (v : Half) (s : State) : (raiseBy g c v s).pcie = s.pcie := rfl
@[simp] theorem raiseBy_pcif (g : Agent) (c : FaultCode) (v : Half) (s : State) : (raiseBy g c v s).pcif = s.pcif := rfl
@[simp] theorem raiseBy_ee (g : Agent) (c : FaultCode) (v : Half) (s : State) : (raiseBy g c v s).ee = s.ee := rfl
@[simp] theorem raiseBy_stReady (g : Agent) (c : FaultCode) (v : Half) (s : State) : (raiseBy g c v s).stReady = s.stReady := rfl
@[simp] theorem raiseBy_stSlot (g : Agent) (c : FaultCode) (v : Half) (s : State) : (raiseBy g c v s).stSlot = s.stSlot := rfl
@[simp] theorem raiseBy_stVer (g : Agent) (c : FaultCode) (v : Half) (s : State) : (raiseBy g c v s).stVer = s.stVer := rfl
@[simp] theorem raiseBy_membuf (g : Agent) (c : FaultCode) (v : Half) (s : State) : (raiseBy g c v s).membuf = s.membuf := rfl
@[simp] theorem raiseBy_job (g : Agent) (c : FaultCode) (v : Half) (s : State) : (raiseBy g c v s).job = s.job := rfl
@[simp] theorem raiseBy_env (g : Agent) (c : FaultCode) (v : Half) (s : State) : (raiseBy g c v s).env = s.env := rfl

/-! ## `raise` -/

@[simp] theorem raise_cfg (c : FaultCode) (v : Half) (s : State) : (raise c v s).cfg = s.cfg := rfl
@[simp] theorem raise_launch (c : FaultCode) (v : Half) (s : State) : (raise c v s).launch = s.launch := rfl
@[simp] theorem raise_prog (c : FaultCode) (v : Half) (s : State) : (raise c v s).prog = s.prog := rfl
@[simp] theorem raise_mpc (c : FaultCode) (v : Half) (s : State) : (raise c v s).mpc = s.mpc := rfl
@[simp] theorem raise_ret (c : FaultCode) (v : Half) (s : State) : (raise c v s).ret = s.ret := rfl
@[simp] theorem raise_i (c : FaultCode) (v : Half) (s : State) : (raise c v s).i = s.i := rfl
@[simp] theorem raise_ctx (c : FaultCode) (v : Half) (s : State) : (raise c v s).ctx = s.ctx := rfl
@[simp] theorem raise_csStack (c : FaultCode) (v : Half) (s : State) : (raise c v s).csStack = s.csStack := rfl
@[simp] theorem raise_fault (c : FaultCode) (v : Half) (s : State) : (raise c v s).fault = ⟨true, faultNumber c, ctxAgent s.ctx, s.mpc, v⟩ := rfl
@[simp] theorem raise_smpReady (c : FaultCode) (v : Half) (s : State) : (raise c v s).smpReady = s.smpReady := rfl
@[simp] theorem raise_samples (c : FaultCode) (v : Half) (s : State) : (raise c v s).samples = s.samples := rfl
@[simp] theorem raise_cur (c : FaultCode) (v : Half) (s : State) : (raise c v s).cur = s.cur := rfl
@[simp] theorem raise_adcCtrl (c : FaultCode) (v : Half) (s : State) : (raise c v s).adcCtrl = s.adcCtrl := rfl
@[simp] theorem raise_sel (c : FaultCode) (v : Half) (s : State) : (raise c v s).sel = s.sel := rfl
@[simp] theorem raise_convActive (c : FaultCode) (v : Half) (s : State) : (raise c v s).convActive = s.convActive := rfl
@[simp] theorem raise_convCh (c : FaultCode) (v : Half) (s : State) : (raise c v s).convCh = s.convCh := rfl
@[simp] theorem raise_adcData (c : FaultCode) (v : Half) (s : State) : (raise c v s).adcData = s.adcData := rfl
@[simp] theorem raise_doneCh (c : FaultCode) (v : Half) (s : State) : (raise c v s).doneCh = s.doneCh := rfl
@[simp] theorem raise_rotReady (c : FaultCode) (v : Half) (s : State) : (raise c v s).rotReady = s.rotReady := rfl
@[simp] theorem raise_rs (c : FaultCode) (v : Half) (s : State) : (raise c v s).rs = s.rs := rfl
@[simp] theorem raise_acc (c : FaultCode) (v : Half) (s : State) : (raise c v s).acc = s.acc := rfl
@[simp] theorem raise_pinA (c : FaultCode) (v : Half) (s : State) : (raise c v s).pinA = s.pinA := rfl
@[simp] theorem raise_pinB (c : FaultCode) (v : Half) (s : State) : (raise c v s).pinB = s.pinB := rfl
@[simp] theorem raise_pcie (c : FaultCode) (v : Half) (s : State) : (raise c v s).pcie = s.pcie := rfl
@[simp] theorem raise_pcif (c : FaultCode) (v : Half) (s : State) : (raise c v s).pcif = s.pcif := rfl
@[simp] theorem raise_ee (c : FaultCode) (v : Half) (s : State) : (raise c v s).ee = s.ee := rfl
@[simp] theorem raise_stReady (c : FaultCode) (v : Half) (s : State) : (raise c v s).stReady = s.stReady := rfl
@[simp] theorem raise_stSlot (c : FaultCode) (v : Half) (s : State) : (raise c v s).stSlot = s.stSlot := rfl
@[simp] theorem raise_stVer (c : FaultCode) (v : Half) (s : State) : (raise c v s).stVer = s.stVer := rfl
@[simp] theorem raise_membuf (c : FaultCode) (v : Half) (s : State) : (raise c v s).membuf = s.membuf := rfl
@[simp] theorem raise_job (c : FaultCode) (v : Half) (s : State) : (raise c v s).job = s.job := rfl
@[simp] theorem raise_env (c : FaultCode) (v : Half) (s : State) : (raise c v s).env = s.env := rfl

/-! ## `setI` -/

@[simp] theorem setI_cfg (b : Bool) (s : State) : (setI b s).cfg = s.cfg := rfl
@[simp] theorem setI_launch (b : Bool) (s : State) : (setI b s).launch = s.launch := rfl
@[simp] theorem setI_prog (b : Bool) (s : State) : (setI b s).prog = s.prog := rfl
@[simp] theorem setI_mpc (b : Bool) (s : State) : (setI b s).mpc = s.mpc := rfl
@[simp] theorem setI_ret (b : Bool) (s : State) : (setI b s).ret = s.ret := rfl
@[simp] theorem setI_i (b : Bool) (s : State) : (setI b s).i = b := rfl
@[simp] theorem setI_ctx (b : Bool) (s : State) : (setI b s).ctx = s.ctx := rfl
@[simp] theorem setI_csStack (b : Bool) (s : State) : (setI b s).csStack = s.csStack := rfl
@[simp] theorem setI_fault (b : Bool) (s : State) : (setI b s).fault = s.fault := rfl
@[simp] theorem setI_smpReady (b : Bool) (s : State) : (setI b s).smpReady = s.smpReady := rfl
@[simp] theorem setI_samples (b : Bool) (s : State) : (setI b s).samples = s.samples := rfl
@[simp] theorem setI_cur (b : Bool) (s : State) : (setI b s).cur = s.cur := rfl
@[simp] theorem setI_adcCtrl (b : Bool) (s : State) : (setI b s).adcCtrl = s.adcCtrl := rfl
@[simp] theorem setI_sel (b : Bool) (s : State) : (setI b s).sel = s.sel := rfl
@[simp] theorem setI_convActive (b : Bool) (s : State) : (setI b s).convActive = s.convActive := rfl
@[simp] theorem setI_convCh (b : Bool) (s : State) : (setI b s).convCh = s.convCh := rfl
@[simp] theorem setI_adcData (b : Bool) (s : State) : (setI b s).adcData = s.adcData := rfl
@[simp] theorem setI_doneCh (b : Bool) (s : State) : (setI b s).doneCh = s.doneCh := rfl
@[simp] theorem setI_rotReady (b : Bool) (s : State) : (setI b s).rotReady = s.rotReady := rfl
@[simp] theorem setI_rs (b : Bool) (s : State) : (setI b s).rs = s.rs := rfl
@[simp] theorem setI_acc (b : Bool) (s : State) : (setI b s).acc = s.acc := rfl
@[simp] theorem setI_pinA (b : Bool) (s : State) : (setI b s).pinA = s.pinA := rfl
@[simp] theorem setI_pinB (b : Bool) (s : State) : (setI b s).pinB = s.pinB := rfl
@[simp] theorem setI_pcie (b : Bool) (s : State) : (setI b s).pcie = s.pcie := rfl
@[simp] theorem setI_pcif (b : Bool) (s : State) : (setI b s).pcif = s.pcif := rfl
@[simp] theorem setI_ee (b : Bool) (s : State) : (setI b s).ee = s.ee := rfl
@[simp] theorem setI_stReady (b : Bool) (s : State) : (setI b s).stReady = s.stReady := rfl
@[simp] theorem setI_stSlot (b : Bool) (s : State) : (setI b s).stSlot = s.stSlot := rfl
@[simp] theorem setI_stVer (b : Bool) (s : State) : (setI b s).stVer = s.stVer := rfl
@[simp] theorem setI_membuf (b : Bool) (s : State) : (setI b s).membuf = s.membuf := rfl
@[simp] theorem setI_job (b : Bool) (s : State) : (setI b s).job = s.job := rfl
@[simp] theorem setI_env (b : Bool) (s : State) : (setI b s).env = s.env := rfl

/-! ## `pushSection` -/

@[simp] theorem pushSection_cfg (s : State) : (pushSection s).cfg = s.cfg := rfl
@[simp] theorem pushSection_launch (s : State) : (pushSection s).launch = s.launch := rfl
@[simp] theorem pushSection_prog (s : State) : (pushSection s).prog = s.prog := rfl
@[simp] theorem pushSection_mpc (s : State) : (pushSection s).mpc = s.mpc := rfl
@[simp] theorem pushSection_ret (s : State) : (pushSection s).ret = s.ret := rfl
@[simp] theorem pushSection_i (s : State) : (pushSection s).i = false := rfl
@[simp] theorem pushSection_ctx (s : State) : (pushSection s).ctx = s.ctx := rfl
@[simp] theorem pushSection_csStack (s : State) : (pushSection s).csStack = s.csStack ++ [s.i] := rfl
@[simp] theorem pushSection_fault (s : State) : (pushSection s).fault = s.fault := rfl
@[simp] theorem pushSection_smpReady (s : State) : (pushSection s).smpReady = s.smpReady := rfl
@[simp] theorem pushSection_samples (s : State) : (pushSection s).samples = s.samples := rfl
@[simp] theorem pushSection_cur (s : State) : (pushSection s).cur = s.cur := rfl
@[simp] theorem pushSection_adcCtrl (s : State) : (pushSection s).adcCtrl = s.adcCtrl := rfl
@[simp] theorem pushSection_sel (s : State) : (pushSection s).sel = s.sel := rfl
@[simp] theorem pushSection_convActive (s : State) : (pushSection s).convActive = s.convActive := rfl
@[simp] theorem pushSection_convCh (s : State) : (pushSection s).convCh = s.convCh := rfl
@[simp] theorem pushSection_adcData (s : State) : (pushSection s).adcData = s.adcData := rfl
@[simp] theorem pushSection_doneCh (s : State) : (pushSection s).doneCh = s.doneCh := rfl
@[simp] theorem pushSection_rotReady (s : State) : (pushSection s).rotReady = s.rotReady := rfl
@[simp] theorem pushSection_rs (s : State) : (pushSection s).rs = s.rs := rfl
@[simp] theorem pushSection_acc (s : State) : (pushSection s).acc = s.acc := rfl
@[simp] theorem pushSection_pinA (s : State) : (pushSection s).pinA = s.pinA := rfl
@[simp] theorem pushSection_pinB (s : State) : (pushSection s).pinB = s.pinB := rfl
@[simp] theorem pushSection_pcie (s : State) : (pushSection s).pcie = s.pcie := rfl
@[simp] theorem pushSection_pcif (s : State) : (pushSection s).pcif = s.pcif := rfl
@[simp] theorem pushSection_ee (s : State) : (pushSection s).ee = s.ee := rfl
@[simp] theorem pushSection_stReady (s : State) : (pushSection s).stReady = s.stReady := rfl
@[simp] theorem pushSection_stSlot (s : State) : (pushSection s).stSlot = s.stSlot := rfl
@[simp] theorem pushSection_stVer (s : State) : (pushSection s).stVer = s.stVer := rfl
@[simp] theorem pushSection_membuf (s : State) : (pushSection s).membuf = s.membuf := rfl
@[simp] theorem pushSection_job (s : State) : (pushSection s).job = s.job := rfl
@[simp] theorem pushSection_env (s : State) : (pushSection s).env = s.env := rfl

/-! ## `armChannel` -/

@[simp] theorem armChannel_cfg (c : BitVec 4) (s : State) : (armChannel c s).cfg = s.cfg := rfl
@[simp] theorem armChannel_launch (c : BitVec 4) (s : State) : (armChannel c s).launch = s.launch := rfl
@[simp] theorem armChannel_prog (c : BitVec 4) (s : State) : (armChannel c s).prog = s.prog := rfl
@[simp] theorem armChannel_mpc (c : BitVec 4) (s : State) : (armChannel c s).mpc = s.mpc := rfl
@[simp] theorem armChannel_ret (c : BitVec 4) (s : State) : (armChannel c s).ret = s.ret := rfl
@[simp] theorem armChannel_i (c : BitVec 4) (s : State) : (armChannel c s).i = s.i := rfl
@[simp] theorem armChannel_ctx (c : BitVec 4) (s : State) : (armChannel c s).ctx = s.ctx := rfl
@[simp] theorem armChannel_csStack (c : BitVec 4) (s : State) : (armChannel c s).csStack = s.csStack := rfl
@[simp] theorem armChannel_fault (c : BitVec 4) (s : State) : (armChannel c s).fault = s.fault := rfl
@[simp] theorem armChannel_smpReady (c : BitVec 4) (s : State) : (armChannel c s).smpReady = s.smpReady := rfl
@[simp] theorem armChannel_samples (c : BitVec 4) (s : State) : (armChannel c s).samples = s.samples := rfl
@[simp] theorem armChannel_cur (c : BitVec 4) (s : State) : (armChannel c s).cur = s.cur := rfl
@[simp] theorem armChannel_adcCtrl (c : BitVec 4) (s : State) : (armChannel c s).adcCtrl = s.adcCtrl := rfl
@[simp] theorem armChannel_sel (c : BitVec 4) (s : State) : (armChannel c s).sel = ⟨s.sel.other, c⟩ := rfl
@[simp] theorem armChannel_convActive (c : BitVec 4) (s : State) : (armChannel c s).convActive = s.convActive := rfl
@[simp] theorem armChannel_convCh (c : BitVec 4) (s : State) : (armChannel c s).convCh = s.convCh := rfl
@[simp] theorem armChannel_adcData (c : BitVec 4) (s : State) : (armChannel c s).adcData = s.adcData := rfl
@[simp] theorem armChannel_doneCh (c : BitVec 4) (s : State) : (armChannel c s).doneCh = s.doneCh := rfl
@[simp] theorem armChannel_rotReady (c : BitVec 4) (s : State) : (armChannel c s).rotReady = s.rotReady := rfl
@[simp] theorem armChannel_rs (c : BitVec 4) (s : State) : (armChannel c s).rs = s.rs := rfl
@[simp] theorem armChannel_acc (c : BitVec 4) (s : State) : (armChannel c s).acc = s.acc := rfl
@[simp] theorem armChannel_pinA (c : BitVec 4) (s : State) : (armChannel c s).pinA = s.pinA := rfl
@[simp] theorem armChannel_pinB (c : BitVec 4) (s : State) : (armChannel c s).pinB = s.pinB := rfl
@[simp] theorem armChannel_pcie (c : BitVec 4) (s : State) : (armChannel c s).pcie = s.pcie := rfl
@[simp] theorem armChannel_pcif (c : BitVec 4) (s : State) : (armChannel c s).pcif = s.pcif := rfl
@[simp] theorem armChannel_ee (c : BitVec 4) (s : State) : (armChannel c s).ee = s.ee := rfl
@[simp] theorem armChannel_stReady (c : BitVec 4) (s : State) : (armChannel c s).stReady = s.stReady := rfl
@[simp] theorem armChannel_stSlot (c : BitVec 4) (s : State) : (armChannel c s).stSlot = s.stSlot := rfl
@[simp] theorem armChannel_stVer (c : BitVec 4) (s : State) : (armChannel c s).stVer = s.stVer := rfl
@[simp] theorem armChannel_membuf (c : BitVec 4) (s : State) : (armChannel c s).membuf = s.membuf := rfl
@[simp] theorem armChannel_job (c : BitVec 4) (s : State) : (armChannel c s).job = s.job := rfl
@[simp] theorem armChannel_env (c : BitVec 4) (s : State) : (armChannel c s).env = s.env := rfl

/-! ## `startConversion` -/

@[simp] theorem startConversion_cfg (s : State) : (startConversion s).cfg = s.cfg := rfl
@[simp] theorem startConversion_launch (s : State) : (startConversion s).launch = s.launch := rfl
@[simp] theorem startConversion_prog (s : State) : (startConversion s).prog = s.prog := rfl
@[simp] theorem startConversion_mpc (s : State) : (startConversion s).mpc = s.mpc := rfl
@[simp] theorem startConversion_ret (s : State) : (startConversion s).ret = s.ret := rfl
@[simp] theorem startConversion_i (s : State) : (startConversion s).i = s.i := rfl
@[simp] theorem startConversion_ctx (s : State) : (startConversion s).ctx = s.ctx := rfl
@[simp] theorem startConversion_csStack (s : State) : (startConversion s).csStack = s.csStack := rfl
@[simp] theorem startConversion_fault (s : State) : (startConversion s).fault = s.fault := rfl
@[simp] theorem startConversion_smpReady (s : State) : (startConversion s).smpReady = s.smpReady := rfl
@[simp] theorem startConversion_samples (s : State) : (startConversion s).samples = s.samples := rfl
@[simp] theorem startConversion_cur (s : State) : (startConversion s).cur = s.cur := rfl
@[simp] theorem startConversion_adcCtrl (s : State) : (startConversion s).adcCtrl = s.adcCtrl := rfl
@[simp] theorem startConversion_sel (s : State) : (startConversion s).sel = s.sel := rfl
@[simp] theorem startConversion_convActive (s : State) : (startConversion s).convActive = true := rfl
@[simp] theorem startConversion_convCh (s : State) : (startConversion s).convCh = s.sel.chsel := rfl
@[simp] theorem startConversion_adcData (s : State) : (startConversion s).adcData = s.adcData := rfl
@[simp] theorem startConversion_doneCh (s : State) : (startConversion s).doneCh = s.doneCh := rfl
@[simp] theorem startConversion_rotReady (s : State) : (startConversion s).rotReady = s.rotReady := rfl
@[simp] theorem startConversion_rs (s : State) : (startConversion s).rs = s.rs := rfl
@[simp] theorem startConversion_acc (s : State) : (startConversion s).acc = s.acc := rfl
@[simp] theorem startConversion_pinA (s : State) : (startConversion s).pinA = s.pinA := rfl
@[simp] theorem startConversion_pinB (s : State) : (startConversion s).pinB = s.pinB := rfl
@[simp] theorem startConversion_pcie (s : State) : (startConversion s).pcie = s.pcie := rfl
@[simp] theorem startConversion_pcif (s : State) : (startConversion s).pcif = s.pcif := rfl
@[simp] theorem startConversion_ee (s : State) : (startConversion s).ee = s.ee := rfl
@[simp] theorem startConversion_stReady (s : State) : (startConversion s).stReady = s.stReady := rfl
@[simp] theorem startConversion_stSlot (s : State) : (startConversion s).stSlot = s.stSlot := rfl
@[simp] theorem startConversion_stVer (s : State) : (startConversion s).stVer = s.stVer := rfl
@[simp] theorem startConversion_membuf (s : State) : (startConversion s).membuf = s.membuf := rfl
@[simp] theorem startConversion_job (s : State) : (startConversion s).job = s.job := rfl
@[simp] theorem startConversion_env (s : State) : (startConversion s).env = s.env := rfl

/-! ## `interruptEntry` -/

@[simp] theorem interruptEntry_cfg (x : Ctx) (s : State) : (interruptEntry x s).cfg = s.cfg := rfl
@[simp] theorem interruptEntry_launch (x : Ctx) (s : State) : (interruptEntry x s).launch = s.launch := rfl
@[simp] theorem interruptEntry_prog (x : Ctx) (s : State) : (interruptEntry x s).prog = s.prog := rfl
@[simp] theorem interruptEntry_mpc (x : Ctx) (s : State) : (interruptEntry x s).mpc = s.mpc := rfl
@[simp] theorem interruptEntry_ret (x : Ctx) (s : State) : (interruptEntry x s).ret = s.ret := rfl
@[simp] theorem interruptEntry_i (x : Ctx) (s : State) : (interruptEntry x s).i = false := rfl
@[simp] theorem interruptEntry_ctx (x : Ctx) (s : State) : (interruptEntry x s).ctx = x := rfl
@[simp] theorem interruptEntry_csStack (x : Ctx) (s : State) : (interruptEntry x s).csStack = s.csStack := rfl
@[simp] theorem interruptEntry_fault (x : Ctx) (s : State) : (interruptEntry x s).fault = s.fault := rfl
@[simp] theorem interruptEntry_smpReady (x : Ctx) (s : State) : (interruptEntry x s).smpReady = s.smpReady := rfl
@[simp] theorem interruptEntry_samples (x : Ctx) (s : State) : (interruptEntry x s).samples = s.samples := rfl
@[simp] theorem interruptEntry_cur (x : Ctx) (s : State) : (interruptEntry x s).cur = s.cur := rfl
@[simp] theorem interruptEntry_adcCtrl (x : Ctx) (s : State) : (interruptEntry x s).adcCtrl = s.adcCtrl := rfl
@[simp] theorem interruptEntry_sel (x : Ctx) (s : State) : (interruptEntry x s).sel = s.sel := rfl
@[simp] theorem interruptEntry_convActive (x : Ctx) (s : State) : (interruptEntry x s).convActive = s.convActive := rfl
@[simp] theorem interruptEntry_convCh (x : Ctx) (s : State) : (interruptEntry x s).convCh = s.convCh := rfl
@[simp] theorem interruptEntry_adcData (x : Ctx) (s : State) : (interruptEntry x s).adcData = s.adcData := rfl
@[simp] theorem interruptEntry_doneCh (x : Ctx) (s : State) : (interruptEntry x s).doneCh = s.doneCh := rfl
@[simp] theorem interruptEntry_rotReady (x : Ctx) (s : State) : (interruptEntry x s).rotReady = s.rotReady := rfl
@[simp] theorem interruptEntry_rs (x : Ctx) (s : State) : (interruptEntry x s).rs = s.rs := rfl
@[simp] theorem interruptEntry_acc (x : Ctx) (s : State) : (interruptEntry x s).acc = s.acc := rfl
@[simp] theorem interruptEntry_pinA (x : Ctx) (s : State) : (interruptEntry x s).pinA = s.pinA := rfl
@[simp] theorem interruptEntry_pinB (x : Ctx) (s : State) : (interruptEntry x s).pinB = s.pinB := rfl
@[simp] theorem interruptEntry_pcie (x : Ctx) (s : State) : (interruptEntry x s).pcie = s.pcie := rfl
@[simp] theorem interruptEntry_pcif (x : Ctx) (s : State) : (interruptEntry x s).pcif = s.pcif := rfl
@[simp] theorem interruptEntry_ee (x : Ctx) (s : State) : (interruptEntry x s).ee = s.ee := rfl
@[simp] theorem interruptEntry_stReady (x : Ctx) (s : State) : (interruptEntry x s).stReady = s.stReady := rfl
@[simp] theorem interruptEntry_stSlot (x : Ctx) (s : State) : (interruptEntry x s).stSlot = s.stSlot := rfl
@[simp] theorem interruptEntry_stVer (x : Ctx) (s : State) : (interruptEntry x s).stVer = s.stVer := rfl
@[simp] theorem interruptEntry_membuf (x : Ctx) (s : State) : (interruptEntry x s).membuf = s.membuf := rfl
@[simp] theorem interruptEntry_job (x : Ctx) (s : State) : (interruptEntry x s).job = s.job := rfl
@[simp] theorem interruptEntry_env (x : Ctx) (s : State) : (interruptEntry x s).env = s.env := rfl

/-! ## `interruptReturn` -/

@[simp] theorem interruptReturn_cfg (s : State) : (interruptReturn s).cfg = s.cfg := rfl
@[simp] theorem interruptReturn_launch (s : State) : (interruptReturn s).launch = s.launch := rfl
@[simp] theorem interruptReturn_prog (s : State) : (interruptReturn s).prog = s.prog := rfl
@[simp] theorem interruptReturn_mpc (s : State) : (interruptReturn s).mpc = s.mpc := rfl
@[simp] theorem interruptReturn_ret (s : State) : (interruptReturn s).ret = s.ret := rfl
@[simp] theorem interruptReturn_i (s : State) : (interruptReturn s).i = true := rfl
@[simp] theorem interruptReturn_ctx (s : State) : (interruptReturn s).ctx = .main := rfl
@[simp] theorem interruptReturn_csStack (s : State) : (interruptReturn s).csStack = s.csStack := rfl
@[simp] theorem interruptReturn_fault (s : State) : (interruptReturn s).fault = s.fault := rfl
@[simp] theorem interruptReturn_smpReady (s : State) : (interruptReturn s).smpReady = s.smpReady := rfl
@[simp] theorem interruptReturn_samples (s : State) : (interruptReturn s).samples = s.samples := rfl
@[simp] theorem interruptReturn_cur (s : State) : (interruptReturn s).cur = s.cur := rfl
@[simp] theorem interruptReturn_adcCtrl (s : State) : (interruptReturn s).adcCtrl = s.adcCtrl := rfl
@[simp] theorem interruptReturn_sel (s : State) : (interruptReturn s).sel = s.sel := rfl
@[simp] theorem interruptReturn_convActive (s : State) : (interruptReturn s).convActive = s.convActive := rfl
@[simp] theorem interruptReturn_convCh (s : State) : (interruptReturn s).convCh = s.convCh := rfl
@[simp] theorem interruptReturn_adcData (s : State) : (interruptReturn s).adcData = s.adcData := rfl
@[simp] theorem interruptReturn_doneCh (s : State) : (interruptReturn s).doneCh = s.doneCh := rfl
@[simp] theorem interruptReturn_rotReady (s : State) : (interruptReturn s).rotReady = s.rotReady := rfl
@[simp] theorem interruptReturn_rs (s : State) : (interruptReturn s).rs = s.rs := rfl
@[simp] theorem interruptReturn_acc (s : State) : (interruptReturn s).acc = s.acc := rfl
@[simp] theorem interruptReturn_pinA (s : State) : (interruptReturn s).pinA = s.pinA := rfl
@[simp] theorem interruptReturn_pinB (s : State) : (interruptReturn s).pinB = s.pinB := rfl
@[simp] theorem interruptReturn_pcie (s : State) : (interruptReturn s).pcie = s.pcie := rfl
@[simp] theorem interruptReturn_pcif (s : State) : (interruptReturn s).pcif = s.pcif := rfl
@[simp] theorem interruptReturn_ee (s : State) : (interruptReturn s).ee = s.ee := rfl
@[simp] theorem interruptReturn_stReady (s : State) : (interruptReturn s).stReady = s.stReady := rfl
@[simp] theorem interruptReturn_stSlot (s : State) : (interruptReturn s).stSlot = s.stSlot := rfl
@[simp] theorem interruptReturn_stVer (s : State) : (interruptReturn s).stVer = s.stVer := rfl
@[simp] theorem interruptReturn_membuf (s : State) : (interruptReturn s).membuf = s.membuf := rfl
@[simp] theorem interruptReturn_job (s : State) : (interruptReturn s).job = s.job := rfl
@[simp] theorem interruptReturn_env (s : State) : (interruptReturn s).env = s.env := rfl

/-! ## `takeAcc` -/

@[simp] theorem takeAcc_cfg (s : State) : (takeAcc s).cfg = s.cfg := rfl
@[simp] theorem takeAcc_launch (s : State) : (takeAcc s).launch = s.launch := rfl
@[simp] theorem takeAcc_prog (s : State) : (takeAcc s).prog = s.prog := rfl
@[simp] theorem takeAcc_mpc (s : State) : (takeAcc s).mpc = s.mpc := rfl
@[simp] theorem takeAcc_ret (s : State) : (takeAcc s).ret = s.ret ++ [(s.mpc, .s16 (BitVec.ofInt 16 s.acc))] := rfl
@[simp] theorem takeAcc_i (s : State) : (takeAcc s).i = s.i := rfl
@[simp] theorem takeAcc_ctx (s : State) : (takeAcc s).ctx = s.ctx := rfl
@[simp] theorem takeAcc_csStack (s : State) : (takeAcc s).csStack = s.csStack := rfl
@[simp] theorem takeAcc_fault (s : State) : (takeAcc s).fault = s.fault := rfl
@[simp] theorem takeAcc_smpReady (s : State) : (takeAcc s).smpReady = s.smpReady := rfl
@[simp] theorem takeAcc_samples (s : State) : (takeAcc s).samples = s.samples := rfl
@[simp] theorem takeAcc_cur (s : State) : (takeAcc s).cur = s.cur := rfl
@[simp] theorem takeAcc_adcCtrl (s : State) : (takeAcc s).adcCtrl = s.adcCtrl := rfl
@[simp] theorem takeAcc_sel (s : State) : (takeAcc s).sel = s.sel := rfl
@[simp] theorem takeAcc_convActive (s : State) : (takeAcc s).convActive = s.convActive := rfl
@[simp] theorem takeAcc_convCh (s : State) : (takeAcc s).convCh = s.convCh := rfl
@[simp] theorem takeAcc_adcData (s : State) : (takeAcc s).adcData = s.adcData := rfl
@[simp] theorem takeAcc_doneCh (s : State) : (takeAcc s).doneCh = s.doneCh := rfl
@[simp] theorem takeAcc_rotReady (s : State) : (takeAcc s).rotReady = s.rotReady := rfl
@[simp] theorem takeAcc_rs (s : State) : (takeAcc s).rs = s.rs := rfl
@[simp] theorem takeAcc_acc (s : State) : (takeAcc s).acc = 0 := rfl
@[simp] theorem takeAcc_pinA (s : State) : (takeAcc s).pinA = s.pinA := rfl
@[simp] theorem takeAcc_pinB (s : State) : (takeAcc s).pinB = s.pinB := rfl
@[simp] theorem takeAcc_pcie (s : State) : (takeAcc s).pcie = s.pcie := rfl
@[simp] theorem takeAcc_pcif (s : State) : (takeAcc s).pcif = s.pcif := rfl
@[simp] theorem takeAcc_ee (s : State) : (takeAcc s).ee = s.ee := rfl
@[simp] theorem takeAcc_stReady (s : State) : (takeAcc s).stReady = s.stReady := rfl
@[simp] theorem takeAcc_stSlot (s : State) : (takeAcc s).stSlot = s.stSlot := rfl
@[simp] theorem takeAcc_stVer (s : State) : (takeAcc s).stVer = s.stVer := rfl
@[simp] theorem takeAcc_membuf (s : State) : (takeAcc s).membuf = s.membuf := rfl
@[simp] theorem takeAcc_job (s : State) : (takeAcc s).job = s.job := rfl
@[simp] theorem takeAcc_env (s : State) : (takeAcc s).env = s.env := rfl

/-! ## `eeFinish` -/

@[simp] theorem eeFinish_cfg (j : EeJob) (s : State) : (eeFinish j s).cfg = s.cfg := rfl
@[simp] theorem eeFinish_launch (j : EeJob) (s : State) : (eeFinish j s).launch = s.launch := rfl
@[simp] theorem eeFinish_prog (j : EeJob) (s : State) : (eeFinish j s).prog = s.prog := rfl
@[simp] theorem eeFinish_mpc (j : EeJob) (s : State) : (eeFinish j s).mpc = s.mpc + 1 := rfl
@[simp] theorem eeFinish_ret (j : EeJob) (s : State) : (eeFinish j s).ret = s.ret ++ [(s.mpc, .bytes j.record)] := rfl
@[simp] theorem eeFinish_i (j : EeJob) (s : State) : (eeFinish j s).i = s.i := rfl
@[simp] theorem eeFinish_ctx (j : EeJob) (s : State) : (eeFinish j s).ctx = s.ctx := rfl
@[simp] theorem eeFinish_csStack (j : EeJob) (s : State) : (eeFinish j s).csStack = s.csStack := rfl
@[simp] theorem eeFinish_fault (j : EeJob) (s : State) : (eeFinish j s).fault = s.fault := rfl
@[simp] theorem eeFinish_smpReady (j : EeJob) (s : State) : (eeFinish j s).smpReady = s.smpReady := rfl
@[simp] theorem eeFinish_samples (j : EeJob) (s : State) : (eeFinish j s).samples = s.samples := rfl
@[simp] theorem eeFinish_cur (j : EeJob) (s : State) : (eeFinish j s).cur = s.cur := rfl
@[simp] theorem eeFinish_adcCtrl (j : EeJob) (s : State) : (eeFinish j s).adcCtrl = s.adcCtrl := rfl
@[simp] theorem eeFinish_sel (j : EeJob) (s : State) : (eeFinish j s).sel = s.sel := rfl
@[simp] theorem eeFinish_convActive (j : EeJob) (s : State) : (eeFinish j s).convActive = s.convActive := rfl
@[simp] theorem eeFinish_convCh (j : EeJob) (s : State) : (eeFinish j s).convCh = s.convCh := rfl
@[simp] theorem eeFinish_adcData (j : EeJob) (s : State) : (eeFinish j s).adcData = s.adcData := rfl
@[simp] theorem eeFinish_doneCh (j : EeJob) (s : State) : (eeFinish j s).doneCh = s.doneCh := rfl
@[simp] theorem eeFinish_rotReady (j : EeJob) (s : State) : (eeFinish j s).rotReady = s.rotReady := rfl
@[simp] theorem eeFinish_rs (j : EeJob) (s : State) : (eeFinish j s).rs = s.rs := rfl
@[simp] theorem eeFinish_acc (j : EeJob) (s : State) : (eeFinish j s).acc = s.acc := rfl
@[simp] theorem eeFinish_pinA (j : EeJob) (s : State) : (eeFinish j s).pinA = s.pinA := rfl
@[simp] theorem eeFinish_pinB (j : EeJob) (s : State) : (eeFinish j s).pinB = s.pinB := rfl
@[simp] theorem eeFinish_pcie (j : EeJob) (s : State) : (eeFinish j s).pcie = s.pcie := rfl
@[simp] theorem eeFinish_pcif (j : EeJob) (s : State) : (eeFinish j s).pcif = s.pcif := rfl
@[simp] theorem eeFinish_ee (j : EeJob) (s : State) : (eeFinish j s).ee = s.ee := rfl
@[simp] theorem eeFinish_stReady (j : EeJob) (s : State) : (eeFinish j s).stReady = true := rfl
@[simp] theorem eeFinish_stSlot (j : EeJob) (s : State) : (eeFinish j s).stSlot = j.slot := rfl
@[simp] theorem eeFinish_stVer (j : EeJob) (s : State) : (eeFinish j s).stVer = j.ver := rfl
@[simp] theorem eeFinish_membuf (j : EeJob) (s : State) : (eeFinish j s).membuf = j.record := rfl
@[simp] theorem eeFinish_job (j : EeJob) (s : State) : (eeFinish j s).job = none := rfl
@[simp] theorem eeFinish_env (j : EeJob) (s : State) : (eeFinish j s).env = s.env := rfl

end Sys2Proof.Laws
end

