-- ==== Sys2Proof/Laws/Exec.lean ====
section
/-! SUPPORT. What each command can do, said once: it raises a fault, or it has its own effect. -/

namespace Sys2Proof.Laws

open Sys2Proof.Machine Sys2Proof.Safety

/-- The transition a pair of levels makes: the table's cell, and the accumulator after it (42_rotary.md R174). -/
def Transition (pa pb : Bool) (s : State) (rs : RotaryState) (acc : Int) : Prop :=
  s.i = false ∧ s.rotReady = true ∧
  ∃ d, tableStep s.cfg.rotTable s.rs (pinPattern pa pb) = some (rs, d) ∧
    (d = 0 ∧ acc = s.acc ∨ d ≠ 0 ∧ accAdd s.cfg s.acc d = some acc)

/-- The effect of a command that raises no fault. -/
def Effect (i : Instr) (s t : State) : Prop :=
  match i with
  | .irqOff => t = advance (setI false s)
  | .irqOn => t = advance (setI true s)
  | .csEnter => t = advance (pushSection s)
  | .csExit => ∃ saved, s.csStack.getLast? = some saved ∧ t = advance { s with i := saved, csStack := s.csStack.dropLast }
  | .fence => t = advance s
  | .assertIoff => s.i = false ∧ t = advance s
  | .smpInit =>
    s.ctx = .main ∧ s.i = false ∧ s.smpReady = false ∧ t = advance (startFreeRunning (seedAll (converterOn s)))
  | .smpGet idx =>
    s.i = false ∧ s.smpReady = true ∧ idx.toNat < s.cfg.n ∧ t = advance (logRet (.u16 (sampleAt s idx.toNat)) s)
  | .smpGetall =>
    s.i = false ∧ s.smpReady = true ∧ t = advance (logRet (.u16s ((List.range s.cfg.n).map (sampleAt s))) s)
  | .smpIsr => s.ctx = .isrAdc ∧ s.i = false ∧ s.smpReady = true ∧ t = storeConversion s
  | .rotInit =>
    s.ctx = .main ∧ s.rotReady = false ∧ t = advance { s with rs := .start, acc := 0, rotReady := true, pcie := true }
  | .rotStep pa pb => ∃ rs acc, Transition pa pb s rs acc ∧ t = advance { s with rs := rs, acc := acc }
  | .rotTake =>
    s.ctx = .main ∧ s.rotReady = true ∧
    ∃ env, t = advance (logRet (.s16 0#16) { s with env := env }) ∨
      s.acc ≠ 0 ∧ t = advance (takeAcc { s with env := env })
  | .rotIsr => s.ctx = .isrPcint ∧ ∃ rs acc, Transition s.pinA s.pinB s rs acc ∧ t = { s with rs := rs, acc := acc }
  | .eeInit clear =>
    ∃ job env,
      (s.job = some job ∧ env = s.env ∨
        s.job = none ∧ s.ctx = .main ∧ s.stReady = false ∧ eeInitPlan clear s = some (job, { s with env := env })) ∧
      (job.ops = [] ∧ t = eeFinish job { s with env := env } ∨
        ∃ op rest, job.ops = op :: rest ∧ eeOpAddr op < s.cfg.eeCap ∧
          t = { s with env := env, ee := eeApply s.ee op, job := some { job with ops := rest } })
  | .eePut offset value =>
    s.ctx = .main ∧ s.stReady = true ∧ offset.toNat < s.cfg.size ∧ putAddr s offset < s.cfg.eeCap ∧
    t = advance { s with ee := eeApply s.ee (.write (putAddr s offset) value) }

/-- A transition that does not fault. -/
theorem rotTransition_ok {pa pb : Bool} {s t : State} (h : rotTransition pa pb s = .ok t) :
    ∃ rs acc, Transition pa pb s rs acc ∧ t = { s with rs := rs, acc := acc } := by
  unfold rotTransition at h
  split_ifs at h with hi hr
  split at h
  · cases h
  · next rs d hs =>
    have hi' : s.i = false := by simpa using hi
    have hr' : s.rotReady = true := by simpa using hr
    split_ifs at h with hd
    · cases h
      exact ⟨rs, s.acc, ⟨hi', hr', d, hs, .inl ⟨hd, rfl⟩⟩, rfl⟩
    · split at h
      · cases h
      · next acc ha =>
        cases h
        exact ⟨rs, acc, ⟨hi', hr', d, hs, .inr ⟨hd, ha⟩⟩, rfl⟩

/-- The zero test's draw changes only the inputs. -/
theorem drawTorn_state (s : State) : (drawTorn s).2 = { s with env := (drawTorn s).2.env } := by
  unfold drawTorn
  split_ifs
  · exact draw_state 2 s
  · rfl

/-- The search changes only the inputs. -/
theorem findNewest_state {s t : State} {r : Option Nat} (h : findNewest s = some (r, t)) :
    t = { s with env := t.env } := by
  unfold findNewest at h
  split at h
  · cases h; rfl
  · cases h; rfl
  · split at h
    · cases h
    · cases h
      exact draw_state _ s

/-- The plan of `EE.INIT` changes only the inputs. -/
theorem eeInitPlan_state {clear : Bool} {s t : State} {job : EeJob} (h : eeInitPlan clear s = some (job, t)) :
    t = { s with env := t.env } := by
  unfold eeInitPlan at h
  split_ifs at h
  · cases h; rfl
  · split at h
    · cases h
    · next hf => cases h; exact findNewest_state hf
    · next hf => cases h; exact findNewest_state hf

/-- A micro-step of a job. -/
theorem eeContinue_next {job : EeJob} {s t : State} (h : eeContinue job s = .next t) :
    job.ops = [] ∧ t = eeFinish job s ∨
    ∃ op rest, job.ops = op :: rest ∧ eeOpAddr op < s.cfg.eeCap ∧
      t = { s with ee := eeApply s.ee op, job := some { job with ops := rest } } := by
  unfold eeContinue at h
  split at h
  · next ho => exact .inl ⟨ho, by cases h; rfl⟩
  · next op rest ho =>
    obtain ⟨u, hu, ht⟩ := andThen_eq_next h
    obtain ⟨hc, rfl⟩ := eeMicro_next hu
    exact .inr ⟨op, rest, ho, hc, by cases ht; rfl⟩

/-- What `EE.INIT` can do. -/
theorem execEeInit_next {clear : Bool} {s t : State} (h : execEeInit clear s = .next t) :
    (∃ code info, t = raise code info s) ∨ Effect (.eeInit clear) s t := by
  unfold execEeInit at h
  split at h
  · next job hj => exact .inr ⟨job, s.env, .inl ⟨hj, rfl⟩, eeContinue_next h⟩
  · next hj =>
    split_ifs at h with hx hr
    · exact .inl ⟨_, _, by cases h; rfl⟩
    · exact .inl ⟨_, _, by cases h; rfl⟩
    · split at h
      · exact .inl ⟨_, _, by cases h; rfl⟩
      · next job u hp =>
        have hu := eeInitPlan_state hp
        refine .inr ⟨job, u.env, .inr ⟨hj, by simpa using hx, by simpa using hr, by rw [hp, ← hu]⟩, ?_⟩
        rw [hu] at h
        exact eeContinue_next h

/-- What a command can do: raise a fault, or have its effect. -/
theorem exec_next {i : Instr} {s t : State} (h : exec i s = .next t) :
    (∃ code info, t = raise code info s) ∨ Effect i s t := by
  cases i with
  | irqOff => cases h; exact .inr rfl
  | irqOn => cases h; exact .inr rfl
  | csEnter => cases h; exact .inr rfl
  | csExit =>
    simp only [exec, execCsExit] at h
    split at h <;> cases h
    · next u hu =>
      unfold popSection at hu
      split at hu <;> cases hu
      next saved hs => exact .inr ⟨saved, hs, rfl⟩
    · exact .inl ⟨_, _, rfl⟩
  | fence => cases h; exact .inr rfl
  | assertIoff =>
    simp only [exec, execAssertIoff] at h
    split_ifs at h with hi <;> cases h
    · exact .inl ⟨_, _, rfl⟩
    · exact .inr ⟨by simpa using hi, rfl⟩
  | smpInit =>
    simp only [exec, execSmpInit] at h
    split_ifs at h with h1 h2 h3 <;> cases h
    · exact .inl ⟨_, _, rfl⟩
    · exact .inl ⟨_, _, rfl⟩
    · exact .inl ⟨_, _, rfl⟩
    · exact .inr ⟨by simpa using h1, by simpa using h2, by simpa using h3, rfl⟩
  | smpGet idx =>
    simp only [exec, execSmpGet] at h
    split_ifs at h with h1 h2 h3 <;> cases h
    · exact .inl ⟨_, _, rfl⟩
    · exact .inl ⟨_, _, rfl⟩
    · exact .inl ⟨_, _, rfl⟩
    · exact .inr ⟨by simpa using h1, by simpa using h2, by omega, rfl⟩
  | smpGetall =>
    simp only [exec, execSmpGetall] at h
    split_ifs at h with h1 h2 <;> cases h
    · exact .inl ⟨_, _, rfl⟩
    · exact .inl ⟨_, _, rfl⟩
    · exact .inr ⟨by simpa using h1, by simpa using h2, rfl⟩
  | smpIsr =>
    simp only [exec, execSmpIsr] at h
    split_ifs at h with h1 h2 h3 <;> cases h
    · exact .inl ⟨_, _, rfl⟩
    · exact .inl ⟨_, _, rfl⟩
    · exact .inl ⟨_, _, rfl⟩
    · exact .inr ⟨by simpa using h1, by simpa using h2, by simpa using h3, rfl⟩
  | rotInit =>
    simp only [exec, execRotInit] at h
    split_ifs at h with h1 h2 <;> cases h
    · exact .inl ⟨_, _, rfl⟩
    · exact .inl ⟨_, _, rfl⟩
    · exact .inr ⟨by simpa using h1, by simpa using h2, rfl⟩
  | rotStep pa pb =>
    simp only [exec, execRotStep] at h
    split at h <;> cases h
    · next u hu =>
      obtain ⟨rs, acc, ht, rfl⟩ := rotTransition_ok hu
      exact .inr ⟨rs, acc, ht, rfl⟩
    · exact .inl ⟨_, _, rfl⟩
  | rotTake =>
    simp only [exec, execRotTake] at h
    rw [drawTorn_state] at h
    split_ifs at h with h1 h2 h3 h4 <;> cases h
    · exact .inl ⟨_, _, rfl⟩
    · exact .inl ⟨_, _, rfl⟩
    · exact .inr ⟨by simpa using h1, by simpa using h2, s.env, .inl rfl⟩
    · exact .inr ⟨by simpa using h1, by simpa using h2, _, .inl rfl⟩
    · exact .inr ⟨by simpa using h1, by simpa using h2, _, .inr ⟨h3, rfl⟩⟩
  | rotIsr =>
    simp only [exec, execRotIsr] at h
    split_ifs at h with h1
    · cases h; exact .inl ⟨_, _, rfl⟩
    · split at h <;> cases h
      · next u hu =>
        obtain ⟨rs, acc, ht, rfl⟩ := rotTransition_ok hu
        exact .inr ⟨by simpa using h1, rs, acc, ht, rfl⟩
      · exact .inl ⟨_, _, rfl⟩
  | eeInit clear => exact execEeInit_next h
  | eePut offset value =>
    simp only [exec, execEePut] at h
    split_ifs at h with h1 h2 h3
    · cases h; exact .inl ⟨_, _, rfl⟩
    · cases h; exact .inl ⟨_, _, rfl⟩
    · cases h; exact .inl ⟨_, _, rfl⟩
    · obtain ⟨u, hu, ht⟩ := andThen_eq_next h
      obtain ⟨hc, rfl⟩ := eeMicro_next hu
      exact .inr ⟨by simpa using h1, by simpa using h2, by omega, hc, by cases ht; rfl⟩

/-- A command's own effect leaves the fault state alone. -/
theorem effect_fault {i : Instr} {s t : State} (h : Effect i s t) : t.fault = s.fault := by
  cases i with
  | csExit => obtain ⟨_, _, rfl⟩ := h; rfl
  | assertIoff => obtain ⟨_, rfl⟩ := h; rfl
  | smpInit =>
    obtain ⟨_, _, _, rfl⟩ := h
    obtain ⟨_, _, _, _, hf, _⟩ := smpInit_frame s
    rw [hf]
    rfl
  | smpGet => obtain ⟨_, _, _, rfl⟩ := h; rfl
  | smpGetall => obtain ⟨_, _, rfl⟩ := h; rfl
  | smpIsr => obtain ⟨_, _, _, rfl⟩ := h; rfl
  | rotInit => obtain ⟨_, _, rfl⟩ := h; rfl
  | rotStep => obtain ⟨_, _, _, rfl⟩ := h; rfl
  | rotTake => obtain ⟨_, _, _, rfl | ⟨_, rfl⟩⟩ := h <;> rfl
  | rotIsr => obtain ⟨_, _, _, _, rfl⟩ := h; rfl
  | eeInit => obtain ⟨_, _, _, ⟨_, rfl⟩ | ⟨_, _, _, _, rfl⟩⟩ := h <;> rfl
  | eePut => obtain ⟨_, _, _, _, rfl⟩ := h; rfl
  | _ => cases h; rfl

/-- What no command writes. -/
theorem effect_keeps {i : Instr} {s t : State} (h : Effect i s t) :
    t.cfg = s.cfg ∧ t.launch = s.launch ∧ t.prog = s.prog ∧ t.ctx = s.ctx ∧ t.pinA = s.pinA ∧ t.pinB = s.pinB ∧
      t.pcif = s.pcif ∧ t.doneCh = s.doneCh := by
  cases i with
  | csExit => obtain ⟨_, _, rfl⟩ := h; simp
  | assertIoff => obtain ⟨_, rfl⟩ := h; simp
  | smpInit =>
    obtain ⟨_, _, _, rfl⟩ := h
    obtain ⟨_, _, _, _, hf, _⟩ := smpInit_frame s
    rw [hf]
    simp
  | smpGet => obtain ⟨_, _, _, rfl⟩ := h; simp
  | smpGetall => obtain ⟨_, _, rfl⟩ := h; simp
  | smpIsr => obtain ⟨_, _, _, rfl⟩ := h; simp [storeConversion]
  | rotInit => obtain ⟨_, _, rfl⟩ := h; simp
  | rotStep => obtain ⟨_, _, _, rfl⟩ := h; simp
  | rotTake => obtain ⟨_, _, _, rfl | ⟨_, rfl⟩⟩ := h <;> simp
  | rotIsr => obtain ⟨_, _, _, _, rfl⟩ := h; simp
  | eeInit => obtain ⟨_, _, _, ⟨_, rfl⟩ | ⟨_, _, _, _, rfl⟩⟩ := h <;> simp
  | eePut => obtain ⟨_, _, _, _, rfl⟩ := h; simp
  | _ => cases h; simp

@[simp] theorem stepLevels_nil (s : State) : stepLevels [] s = .next s := rfl

@[simp] theorem stepLevels_cons (pa pb : Bool) (rest : List (Bool × Bool)) (s : State) :
    stepLevels ((pa, pb) :: rest) s = andThen (exec (.rotStep pa pb) s) (stepLevels rest) := rfl

/-- A transition without a trigger moves the state and leaves the accumulator (42_rotary.md R174). -/
theorem execRotStep_noTrigger {pa pb : Bool} {s : State} {rs : RotaryState} (hi : s.i = false) (hr : s.rotReady = true)
    (h : tableStep s.cfg.rotTable s.rs (pinPattern pa pb) = some (rs, 0)) :
    exec (.rotStep pa pb) s = .next (advance { s with rs := rs }) := by
  simp [exec, execRotStep, rotTransition, hi, hr, h]

end Sys2Proof.Laws
end

