-- ==== Sys2Proof/Laws/PerInstr.lean ====
section
/-! SUPPORT. One lemma per command: it is well formed, and its word is one of its row of spec/opcode_table.json. -/

namespace Sys2Proof.Laws.Encoding

/-- The fixed bits of the command's row, by fields: the `mask` of spec/opcode_table.json. -/
def rowMask : Instr → Word
  | .smpGet _ => commandWord 0xFF#8 0xFF#8 0#16
  | .rotStep _ _ => commandWord 0xFF#8 0xFC#8 0xFFFF#16
  | .eeInit _ => commandWord 0xFF#8 0xFE#8 0xFFFF#16
  | .eePut _ _ => commandWord 0xFF#8 0#8 0#16
  | .irqOff | .irqOn | .csEnter | .csExit | .fence | .assertIoff | .smpInit | .smpGetall | .smpIsr | .rotInit | .rotTake
  | .rotIsr => 0xFFFFFFFF#32

/-- The value of the fixed bits: the `match` of spec/opcode_table.json. -/
def rowMatch : Instr → Word
  | .irqOff => 0x01000000#32
  | .irqOn => 0x02000000#32
  | .csEnter => 0x03000000#32
  | .csExit => 0x04000000#32
  | .fence => 0x05000000#32
  | .assertIoff => 0x06000000#32
  | .smpInit => 0x10000000#32
  | .smpGet _ => 0x11000000#32
  | .smpGetall => 0x12000000#32
  | .smpIsr => 0x13000000#32
  | .rotInit => 0x20000000#32
  | .rotStep _ _ => 0x21000000#32
  | .rotTake => 0x22000000#32
  | .rotIsr => 0x23000000#32
  | .eeInit _ => 0x30000000#32
  | .eePut _ _ => 0x31000000#32

/-- Fields are masked one by one. -/
theorem commandWord_and (op a op' a' : Byte) (b b' : Half) :
    commandWord op a b &&& commandWord op' a' b' = commandWord (op &&& op') (a &&& a') (b &&& b') := by
  show (op ++ a ++ b : BitVec (8 + 8 + 16)) &&& (op' ++ a' ++ b' : BitVec (8 + 8 + 16)) = _
  rw [BitVec.and_append, BitVec.and_append]
  rfl

/-- The command is well formed and its word matches its row. -/
def Statement (i : Instr) : Prop := i.wellFormed = true ∧ encode i &&& rowMask i = rowMatch i

theorem irqOff : Statement .irqOff := ⟨rfl, rfl⟩

theorem irqOn : Statement .irqOn := ⟨rfl, rfl⟩

theorem csEnter : Statement .csEnter := ⟨rfl, rfl⟩

theorem csExit : Statement .csExit := ⟨rfl, rfl⟩

theorem fence : Statement .fence := ⟨rfl, rfl⟩

theorem assertIoff : Statement .assertIoff := ⟨rfl, rfl⟩

theorem smpInit : Statement .smpInit := ⟨rfl, rfl⟩

theorem smpGet (idx : Half) : Statement (.smpGet idx) :=
  ⟨rfl, by rw [encode, rowMask, commandWord_and, BitVec.and_zero]; rfl⟩

theorem smpGetall : Statement .smpGetall := ⟨rfl, rfl⟩

theorem smpIsr : Statement .smpIsr := ⟨rfl, rfl⟩

theorem rotInit : Statement .rotInit := ⟨rfl, rfl⟩

theorem rotStep (pa pb : Bool) : Statement (.rotStep pa pb) := ⟨rfl, by revert pa pb; decide⟩

theorem rotTake : Statement .rotTake := ⟨rfl, rfl⟩

theorem rotIsr : Statement .rotIsr := ⟨rfl, rfl⟩

theorem eeInit (clear : Bool) : Statement (.eeInit clear) := ⟨rfl, by revert clear; decide⟩

theorem eePut (offset : Half) (value : Byte) : Statement (.eePut offset value) :=
  ⟨rfl, by rw [encode, rowMask, commandWord_and, BitVec.and_zero, BitVec.and_zero]; rfl⟩

end Sys2Proof.Laws.Encoding
end

