-- ==== Sys2Proof/Laws/Store.lean ====
section
/-! SUPPORT. The store's addresses, tags and write sequences (43_store.md R200 to R208). -/

namespace Sys2Proof.Laws

open Sys2Proof.Machine Sys2Proof.Safety

/-! ## Addresses -/

/-- A slot lies before the next one. -/
theorem slotAddr_le_of_lt (cfg : Config) {s t : Nat} (h : s < t) : slotAddr cfg s + cfg.size + 2 ≤ slotAddr cfg t := by
  have := Nat.mul_le_mul_right (cfg.size + 2) (show s + 1 ≤ t from h)
  rw [Nat.add_mul] at this
  simp only [slotAddr]
  omega

/-- A slot lies in the region. -/
theorem slot_in_region {cfg : Config} {slot : Nat} (h : slot < slotCount cfg) :
    slotAddr cfg slot + cfg.size + 2 ≤ slotCount cfg * (cfg.size + 2) := slotAddr_le_of_lt cfg h

/-- The region lies in the store. -/
theorem region_in_store (cfg : Config) : slotCount cfg * (cfg.size + 2) ≤ cfg.eeCap := Nat.div_mul_le_self _ _

/-- `WriteSlot` stays in its slot. -/
theorem writeSlotOps_addr {cfg : Config} {slot : Nat} {ver : Half} {record : List Byte} {op : EeOp}
    (h : op ∈ writeSlotOps cfg slot ver record) :
    slotAddr cfg slot ≤ eeOpAddr op ∧ eeOpAddr op < slotAddr cfg slot + cfg.size + 2 := by
  simp only [writeSlotOps, List.cons_append, List.mem_cons, List.mem_append, List.mem_map, List.mem_range,
    List.not_mem_nil, or_false] at h
  rcases h with rfl | ⟨j, hj, rfl⟩ | rfl | rfl <;> simp only [eeOpAddr] <;> omega

/-- `ClearStore` stays in the region. -/
theorem clearStoreOps_addr {cfg : Config} {first : Nat} {op : EeOp} (h : op ∈ clearStoreOps cfg first) :
    eeOpAddr op < slotCount cfg * (cfg.size + 2) := by
  simp only [clearStoreOps, clearTagOps, clearRestOps, List.mem_append, List.mem_map, List.mem_range,
    List.mem_filter] at h
  rcases h with ⟨t, ht, rfl⟩ | ⟨b, ⟨hb, -⟩, rfl⟩
  · have := slot_in_region (cfg := cfg) (Nat.mod_lt (first + t) (by omega : slotCount cfg > 0))
    simp only [eeOpAddr]
    omega
  · exact hb

/-- `ClearStore` only erases. -/
theorem clearStoreOps_value {cfg : Config} {first : Nat} {op : EeOp} (h : op ∈ clearStoreOps cfg first) :
    eeOpValue op = 0xFF#8 := by
  simp only [clearStoreOps, clearTagOps, clearRestOps, List.mem_append, List.mem_map] at h
  rcases h with ⟨t, ht, rfl⟩ | ⟨b, hb, rfl⟩ <;> rfl

/-! ## Tags and payloads -/

/-- A tag's bytes. -/
theorem highByte_slotTag (cfg : Config) (m : Memory) (slot : Nat) :
    highByte (slotTag cfg m slot) = eeRead m (slotAddr cfg slot + 1) := by
  generalize ha : eeRead m (slotAddr cfg slot + 1) = a
  generalize hb : eeRead m (slotAddr cfg slot) = b
  rw [slotTag, ha, hb, highByte]
  apply BitVec.eq_of_toNat_eq
  have := a.isLt
  have := b.isLt
  rw [BitVec.extractLsb'_toNat, BitVec.toNat_append, ← Nat.shiftLeft_add_eq_or_of_lt (by omega)]
  simp only [Nat.shiftLeft_eq, Nat.shiftRight_eq_div_pow]
  omega

/-- A slot is blank when its tag's high byte is erased (43_store.md R202). -/
theorem slotBlank_eq (cfg : Config) (m : Memory) (slot : Nat) :
    slotBlank cfg m slot = (eeRead m (slotAddr cfg slot + 1) == 0xFF#8) := by
  rw [slotBlank, blankTag, highByte_slotTag]

/-- A tag is its two bytes. -/
theorem tag_of_bytes (ver : Half) : highByte ver ++ lowByte ver = ver := by
  apply BitVec.eq_of_toNat_eq
  have := ver.isLt
  simp only [highByte, lowByte, BitVec.toNat_append, BitVec.extractLsb'_toNat]
  rw [← Nat.shiftLeft_add_eq_or_of_lt (by omega)]
  simp only [Nat.shiftLeft_eq, Nat.shiftRight_eq_div_pow]
  omega

/-- A tag depends on its two bytes. -/
theorem slotTag_congr {cfg : Config} {m m' : Memory} {slot : Nat}
    (h : ∀ a, slotAddr cfg slot ≤ a → a < slotAddr cfg slot + cfg.size + 2 → eeRead m' a = eeRead m a) :
    slotTag cfg m' slot = slotTag cfg m slot := by
  rw [slotTag, slotTag, h _ (by omega) (by omega), h _ (by omega) (by omega)]

/-- A payload depends on its bytes. -/
theorem slotPayload_congr {cfg : Config} {m m' : Memory} {slot : Nat}
    (h : ∀ a, slotAddr cfg slot ≤ a → a < slotAddr cfg slot + cfg.size + 2 → eeRead m' a = eeRead m a) :
    slotPayload cfg m' slot = slotPayload cfg m slot := by
  refine List.map_congr_left fun j hj => h _ (by omega) ?_
  have := List.mem_range.1 hj
  omega

@[simp] theorem slotPayload_length (cfg : Config) (m : Memory) (slot : Nat) : (slotPayload cfg m slot).length = cfg.size := by
  simp [slotPayload]

/-! ## The search -/

/-- The search finds a slot where there is exactly one descent. -/
theorem searchRing_slot {cfg : Config} {m : Memory} {j : Nat} :
    searchRing cfg m = .slot j ↔ allBlank cfg m = false ∧ descents cfg m = [j] := by
  unfold searchRing
  split
  · simp_all
  · next hb =>
    split
    · next k hk => simp_all
    · next hd => simp only [reduceCtorEq, false_iff, not_and]; exact fun _ h => hd j h

/-- The search finds nothing where every slot is blank. -/
theorem searchRing_none {cfg : Config} {m : Memory} : searchRing cfg m = .none ↔ allBlank cfg m = true := by
  unfold searchRing
  split
  · simp_all
  · next hb => split <;> simp_all

/-- The search is broken where `RING_OK` fails. -/
theorem searchRing_broken {cfg : Config} {m : Memory} : searchRing cfg m = .broken ↔ ringOk cfg m = false := by
  unfold searchRing ringOk
  split
  · simp_all
  · next hb =>
    split
    · next k hk => simp_all
    · next hd =>
      simp only [true_iff, Bool.or_eq_false_iff, beq_eq_false_iff_ne]
      exact ⟨by simpa using hb, fun h => by obtain ⟨j, hj⟩ := List.length_eq_one_iff.1 h; exact hd j hj⟩

/-- The slots a search can answer are non-blank slots of the ring (43_store.md R205). -/
theorem mem_descents {cfg : Config} {m : Memory} {j : Nat} (h : j ∈ descents cfg m) :
    j < slotCount cfg ∧ slotKey cfg m ((j + 1) % slotCount cfg) < slotKey cfg m j := by
  simpa [descents, isDescent] using h

/-- A key is `-1` for a blank slot and not negative for any other. -/
theorem slotKey_cases (cfg : Config) (m : Memory) (j : Nat) :
    slotBlank cfg m j = true ∧ slotKey cfg m j = -1 ∨
    slotBlank cfg m j = false ∧ slotKey cfg m j = (slotTag cfg m j).toNat := by
  unfold slotKey tagKey slotBlank
  split <;> simp_all

/-! ## The plan -/

/-- The plans `EE.INIT` can follow (43_store.md R210, R211, R212). -/
theorem eeInitPlan_cases {clear : Bool} {s t : State} {job : EeJob} (h : eeInitPlan clear s = some (job, t)) :
    clear = true ∧ job = seedJob s (clearStoreOps s.cfg 0) ∧ t = s ∨
    clear = false ∧ findNewest s = some (none, t) ∧ job = seedJob s [] ∨
    clear = false ∧ ∃ i, findNewest s = some (some i, t) ∧ job = advanceJob s i := by
  unfold eeInitPlan at h
  split at h
  · next hc => cases h; exact .inl ⟨hc, rfl, rfl⟩
  · next hc =>
    have hc' : clear = false := by simpa using hc
    split at h
    · cases h
    · next u hf => cases h; exact .inr (.inl ⟨hc', hf, rfl⟩)
    · next i u hf => cases h; exact .inr (.inr ⟨hc', i, hf, rfl⟩)

end Sys2Proof.Laws
end

