-- ==== Sys2Proof/Laws/Turns.lean ====
section
/-! SUPPORT. What the turn of each agent can do, said once; every invariant of the machine follows from these cases. -/

namespace Sys2Proof.Laws

open Sys2Proof.Machine Sys2Proof.Safety

/-- What the step of an enabled agent can do. -/
def TurnEffect (u : Turn) (s t : State) : Prop :=
  match u with
  | .main =>
    (∃ i, fetched s = some i ∧ ((∃ code info, t = raise code info s) ∨ Effect i s t)) ∨
    fetched s = none ∧ ∃ info, t = raise .illegalCommand info s
  | .isrAdc =>
    (∃ f : FaultRegs, f.faulted = true ∧ t = { s with fault := f }) ∨
    s.smpReady = true ∧
      t = { s with
            adcCtrl := { s.adcCtrl with iflag := false }, samples := s.samples.set s.cur s.adcData,
            cur := (s.cur + 1) % s.cfg.n,
            sel := { s.sel with chsel := channel s.cfg ((s.cur + 2) % s.cfg.n) }, i := true, ctx := .main }
  | .isrPcint =>
    (∃ f : FaultRegs, f.faulted = true ∧ t = { s with fault := f }) ∨
    ∃ rs acc, Transition s.pinA s.pinB { s with i := false } rs acc ∧
      t = { s with pcif := false, rs := rs, acc := acc, i := true, ctx := .main }
  | .adc =>
    (∃ info, t = raiseBy .adc .adcOverrun info s) ∨
    s.adcCtrl.iflag = false ∧ ∃ (r : Nat) (env : Env), r < 2 ^ s.cfg.adcBits ∧
      t = { s with
            adcData := BitVec.ofNat 16 r, doneCh := s.doneCh ++ [s.convCh], convActive := true,
            convCh := s.sel.chsel, env := env, adcCtrl := { s.adcCtrl with iflag := true } }
  | .pins => ∃ a b env, t = { s with pinA := a, pinB := b, pcif := true, env := env }
  | .power => t = powerLoss s
  | .powerTorn =>
    ∃ (op : EeOp) (u : State) (y : Byte) (env : Env), nextEeOp s = some (op, u) ∧ eeOpAddr op < s.cfg.eeCap ∧
      t = { powerLoss s with ee := eeApply s.ee (.write (eeOpAddr op) y), env := env }

/-- The operation of MAIN's next micro-step changes only the inputs. -/
theorem nextEeOp_state {s u : State} {op : EeOp} (h : nextEeOp s = some (op, u)) : u = { s with env := u.env } := by
  have job_case : ∀ {job : EeJob} {v : State}, jobOp job v = some (op, u) → u = v := by
    intro job v hj
    unfold jobOp at hj
    split at hj
    · cases hj
    · cases hj; rfl
  unfold nextEeOp at h
  split at h
  · cases h
  · split at h
    · next i _ =>
      cases i with
      | eeInit clear =>
        simp only [pendingEeOp, pendingInit] at h
        split at h
        · rw [job_case h]
        · split_ifs at h
          split at h
          · cases h
          · next hp => rw [job_case h]; exact eeInitPlan_state hp
      | eePut offset value =>
        simp only [pendingEeOp, pendingPut] at h
        split_ifs at h
        cases h
        rfl
      | _ => cases h
    · cases h

/-- The conversion-complete service. -/
theorem serviceAdc_next {s t : State} (h : serviceAdc s = .next t) :
    TurnEffect .isrAdc s t := by
  obtain ⟨u, hu, ht⟩ := service_next h
  rcases ht with ⟨hfu, rfl⟩ | ⟨hfu, rfl⟩
  · exact .inl ⟨u.fault, hfu, rfl⟩
  · rcases exec_next (i := .smpIsr) hu with ⟨code, info, rfl⟩ | ⟨-, -, hr, rfl⟩
    · simp at hfu
    · exact .inr ⟨hr, rfl⟩

/-- The pin-change service. -/
theorem servicePcint_next {s t : State} (h : servicePcint s = .next t) : TurnEffect .isrPcint s t := by
  obtain ⟨u, hu, ht⟩ := service_next h
  rcases ht with ⟨hfu, rfl⟩ | ⟨hfu, rfl⟩
  · exact .inl ⟨u.fault, hfu, rfl⟩
  · rcases exec_next (i := .rotIsr) hu with ⟨code, info, rfl⟩ | ⟨-, rs, acc, htr, rfl⟩
    · simp at hfu
    · exact .inr ⟨rs, acc, htr, rfl⟩

/-- The converter's step. -/
theorem adcStep_next {s t : State} (h : adcStep s = .next t) : TurnEffect .adc s t := by
  unfold adcStep at h
  split_ifs at h with hi <;> cases h
  · exact .inl ⟨_, rfl⟩
  · refine .inr ⟨by simpa using hi, (draw (2 ^ s.cfg.adcBits) s).1, (drawResult s).2.env,
      draw_lt (by positivity) s, ?_⟩
    unfold completeConversion
    simp only
    rw [drawResult_state s]
    rfl

/-- What the turn of an enabled agent can do. -/
theorem agentStep_next {u : Turn} {s t : State} (he : enabled u s = true) (h : agentStep u s = .next t) :
    TurnEffect u s t := by
  cases u with
  | main =>
    rcases mainStep_next (enabled_main he).2.2 h with ⟨i, hi, hx⟩ | hn
    · exact .inl ⟨i, hi, exec_next hx⟩
    · exact .inr hn
  | isrAdc => exact serviceAdc_next h
  | isrPcint => exact servicePcint_next h
  | adc => exact adcStep_next h
  | pins =>
    simp only [agentStep, pinsStep] at h
    cases h
    rw [draw_state 3 s]
    exact ⟨_, _, _, rfl⟩
  | power => cases h; rfl
  | powerTorn =>
    simp only [agentStep, powerTornStep] at h
    split at h
    · next hn => simp [enabled, hn] at he
    · next op u hn =>
      obtain ⟨v, hv, ht⟩ := andThen_eq_next h
      obtain ⟨hc, rfl⟩ := eeMicro_next hv
      have hu := nextEeOp_state hn
      rw [draw_state 256 u] at ht hc
      rw [hu] at hc ht
      cases ht
      exact ⟨op, u, _, _, hn, hc, rfl⟩

/-- What a step of the machine can do: from the state with its turn taken, the agent holds or has its effect. -/
theorem step_cases {s t : State} (h : step s = .next t) :
    s.fault.faulted = false ∧ s.cfg.wellFormed s.launch = true ∧
    ∃ (u : Turn) (v : State), takeTurn s = (u, v) ∧ v = { s with env := v.env } ∧
      (enabled u v = false ∧ t = v ∨ enabled u v = true ∧ TurnEffect u v t) := by
  obtain ⟨hf, hw, hr⟩ := step_next h
  exact ⟨hf, hw, _, _, rfl, takeTurn_state s,
    (runTurn_next hr).imp id fun ⟨he, ha⟩ => ⟨he, agentStep_next he ha⟩⟩

/-- The agent that steps is the one the turn names. -/
theorem takes_of_takeTurn {s v : State} {u : Turn} (h : takeTurn s = (u, v)) (he : enabled u v = true) : takes u s := by
  unfold takes
  rw [h]
  exact ⟨rfl, he⟩

/-- Taking the turn leaves the command MAIN fetches. -/
theorem fetched_of_takeTurn {s v : State} {u : Turn} (h : takeTurn s = (u, v)) : fetched v = fetched s := by
  have hv : v = { s with env := v.env } := by
    have := takeTurn_state s
    rwa [h] at this
  rw [hv]
  rfl

end Sys2Proof.Laws
end

