-- ==== Sys2Proof/Tests/Slice0.lean ====
section
/-! SUPPORT. Tests from the spec's own vectors (95_test_vectors.md), ill-formed configurations that the checks refuse,
and, for each obligation with hypotheses, states and operands that meet them. -/

namespace Sys2Proof.Tests

open Sys2Proof.Machine Sys2Proof.Safety

-- One theorem after another: elaborated side by side, their evaluations outgrow the memory the check allows.
set_option Elab.async false

/-! ## Small states -/

/-- The configuration of 95_test_vectors.md: four slots of four bytes. -/
def cfg4 : Config := { defaultConfig with
    size := 2, eeCap := 16, verdicts := [([0xAA#8, 0xBB#8], true), ([0x11#8, 0x22#8], true)] }

/-- The launch inputs of 95_test_vectors.md. -/
def launch4 : Launch := { defaultLaunch with membuf0 := [0x11#8, 0x22#8] }

/-- The first power-on of that configuration, with a program and the choices and draws given. -/
def boot (prog : List Word) (turns : List Turn) (draws : List Nat) : State :=
  State.powerOn cfg4 launch4 prog { turns := turns, draws := draws, ctr := 0 }

/-- The state after a result that is a next state. -/
def after : Result → State
  | .next t => t
  | .fault _ => boot [] [] []
  | .refused _ => boot [] [] []

/-- A state with all three parts initialised, three samples, and the debouncer one transition before a trigger. -/
def ready : State :=
  { boot [] [] [] with
    smpReady := true, samples := [13#16, 22#16, 32#16], rotReady := true, rs := .cwFinal, acc := 5, stReady := true,
    stSlot := 1,
    adcCtrl := { en := true, start := false, free := true, iflag := false, ie := true, pre := 0#3 },
    sel := { other := 0#4, chsel := 1#4 }, convActive := true, pcie := true }

/-- `ready` with both interrupts pending and enabled. -/
def pending : State :=
  { ready with
    i := true, pcif := true, adcData := 7#16, doneCh := [0#4], convCh := 1#4,
    adcCtrl := { en := true, start := false, free := true, iflag := true, ie := true, pre := 0#3 } }

/-- A store whose slots hold the tags given, payloads erased; none for a blank slot. -/
def ring (tags : List (Option Half)) : Memory :=
  (tags.zipIdx.flatMap fun e => match e.1 with
    | some t => [EeOp.write (4 * e.2) (lowByte t), .write (4 * e.2 + 1) (highByte t)]
    | none => []).foldl eeApply []

/-- A store with one record, version 0 in slot 0 (95_test_vectors.md V45). -/
def oneRecord : State := { boot [0x30000000#32] [] [] with ee := [(0, 0x00#8), (1, 0x00#8), (2, 0x11#8), (3, 0x22#8)] }

/-- A ring at the last version, with a payload in slot 3 (V42). -/
def fullRing : State :=
  { boot [0x30000000#32] [] [] with
    ee := eeApplyAll (ring [some 0xFEFC#16, some 0xFEFD#16, some 0xFEFE#16, some 0xFEFF#16])
      [.write 14 0xAA#8, .write 15 0xBB#8] }

/-! ## Well-formedness: each check refuses an ill-formed configuration -/

theorem test_default_wellFormed :
    defaultConfig.wellFormed defaultLaunch = true ∧ cfg4.wellFormed launch4 = true := by decide +kernel

theorem test_every_command_wellFormed : (Instr.eePut 0xFFFF#16 0xFF#8).wellFormed = true := rfl

theorem test_one_channel_refused :
    channelsOk { cfg4 with n := 1, ch := [0] } = false ∧ configOk { cfg4 with n := 1, ch := [0] } = false := by
  decide +kernel

theorem test_many_channels_refused : channelsOk { cfg4 with n := 257, ch := List.replicate 257 0 } = false := by
  decide +kernel

theorem test_missing_descriptor_refused : channelsOk { cfg4 with n := 3, ch := [0, 1] } = false := by decide

theorem test_wide_descriptor_refused :
    codesOk { cfg4 with ch := [0, 1, 16] } = false ∧ codesOk { cfg4 with chselBits := 3, ch := [0, 1, 8] } = false ∧
    codesOk { cfg4 with chselBits := 5 } = false ∧ codesOk { cfg4 with chselBits := 0, ch := [0, 0, 0] } = false := by
  decide

theorem test_result_width_refused :
    adcBitsOk { cfg4 with adcBits := 0 } = false ∧ adcBitsOk { cfg4 with adcBits := 17 } = false := by decide

theorem test_store_refused :
    storeOk { cfg4 with size := 0 } = false ∧ storeOk { cfg4 with eeCap := 7 } = false ∧
    storeOk { cfg4 with eeCap := 8 } = true := by decide

theorem test_accumulator_width_refused :
    accBitsOk { cfg4 with rotAccBits := 0 } = false ∧ accBitsOk { cfg4 with rotAccBits := 17 } = false := by decide

/-- R171, condition 1: 28 cells, each a state and a trigger. -/
theorem test_table_codes_refused :
    tableCodesOk (defaultTable.take 27) = false ∧ tableCodesOk (defaultTable.set 0 0x07#8) = false ∧
    tableCodesOk (defaultTable.set 0 0x30#8) = false := by decide +kernel

/-- Condition 2: a trigger in another row, and one that does not lead to `Start`. -/
theorem test_table_triggers_refused :
    tableTriggersOk (defaultTable.set 0 0x10#8) = false ∧ tableTriggersOk (defaultTable.set 15 0x11#8) = false := by
  decide +kernel

/-- Condition 3: no way from `CwNext` to `CwFinal`. -/
theorem test_table_paths_refused : tablePathsOk (defaultTable.set 10 0x00#8) = false := by decide +kernel

/-- Condition 4: `CwBegin` never falls back to `Start`. -/
theorem test_table_abort_refused :
    tableAbortOk ((defaultTable.set 6 0x01#8).set 7 0x01#8) = false := by decide +kernel

/-- Condition 5: `Start` leads to `CwFinal` at once. -/
theorem test_table_shortcut_refused :
    tableNoShortcut (defaultTable.set 3 0x03#8) 1 1 = false ∧ tableOk (defaultTable.set 3 0x03#8) = false := by
  decide +kernel

theorem test_launch_refused :
    launchOk cfg4 { launch4 with ee0 := [(1, 0#8), (0, 0#8)] } = false ∧
    launchOk cfg4 { launch4 with ee0 := [(0, 0xFF#8)] } = false ∧
    launchOk cfg4 { launch4 with ee0 := [(16, 0#8)] } = false ∧
    launchOk cfg4 { launch4 with membuf0 := [0#8] } = false := by decide

/-! ## Decoding: words of 30_encoding.md R92 and 95_test_vectors.md V10, V11, V12 -/

theorem test_decode_access :
    decode 0x01000000#32 = .ok .irqOff ∧ decode 0x02000000#32 = .ok .irqOn ∧ decode 0x03000000#32 = .ok .csEnter ∧
    decode 0x04000000#32 = .ok .csExit ∧ decode 0x05000000#32 = .ok .fence ∧
    decode 0x06000000#32 = .ok .assertIoff := by decide

theorem test_decode_sampler :
    decode 0x10000000#32 = .ok .smpInit ∧ decode 0x1100FFFF#32 = .ok (.smpGet 65535#16) ∧
    decode 0x12000000#32 = .ok .smpGetall ∧ decode 0x13000000#32 = .ok .smpIsr := by decide

theorem test_decode_debouncer :
    decode 0x20000000#32 = .ok .rotInit ∧ decode 0x21010000#32 = .ok (.rotStep true false) ∧
    decode 0x21020000#32 = .ok (.rotStep false true) ∧ decode 0x22000000#32 = .ok .rotTake ∧
    decode 0x23000000#32 = .ok .rotIsr := by decide

theorem test_decode_store :
    decode 0x30000000#32 = .ok (.eeInit false) ∧ decode 0x30010000#32 = .ok (.eeInit true) ∧
    decode 0x31330001#32 = .ok (.eePut 1#16 0x33#8) ∧ decode 0x31FF0000#32 = .ok (.eePut 0#16 0xFF#8) ∧
    decode 0x3100FFFF#32 = .ok (.eePut 65535#16 0#8) := by decide

theorem test_decode_reserved :
    ([0x00000000#32, 0x07000000#32, 0x14000000#32, 0x24000000#32, 0x32000000#32, 0xFF123456#32].all fun w =>
      decode w == .error .reservedOpcode) = true := by decide

theorem test_decode_nonzero :
    ([0x01000001#32, 0x02010000#32, 0x11010000#32, 0x21040000#32, 0x21030001#32, 0x30020000#32, 0x30000005#32].all
      fun w => decode w == .error .nonzeroField) = true := by decide

theorem test_decodeTableWord : decodeTableWord 32 0x31330001 = some (.eePut 1#16 0x33#8) := by decide

/-! ## One step of each command, with the values of 95_test_vectors.md -/

/-- The state after a command. -/
def run (i : Instr) (s : State) : State := after (exec i s)

/-- The fault a state holds: code, agent, index, info. -/
def faultOf (s : State) : Option (Byte × Agent × Nat × Half) :=
  if s.fault.faulted then some (s.fault.code, s.fault.agent, s.fault.mpc, s.fault.info) else none

/-- V19. -/
theorem test_irqOff : (run .irqOff pending).i = false ∧ (run .irqOff pending).adcCtrl.iflag = true := by decide

/-- V17. -/
theorem test_irqOn :
    (run .irqOn { ready with csStack := [true] }).i = true ∧
    (run .irqOn { ready with csStack := [true] }).csStack = [true] := by decide

/-- V15, second row. -/
theorem test_csEnter :
    (run .csEnter { ready with csStack := [true] }).i = false ∧
    (run .csEnter { ready with csStack := [true] }).csStack = [true, false] := by decide

/-- V15, third and fourth rows. -/
theorem test_csExit :
    (run .csExit { ready with csStack := [true, false] }).i = false ∧
    (run .csExit { ready with csStack := [true] }).i = true := by decide

/-- V15, last row. -/
theorem test_csExit_underflow : faultOf (run .csExit pending) = some (0x09#8, .main, 0, 0#16) := by decide

/-- V19. -/
theorem test_fence : exec .fence ready = .next { ready with mpc := 1 } := rfl

/-- V18. -/
theorem test_assertIoff :
    exec .assertIoff ready = .next { ready with mpc := 1 } ∧
    faultOf (run .assertIoff { pending with mpc := 4 }) = some (0x0A#8, .main, 4, 0#16) := ⟨rfl, by decide⟩

/-- V20's start state. -/
def coldSampler : State :=
  { boot [] [] [10, 20, 30] with
    adcCtrl := { en := false, start := false, free := false, iflag := false, ie := false, pre := 0b110#3 },
    sel := { other := 0xA#4, chsel := 0#4 } }

/-- V20. -/
theorem test_smpInit :
    (run .smpInit coldSampler).samples = [10#16, 20#16, 30#16] ∧
    adcCtrlByte (run .smpInit coldSampler).adcCtrl = 0xAE#8 ∧ selByte (run .smpInit coldSampler).sel = 0xA1#8 ∧
    (run .smpInit coldSampler).convCh = 0#4 ∧ (run .smpInit coldSampler).convActive = true := by decide +kernel

/-- V24. -/
theorem test_smpInit_twice : faultOf (run .smpInit ready) = some (0x04#8, .main, 0, 0x0010#16) := by decide

/-- V23, first row. -/
theorem test_smpGet : (run (.smpGet 2#16) ready).ret = [(0, .u16 32#16)] := by decide

/-- V23, the other rows. -/
theorem test_smpGet_faults :
    faultOf (run (.smpGet 3#16) ready) = some (0x05#8, .main, 0, 3#16) ∧
    faultOf (run (.smpGet 0#16) coldSampler) = some (0x03#8, .main, 0, 0x0011#16) ∧
    faultOf (run (.smpGet 5#16) { coldSampler with i := true }) = some (0x02#8, .main, 0, 0x0011#16) := by decide

/-- P1, index 3. -/
theorem test_smpGetall : (run .smpGetall ready).ret = [(0, .u16s [13#16, 22#16, 32#16])] := by decide

/-- V22's start state, inside the handler. -/
def wrapState : State :=
  { ready with ctx := .isrAdc, cur := 2, adcData := 31#16, sel := { other := 0xA#4, chsel := 0#4 } }

/-- V22. -/
theorem test_smpIsr :
    (run .smpIsr wrapState).samples = [13#16, 22#16, 31#16] ∧ (run .smpIsr wrapState).cur = 0 ∧
    selByte (run .smpIsr wrapState).sel = 0xA1#8 := by decide

/-- V25. -/
theorem test_handler_bodies_from_main :
    faultOf (run .smpIsr ready) = some (0x02#8, .main, 0, 0x0013#16) ∧
    faultOf (run .rotIsr ready) = some (0x02#8, .main, 0, 0x0023#16) := by decide

/-- V35. -/
theorem test_rotInit :
    (run .rotInit { coldSampler with pcif := true }).rs = .start ∧
    (run .rotInit { coldSampler with pcif := true }).pcie = true ∧
    (run .rotInit { coldSampler with pcif := true }).pcif = true := by decide

/-- V34. -/
theorem test_rotInit_twice : faultOf (run .rotInit pending) = some (0x04#8, .main, 0, 0x0020#16) := by decide

/-- V30, rows `CwNext` and `CwFinal`. -/
theorem test_rotStep :
    (run (.rotStep false true) { ready with rs := .cwNext }).rs = .cwFinal ∧
    (run (.rotStep true true) ready).rs = .start ∧ (run (.rotStep true true) ready).acc = 6 := by decide

/-- V32, first row. -/
theorem test_rotStep_limits :
    faultOf (run (.rotStep true true) { ready with acc := 32767 }) = some (0x07#8, .main, 0, 0x7FFF#16) ∧
    (run (.rotStep true true) { ready with acc := 32767, cfg := { cfg4 with rotOvf := .wrap } }).acc = -32768 := by
  decide

/-- V33, second row. -/
theorem test_rotTake :
    (run .rotTake { ready with acc := -2 }).ret = [(0, .s16 0xFFFE#16)] ∧
    (run .rotTake { ready with acc := -2 }).acc = 0 := by decide

/-- V33, the two draws. -/
theorem test_rotTake_torn :
    (run .rotTake { pending with env := { turns := [], draws := [0], ctr := 0 } }).acc = 0 ∧
    (run .rotTake { pending with env := { turns := [], draws := [1], ctr := 0 } }).acc = 5 ∧
    (run .rotTake { pending with env := { turns := [], draws := [1], ctr := 0 } }).ret = [(0, .s16 0#16)] := by decide

/-- V30 in the handler: levels (1, 1) from `CwFinal`. -/
theorem test_rotIsr :
    (run .rotIsr { ready with ctx := .isrPcint }).acc = 6 ∧ (run .rotIsr { ready with ctx := .isrPcint }).mpc = 0 := by
  decide

/-- V45, micro-step 1, and its whole sequence of operations. -/
theorem test_eeInit :
    ((run (.eeInit false) oneRecord).job.map fun j => j.ops) =
      some [.write 6 0x11#8, .write 7 0x22#8, .write 4 0x01#8, .write 5 0x00#8] ∧
    (run (.eeInit false) oneRecord).mpc = 0 := by decide +kernel

/-- V42: 21 EEPROM micro-steps, slot 0, version 0. -/
theorem test_eeInit_overflow :
    ((eeInitPlan false fullRing).map fun p => (p.1.ops.length, p.1.slot, p.1.ver, p.1.record)) =
      some (21, 0, 0#16, [0xAA#8, 0xBB#8]) := by decide +kernel

/-- V46. -/
theorem test_eePut : (run (.eePut 0#16 0x5A#8) ready).ee = [(6, 0x5A#8)] := by decide

/-- V47. -/
theorem test_eePut_faults :
    faultOf (run (.eePut 2#16 0#8) ready) = some (0x06#8, .main, 0, 2#16) ∧
    faultOf (run (.eePut 0#16 0#8) coldSampler) = some (0x03#8, .main, 0, 0x0031#16) := by decide

/-! ## The ring and the other agents -/

/-- V40, rows 2, 5 and 6. -/
theorem test_search :
    searchRing cfg4 (ring [some 0#16, none, none, none]) = .slot 0 ∧
    searchRing cfg4 (ring [some 4#16, some 5#16, some 2#16, some 3#16]) = .slot 1 ∧
    searchRing cfg4 (ring [some 4#16, some 5#16, none, some 3#16]) = .slot 1 := by decide +kernel

/-- V40, the first row and the last two. -/
theorem test_search_none_broken :
    searchRing cfg4 [] = .none ∧
    searchRing cfg4 (ring [none, some 5#16, some 2#16, some 3#16]) = .broken ∧
    searchRing cfg4 (ring [some 5#16, some 5#16, some 5#16, some 5#16]) = .broken := by decide +kernel

/-- V62. -/
theorem test_adc_service :
    (after (runTurn .isrAdc pending)).samples = [7#16, 22#16, 32#16] ∧ (after (runTurn .isrAdc pending)).cur = 1 ∧
    (after (runTurn .isrAdc pending)).sel.chsel = 2#4 ∧ (after (runTurn .isrAdc pending)).i = true := by decide

/-- V64. -/
theorem test_pin_service_fault :
    faultOf (after (runTurn .isrPcint { pending with acc := 32767 })) = some (0x07#8, .isrPcint, 0, 0x7FFF#16) := by
  decide

/-- V26. -/
theorem test_overrun :
    enabled .adc { pending with convCh := 2#4 } = false ∧
    faultOf (after (runTurn .adc { pending with convCh := 2#4, cfg := { cfg4 with adcOverrun := .fault } })) =
      some (0x08#8, .adc, 0, 2#16) := by decide

/-- V71. -/
theorem test_power_loss :
    (after (runTurn .power { pending with mpc := 3 })).ret = [(3, .powerLoss)] ∧
    (after (runTurn .power { pending with mpc := 3 })).smpReady = false := by decide

/-- V12 through the whole machine: the first step after reset. -/
theorem test_first_step :
    faultOf (after (step (State.reset.withFetchWord 32 0xFF123456))) = some (0x01#8, .main, 0, 0xFF12#16) ∧
    (after (step (State.reset.withFetchWord 32 0x02000000))).i = true := by decide +kernel

/-! ## Witnesses: states and operands that meet the hypotheses of each obligation -/

/-- The result is a next state. -/
def isNext : Result → Bool
  | .next _ => true
  | .fault _ => false
  | .refused _ => false

/-- A result that is a next state is `after` it. -/
theorem next_after {r : Result} (h : isNext r = true) : r = .next (after r) := by
  cases r with
  | next s => rfl
  | fault e => cases h
  | refused e => cases h

/-- `s` with a program, and turns and draws to come. -/
def given (s : State) (prog : List Word) (turns : List Turn) (draws : List Nat) : State :=
  { s with prog := prog, env := { turns := turns, draws := draws, ctr := 0 } }

/-- The invariant holds of `pending`, whatever the program, the turns and the draws. -/
theorem inv_pending (prog : List Word) (turns : List Turn) (draws : List Nat) : Inv (given pending prog turns draws) where
  eeCanonical := rfl
  eeWithin := fun _ h => nomatch h
  ctxMain := rfl
  samplesLength := rfl
  cursorBound := fun _ => (by decide : 0 < 3)
  adcEnabled := fun _ => rfl
  pinEnabled := fun _ => rfl
  accRange := fun _ => rfl
  slotBound := fun _ => (by decide : 1 < 16 / (2 + 2))
  membufLength := rfl
  jobCommand := fun h => absurd rfl h
  jobWithin := fun _ h => nomatch h

/-- The pipeline holds of `pending`. -/
theorem pipeline_pending (prog : List Word) (turns : List Turn) (draws : List Nat) :
    Pipeline (given pending prog turns draws) where
  idle := fun h => nomatch h
  cursor := fun _ => rfl
  pending := fun _ _ h => nomatch h
  inFlight := fun _ => rfl
  armed := fun _ => rfl
  done := fun j h => by
    have hj : j = 0 := by simpa [given, Tests.pending] using h
    subst hj
    rfl

theorem witness_IllegalWordsFault :
    (boot [0xFF123456#32] [] []).prog[0]? = some 0xFF123456#32 ∧
    (opField 0xFF123456#32).toNat ∉
      [0x01, 0x02, 0x03, 0x04, 0x05, 0x06, 0x10, 0x11, 0x12, 0x13, 0x20, 0x21, 0x22, 0x23, 0x30, 0x31] ∧
    ((opField 0x01000001#32).toNat = 0x01 ∧ bField 0x01000001#32 ≠ 0#16) ∧
    ((opField 0x11010000#32).toNat = 0x11 ∧ aField 0x11010000#32 ≠ 0#8) ∧
    ((opField 0x21040000#32).toNat = 0x21 ∧ (aField 0x21040000#32).extractLsb' 2 6 ≠ 0#6) ∧
    ((opField 0x30020000#32).toNat = 0x30 ∧ (aField 0x30020000#32).extractLsb' 1 7 ≠ 0#7) := by decide

theorem witness_StepRunsDecodedCommand :
    (boot [0x02000000#32] [.main] []).fault.faulted = false ∧
    (boot [0x02000000#32] [.main] []).cfg.wellFormed (boot [0x02000000#32] [.main] []).launch = true ∧
    (boot [0x02000000#32] [.main] []).env.turns = .main :: [] ∧ (boot [0x02000000#32] [.main] []).ctx = .main ∧
    (boot [0x02000000#32] [.main] []).prog[(boot [0x02000000#32] [.main] []).mpc]? = some 0x02000000#32 ∧
    decode 0x02000000#32 = .ok .irqOn := by decide +kernel

theorem witness_StatesWithoutStep :
    (run .csExit ready).fault.faulted = true ∧ ready.fault.faulted = false ∧
    { cfg4 with n := 1 }.n < 2 ∧ ns { ready with cfg := { cfg4 with eeCap := 7 } } < 2 ∧ tableOk [] = false ∧
    { cfg4 with adcBits := 0 }.adcBits < 1 ∧ 16 < { cfg4 with adcBits := 17 }.adcBits ∧
    ∃ c ∈ { cfg4 with ch := [0, 1, 16] }.ch, 2 ^ cfg4.chselBits ≤ c :=
  ⟨by decide, rfl, by decide, by decide, by decide +kernel, by decide, by decide, 16, by decide, by decide⟩

theorem witness_HeldTurnPasses :
    (boot [] [.main] []).fault.faulted = false ∧
    (boot [] [.main] []).cfg.wellFormed (boot [] [.main] []).launch = true ∧
    (boot [] [.main] []).env.turns = .main :: [] ∧ enabled .main (boot [] [] []) = false := by decide +kernel

theorem witness_AccessCommandsResult :
    ready.i = false ∧ pending.i = true ∧ exec .irqOn pending = .next { pending with i := true, mpc := 1 } ∧
    pending.fault.faulted = false ∧ pending.ctx = .main ∧ pending.adcCtrl.iflag = true ∧ pending.adcCtrl.ie = true ∧
    pending.pcif = true ∧ pending.pcie = true := ⟨rfl, rfl, rfl, rfl, rfl, rfl, rfl, rfl, rfl⟩

theorem witness_SectionExitRestoresMask :
    ({ ready with csStack := [true, false] }.csStack = [true] ++ [false] ∧ ready.csStack = []) ∧
    ∃ t, { pending with csStack := [true] }.csStack = [] ++ [true] ∧
      exec .csExit { pending with csStack := [true] } = .next t ∧ pending.fault.faulted = false ∧ pending.ctx = .main ∧
      pending.adcCtrl.iflag = true ∧ pending.adcCtrl.ie = true ∧ pending.pcif = true ∧ pending.pcie = true :=
  ⟨by decide, _, rfl, rfl, rfl, rfl, rfl, rfl, rfl, rfl⟩

theorem witness_AccessFrame :
    ∃ t, exec .csExit { ready with csStack := [true] } = .next t ∧ exec .assertIoff ready = .next { ready with mpc := 1 } ∧
      exec .irqOn ready = .next { ready with i := true, mpc := 1 } := ⟨_, rfl, rfl, rfl⟩

theorem witness_FaultWritesOnlyFaultState :
    ∃ t, pending.fault.faulted = false ∧ exec .csExit pending = .next t ∧ t.fault.faulted = true := ⟨_, rfl, rfl, rfl⟩

/-- The seeds' draws at the ends of their range. -/
theorem witness_SampleInitResult :
    (configOk coldSampler.cfg = true ∧ coldSampler.samples.length = coldSampler.cfg.n ∧ coldSampler.ctx = .main ∧
      coldSampler.i = false ∧ coldSampler.smpReady = false ∧
      (given coldSampler [] [] [0, 1023, 30]).env.draws = [0, 1023, 30] ++ [] ∧
      [0, 1023, 30].length = coldSampler.cfg.n ∧ ∀ d ∈ [0, 1023, 30], d < 2 ^ coldSampler.cfg.adcBits) ∧
    (pending.i = true ∧ { ready with ctx := .isrAdc }.ctx ≠ .main) ∧
    (ready.ctx = .main ∧ ready.i = false ∧ ready.smpReady = true) := by decide +kernel

theorem witness_SampleReadResult :
    (ready.i = false ∧ ready.smpReady = true ∧ (2#16 : Half).toNat < ready.samples.length ∧
      (2#16 : Half).toNat < ready.cfg.n ∧ ready.cfg.n ≤ (3#16 : Half).toNat ∧ ready.samples.length = ready.cfg.n) ∧
    pending.i = true ∧ coldSampler.i = false ∧ coldSampler.smpReady = false := by decide

theorem witness_SampleIsrResult :
    (wrapState.ctx = .isrAdc ∧ wrapState.i = false ∧ wrapState.smpReady = true) ∧
    (ready.ctx ≠ .isrAdc ∧ { pending with ctx := .isrAdc }.i = true) ∧
    ({ coldSampler with ctx := .isrAdc }.ctx = .isrAdc ∧ coldSampler.i = false ∧ coldSampler.smpReady = false) := by decide

theorem witness_HandlerBodiesNotForMain : ready.ctx = .main := rfl

theorem witness_SamplerFrame :
    (∃ t, exec (.smpGet 2#16) ready = .next t) ∧ (∃ t, exec .smpGetall ready = .next t) ∧
    (∃ t, exec .smpIsr wrapState = .next t) ∧ ∃ t, exec .smpInit coldSampler = .next t :=
  ⟨⟨_, next_after (by decide)⟩, ⟨_, next_after (by decide)⟩, ⟨_, next_after (by decide)⟩,
    ⟨_, next_after (by decide +kernel)⟩⟩

theorem witness_ConversionCompletes :
    (enabled .adc ready = true ∧ (given ready [] [] [1024]).env.draws = 1024 :: []) ∧
    (ready.fault.faulted = false ∧ ready.adcCtrl.en = true ∧ ready.adcCtrl.free = true ∧ ready.convActive = true ∧
      ready.adcCtrl.iflag = false) ∧
    (pending.adcCtrl.en = true ∧ pending.adcCtrl.free = true ∧ pending.convActive = true ∧
      pending.adcCtrl.iflag = true ∧ pending.cfg.adcOverrun = .hold) ∧
    { cfg4 with adcOverrun := .fault }.adcOverrun = .fault := by decide

theorem witness_StepKeepsPipeline :
    ∃ t, Inv (given pending [] [.isrAdc] []) ∧ Pipeline (given pending [] [.isrAdc] []) ∧
      step (given pending [] [.isrAdc] []) = .next t :=
  ⟨_, inv_pending _ _ _, pipeline_pending _ _ _, next_after (by decide +kernel)⟩

theorem witness_SamplesChangeOnlyBy :
    ∃ t, step (given pending [] [.isrAdc] []) = .next t ∧ t.samples ≠ (given pending [] [.isrAdc] []).samples :=
  ⟨_, next_after (by decide +kernel), by decide +kernel⟩

theorem witness_RotaryInitResult :
    (coldSampler.ctx = .main ∧ coldSampler.rotReady = false) ∧ { ready with ctx := .isrAdc }.ctx ≠ .main ∧
    (ready.ctx = .main ∧ ready.rotReady = true) := by decide

/-- With no trigger, with one in range, with one that wraps, and the four faults. -/
theorem witness_RotaryStepResult :
    ((ready.i = false ∧ ready.rotReady = true) ∧
      tableStep ready.cfg.rotTable ready.rs (pinPattern false true) = some (.cwFinal, 0) ∧
      tableStep ready.cfg.rotTable ready.rs (pinPattern true true) = some (.start, 1) ∧
      accAdd ready.cfg ready.acc 1 = some 6 ∧ accAdd { cfg4 with rotOvf := .wrap } 32767 1 = some (-32768)) ∧
    pending.i = true ∧ (coldSampler.i = false ∧ coldSampler.rotReady = false) ∧
    tableStep (defaultTable.set 15 0x1F#8) ready.rs (pinPattern true true) = none ∧
    (ready.cfg.rotOvf = .fault ∧ accInRange ready.cfg.rotAccBits (32767 + 1) = false) := by decide +kernel

theorem witness_RotaryIsrResult :
    ({ ready with ctx := .isrPcint }.ctx = .isrPcint ∧ ready.i = false ∧ ready.rotReady = true ∧
      tableStep ready.cfg.rotTable ready.rs (pinPattern ready.pinA ready.pinB) = some (.start, 1) ∧
      accAdd ready.cfg ready.acc 1 = some 6) ∧
    ready.ctx ≠ .isrPcint := by decide +kernel

/-- At both ends of the range, on either side of each. -/
theorem witness_AccumulatorAdd :
    1 ≤ cfg4.rotAccBits ∧ (-32768 : Int) = -(2 ^ (cfg4.rotAccBits - 1)) ∧ (32767 : Int) = 2 ^ (cfg4.rotAccBits - 1) - 1 ∧
    ((-32768 : Int) ≤ 32766 + 1 ∧ (32766 + 1 : Int) ≤ 32767) ∧ ((-32768 : Int) ≤ -32767 + -1 ∧ (-32767 + -1 : Int) ≤ 32767) ∧
    (32767 : Int) < 32767 + 1 ∧ (-32768 + -1 : Int) < -32768 ∧
    cfg4.rotOvf = .fault ∧ { cfg4 with rotOvf := .wrap }.rotOvf = .wrap := by decide

theorem witness_RotaryTakeResult :
    (ready.ctx = .main ∧ ready.rotReady = true ∧ { ready with acc := 0 }.acc = 0) ∧ (ready.acc ≠ 0 ∧ ready.i = false) ∧
    { cfg4 with rotAccBits := 8 }.rotAccBits ≤ 8 ∧
    (pending.acc ≠ 0 ∧ pending.i = true ∧ 8 < pending.cfg.rotAccBits ∧ (draw 2 (given pending [] [] [1])).1 = 1 ∧
      (draw 2 (given pending [] [] [0])).1 = 0) ∧
    { ready with ctx := .isrAdc }.ctx ≠ .main ∧ (coldSampler.ctx = .main ∧ coldSampler.rotReady = false) := by decide

theorem witness_RotaryFrame :
    (∃ t, exec (.rotStep true true) ready = .next t) ∧ (∃ t, exec .rotIsr { ready with ctx := .isrPcint } = .next t) ∧
    (∃ t, exec .rotTake ready = .next t) ∧ ∃ t, exec .rotInit coldSampler = .next t :=
  ⟨⟨_, next_after (by decide)⟩, ⟨_, next_after (by decide)⟩, ⟨_, next_after (by decide)⟩, ⟨_, next_after (by decide)⟩⟩

theorem witness_TriggerNeedsFullPath :
    tableOk defaultTable = true ∧ (∀ q ∈ [1, 0, 2], q < 4) ∧
    rotWalk defaultTable .start [1, 0, 2] = some (.cwFinal, 0) ∧ tableStep defaultTable .cwFinal 3 = some (.start, 1) ∧
    rotWalk defaultTable .start [2, 0, 1] = some (.ccwFinal, 0) ∧
    tableStep defaultTable .ccwFinal 3 = some (.start, -1) := by decide +kernel

/-- The abort, the reversal after all three states, and the five sequences' common start (42_rotary.md R179). -/
theorem witness_BounceLeavesAccumulator :
    (tableOk cfg4.rotTable = true ∧ { ready with rs := .start }.i = false ∧ { ready with rs := .start }.rotReady = true ∧
      { ready with rs := .start }.rs = .start) ∧
    ([1, 3] = [(true, false), (true, true)].map (fun l : Bool × Bool => pinPattern l.1 l.2) ∧
      completesPath cfg4.rotTable [.cwBegin, .cwNext, .cwFinal] 1 [1, 3] = false ∧
      completesPath cfg4.rotTable [.ccwBegin, .ccwNext, .ccwFinal] (-1) [1, 3] = false) ∧
    (completesPath cfg4.rotTable [.cwBegin, .cwNext, .cwFinal] 1 [1, 0, 2, 0, 1, 3] = false ∧
      completesPath cfg4.rotTable [.ccwBegin, .ccwNext, .ccwFinal] (-1) [1, 0, 2, 0, 1, 3] = false ∧
      completesPath cfg4.rotTable [.cwBegin, .cwNext, .cwFinal] 1 [1, 0, 2, 3] = true) ∧
    (cfg4.rotTable = defaultTable ∧ cfg4.rotAccBits = 16 ∧ { ready with rs := .start, acc := 0 }.acc = 0) := by
  decide +kernel

/-- The first and the last of the codes. -/
theorem witness_FaultCodesNumbered :
    ∀ e ∈ [((.illegalCommand : FaultCode), (0x01#8 : Byte)), (.ringBroken, 0x0C#8)],
      e ∈
        [(.illegalCommand, 0x01#8), (.wrongContext, 0x02#8), (.notInitialized, 0x03#8), (.doubleInit, 0x04#8),
          (.indexRange, 0x05#8), (.offsetRange, 0x06#8), (.accOverflow, 0x07#8), (.adcOverrun, 0x08#8),
          (.csUnderflow, 0x09#8), (.assertFailed, 0x0A#8), (.badTableCell, 0x0B#8), (.ringBroken, 0x0C#8)] := by decide

theorem witness_FullPathsCount : tableOk defaultTable = true := by decide +kernel

/-- `pending` with `I = 0`, so that MAIN may run `ROT.STEP`. -/
theorem inv_masked (prog : List Word) (turns : List Turn) (draws : List Nat) :
    Inv { given pending prog turns draws with i := false } :=
  let h := inv_pending prog turns draws
  ⟨h.1, h.2, h.3, h.4, h.5, h.6, h.7, h.8, h.9, h.10, h.11, h.12⟩

theorem witness_RotationConserved :
    (∃ t, Inv { given pending [0x21030000#32] [.main] [] with i := false } ∧
      runs (.rotStep true true) { given pending [0x21030000#32] [.main] [] with i := false } ∧
      step { given pending [0x21030000#32] [.main] [] with i := false } = .next t ∧ t.rotReady = true ∧
      t.fault.faulted = false) ∧
    (∃ t, Inv (given pending [] [.isrPcint] []) ∧ takes .isrPcint (given pending [] [.isrPcint] []) ∧
      step (given pending [] [.isrPcint] []) = .next t ∧ t.rotReady = true ∧ t.fault.faulted = false) ∧
    pending.cfg.rotOvf = .fault ∧ pending.rotReady = true :=
  ⟨⟨_, inv_masked _ _ _, ⟨⟨by decide +kernel, by decide +kernel⟩, by decide +kernel⟩, next_after (by decide +kernel),
      by decide +kernel, by decide +kernel⟩,
    ⟨_, inv_pending _ _ _, ⟨by decide +kernel, by decide +kernel⟩, next_after (by decide +kernel), by decide +kernel,
      by decide +kernel⟩, rfl, rfl⟩

theorem witness_PutByteResult :
    (memoryWf ready.ee = true ∧ ready.ctx = .main ∧ ready.stReady = true ∧ (1#16 : Half).toNat < ready.cfg.size ∧
      ready.stSlot < ns ready) ∧
    { ready with ctx := .isrAdc }.ctx ≠ .main ∧ coldSampler.stReady = false ∧ ready.cfg.size ≤ (2#16 : Half).toNat := by
  decide

/-- A ring with two descents (95_test_vectors.md V40). -/
def brokenRing : State := { boot [0x30000000#32] [] [] with ee := ring [none, some 5#16, some 2#16, some 3#16] }

theorem witness_StoreInitGuards :
    oneRecord.job = none ∧ { oneRecord with ctx := .isrAdc }.ctx ≠ .main ∧
    (ready.job = none ∧ ready.ctx = .main ∧ ready.stReady = true) := by decide

theorem witness_SearchFindsGreatest :
    (ringOk oneRecord.cfg oneRecord.ee = true ∧ ringOk cfg4 [] = true) ∧
    (ringOk brokenRing.cfg brokenRing.ee = false ∧ brokenRing.cfg.searchBroken = .fault ∧ brokenRing.job = none ∧
      brokenRing.ctx = .main ∧ brokenRing.stReady = false) ∧
    ({ cfg4 with searchBroken := .draw }.searchBroken = .draw ∧ 1 < ns brokenRing ∧
      slotBlank brokenRing.cfg brokenRing.ee 1 = false) := by
  decide +kernel

/-- At the ends of each clause's range: `k` = 1 and 4 = `SIZE` + 2, and 5. -/
theorem witness_WriteSlotCrashStates :
    memoryWf oneRecord.ee = true ∧ [0x11#8, 0x22#8].length = cfg4.size ∧ 4 ≤ cfg4.size + 2 ∧ cfg4.size + 3 ≤ 5 := by decide

theorem witness_ClearStoreErasesRegion : memoryWf fullRing.ee = true ∧ 3 < slotCount cfg4 := by decide +kernel

/-- With `clear = 1` on a broken ring, with `RING_OK`, and with a draw on a broken ring. -/
theorem witness_StoreInitRunsToFinish :
    (configOk oneRecord.cfg = true ∧ oneRecord.job = none ∧ oneRecord.ctx = .main ∧ oneRecord.stReady = false ∧
      ringOk oneRecord.cfg oneRecord.ee = true) ∧
    (brokenRing.job = none ∧ brokenRing.ctx = .main ∧ brokenRing.stReady = false) ∧
    (configOk { cfg4 with searchBroken := .draw } = true ∧ { cfg4 with searchBroken := .draw }.searchBroken = .draw) := by
  decide +kernel

theorem witness_StoreInitMicroStep :
    memoryWf oneRecord.ee = true ∧
    { oneRecord with job := some (advanceJob oneRecord 0) }.job = some (advanceJob oneRecord 0) ∧
    (advanceJob oneRecord 0).ops = .erase 5 :: (advanceJob oneRecord 0).ops.tail ∧
    eeOpAddr (.erase 5) < oneRecord.cfg.eeCap := by decide +kernel

/-- A record the validator rejects (V43). -/
def rejected : State := { oneRecord with cfg := { cfg4 with verdicts := [([0x11#8, 0x22#8], false)] } }

theorem witness_StoreInitSeedsDefault :
    (memoryWf oneRecord.ee = true ∧ configOk oneRecord.cfg = true ∧ oneRecord.membuf.length = oneRecord.cfg.size) ∧
    (allBlank cfg4 (boot [] [] []).ee = true ∧ memoryWf (boot [] [] []).ee = true) ∧
    (searchRing rejected.cfg rejected.ee = .slot 0 ∧
      accepts rejected.cfg (slotPayload rejected.cfg rejected.ee 0) = false ∧ configOk rejected.cfg = true) := by
  decide +kernel

theorem witness_StoreInitAdvances :
    (memoryWf oneRecord.ee = true ∧ configOk oneRecord.cfg = true ∧ searchRing oneRecord.cfg oneRecord.ee = .slot 0 ∧
      accepts oneRecord.cfg (slotPayload oneRecord.cfg oneRecord.ee 0) = true ∧
      slotTag oneRecord.cfg oneRecord.ee 0 ≠ 0xFEFF#16) ∧
    (memoryWf fullRing.ee = true ∧ configOk fullRing.cfg = true ∧ searchRing fullRing.cfg fullRing.ee = .slot 3 ∧
      accepts fullRing.cfg (slotPayload fullRing.cfg fullRing.ee 3) = true ∧
      slotTag fullRing.cfg fullRing.ee 3 = 0xFEFF#16) := by decide +kernel

/-- And `k` at the last power-loss point before the end, 4, and at the end, 5. -/
theorem witness_AdvanceSurvivesPowerLoss :
    memoryWf oneRecord.ee = true ∧ configOk oneRecord.cfg = true ∧ searchRing oneRecord.cfg oneRecord.ee = .slot 0 ∧
    slotTag oneRecord.cfg oneRecord.ee 0 ≠ 0xFEFF#16 ∧
    accepts oneRecord.cfg (slotPayload oneRecord.cfg oneRecord.ee 0) = true ∧
    eeInitPlan false oneRecord = some (advanceJob oneRecord 0, oneRecord) ∧
    4 < (advanceJob oneRecord 0).ops.length ∧ (advanceJob oneRecord 0).ops.length ≤ 5 := by decide +kernel

theorem witness_InitKeepsRing :
    (ringOk fullRing.cfg fullRing.ee = true ∧ memoryWf fullRing.ee = true ∧ configOk fullRing.cfg = true ∧
      eeInitPlan false fullRing = some (advanceJob fullRing 3, fullRing)) ∧
    (ringOk rejected.cfg rejected.ee = true ∧ eeInitPlan false rejected = some (advanceJob rejected 0, rejected)) := by
  decide +kernel

theorem witness_StoreFrame :
    (∃ t, exec (.eePut 1#16 0x33#8) ready = .next t) ∧ (∃ t, exec (.eeInit false) oneRecord = .next t) ∧
    pendingInit false oneRecord = some (.erase 5, oneRecord) ∧ pendingInit false ready = none :=
  ⟨⟨_, next_after (by decide)⟩, ⟨_, next_after (by decide +kernel)⟩, by decide +kernel, by decide +kernel⟩

/-- `oneRecord` one micro-step into its `EE.INIT`, power about to be lost in a byte write that need not be atomic. -/
def torn : State :=
  { given oneRecord [0x30000000#32] [.powerTorn] [0x37] with
    cfg := { oneRecord.cfg with eeByteAtomic := false }, job := some (advanceJob oneRecord 0) }

theorem witness_StoreChangesOnlyBy :
    (∃ t, step (given pending [0x31330001#32] [.main] []) = .next t ∧
      t.ee ≠ (given pending [0x31330001#32] [.main] []).ee) ∧
    ∃ t, step torn = .next t ∧ t.ee ≠ torn.ee :=
  ⟨⟨_, next_after (by decide +kernel), by decide +kernel⟩, ⟨_, next_after (by decide +kernel), by decide +kernel⟩⟩

theorem witness_StoreTailUntouched :
    ∃ t, Inv (given pending [0x31330001#32] [.main] []) ∧ step (given pending [0x31330001#32] [.main] []) = .next t ∧
      ns pending * (pending.cfg.size + 2) ≤ 16 :=
  ⟨_, inv_pending _ _ _, next_after (by decide +kernel), by decide⟩

theorem witness_AdcServiceStep : enabled .isrAdc pending = true ∧ pending.smpReady = true := by decide

/-- In range; a transition without a trigger; and an overflow. -/
theorem witness_PinServiceStep :
    (enabled .isrPcint pending = true ∧ pending.rotReady = true ∧
      tableStep pending.cfg.rotTable pending.rs (pinPattern pending.pinA pending.pinB) = some (.start, 1) ∧
      accAdd pending.cfg pending.acc 1 = some 6) ∧
    tableStep pending.cfg.rotTable .start (pinPattern pending.pinA pending.pinB) = some (.start, 0) ∧
    (accInRange pending.cfg.rotAccBits (32767 + 1) = false ∧ pending.cfg.rotOvf = .fault) := by decide +kernel

theorem witness_ExclusionKeepsHandlerData :
    ∃ t, (given ready [] [.adc] [9]).i = false ∧ step (given ready [] [.adc] [9]) = .next t ∧ t.adcData = 9#16 ∧
      ¬ takes .main (given ready [] [.adc] [9]) ∧ ¬ takes .power (given ready [] [.adc] [9]) ∧
      ¬ takes .powerTorn (given ready [] [.adc] [9]) :=
  ⟨_, rfl, next_after (by decide +kernel), by decide +kernel, fun h => absurd h.1 (by decide),
    fun h => absurd h.1 (by decide), fun h => absurd h.1 (by decide)⟩

theorem witness_ServicesCommute :
    ∃ t u, enabled .isrAdc pending = true ∧ enabled .isrPcint pending = true ∧ pending.smpReady = true ∧
      andThen (runTurn .isrAdc pending) (runTurn .isrPcint) = .next t ∧ t.fault.faulted = false ∧
      andThen (runTurn .isrPcint pending) (runTurn .isrAdc) = .next u ∧ u.fault.faulted = false :=
  ⟨_, _, by decide, by decide, rfl, next_after (by decide +kernel), by decide +kernel, next_after (by decide +kernel),
    by decide +kernel⟩

theorem witness_PinChange :
    ready.fault.faulted = false ∧ (false ≠ ready.pinA ∨ true ≠ ready.pinB) ∧ (true ≠ ready.pinA ∨ false ≠ ready.pinB) ∧
    (false ≠ ready.pinA ∨ false ≠ ready.pinB) := by decide

theorem witness_PowerLossResets : ready.fault.faulted = false := rfl

theorem witness_TornByteWrite :
    enabled .powerTorn ready = false ∧
    (memoryWf torn.ee = true ∧ enabled .powerTorn torn = true ∧ nextEeOp torn = some (.erase 5, torn) ∧
      eeOpAddr (.erase 5) < torn.cfg.eeCap ∧ torn.env.draws = 0x37 :: []) := by decide +kernel

theorem witness_PowerOnValues : boot [] [] [] = State.powerOn cfg4 launch4 [] { turns := [], draws := [], ctr := 0 } := rfl

theorem witness_InvariantsAtPowerOn : cfg4.wellFormed launch4 = true := by decide +kernel

/-- The steps of the agents of `pending`, for the statements about every step. -/
theorem witness_StepKeepsInvariant :
    ∃ t u, Inv (given pending [0x22000000#32] [.main] [1]) ∧
      step (given pending [0x22000000#32] [.main] [1]) = .next t ∧ t.ret ≠ [] ∧
      step (given pending [] [.power] []) = .next u ∧ u.smpReady = false :=
  ⟨_, _, inv_pending _ _ _, next_after (by decide +kernel), by decide +kernel, next_after (by decide +kernel),
    by decide +kernel⟩

theorem witness_UnfaultedStateSteps :
    Inv (given pending [] [] []) ∧ (given pending [] [] []).fault.faulted = false ∧
    (given pending [] [] []).cfg.wellFormed (given pending [] [] []).launch = true :=
  ⟨inv_pending _ _ _, rfl, by decide +kernel⟩

theorem witness_StepKeepsParameters : ∃ t, step (given pending [] [.pins] [0]) = .next t :=
  ⟨_, next_after (by decide +kernel)⟩

theorem witness_ResultLogOnlyGrows : ∃ t, step (given pending [0x22000000#32] [.main] [0]) = .next t ∧ t.ret ≠ pending.ret :=
  ⟨_, next_after (by decide +kernel), by decide +kernel⟩

theorem witness_PositionMovesOnlyByMain :
    (∃ t, step (given pending [0x05000000#32] [.main] []) = .next t ∧ t.mpc ≠ pending.mpc) ∧
    ∃ t, step { given pending [] [.power] [] with mpc := 3 } = .next t ∧ t.mpc ≠ 3 :=
  ⟨⟨_, next_after (by decide +kernel), by decide +kernel⟩, ⟨_, next_after (by decide +kernel), by decide +kernel⟩⟩

end Sys2Proof.Tests
end

section
/-! The statements of 10_state.md: what a step writes, and the invariant that every step keeps. -/

namespace Sys2Proof.StateProofs

open Sys2Proof.Machine Sys2Proof.Safety Sys2Proof.Laws

/-! ## What a command writes -/

/-- Where a command without a fault may leave its mark on the position, the log, the samples and the store. -/
structure CommandFrame (i : Instr) (s t : State) : Prop where
  position : t.mpc = s.mpc ∨ t.mpc = s.mpc + 1
  log : ∃ more, t.ret = s.ret ++ more
  samples : t.samples = s.samples ∨ i = .smpInit ∨ s.ctx = .isrAdc
  store : t.ee = s.ee ∨ (∃ clear, i = .eeInit clear) ∨ ∃ offset value, i = .eePut offset value

/-- Every command's effect stays in that frame. -/
theorem effect_frame {i : Instr} {s t : State} (h : Effect i s t) : CommandFrame i s t := by
  cases i with
  | csExit => obtain ⟨_, _, rfl⟩ := h; constructor <;> simp
  | assertIoff => obtain ⟨_, rfl⟩ := h; constructor <;> simp
  | smpInit =>
    obtain ⟨_, _, _, rfl⟩ := h
    obtain ⟨_, _, _, _, hf, _⟩ := smpInit_frame s
    rw [hf]
    constructor <;> simp
  | smpGet => obtain ⟨_, _, _, rfl⟩ := h; constructor <;> simp
  | smpGetall => obtain ⟨_, _, rfl⟩ := h; constructor <;> simp
  | smpIsr => obtain ⟨hc, _, _, rfl⟩ := h; constructor <;> simp [storeConversion, hc]
  | rotInit => obtain ⟨_, _, rfl⟩ := h; constructor <;> simp
  | rotStep => obtain ⟨_, _, _, rfl⟩ := h; constructor <;> simp
  | rotTake => obtain ⟨_, _, _, rfl | ⟨_, rfl⟩⟩ := h <;> constructor <;> simp
  | rotIsr => obtain ⟨_, _, _, _, rfl⟩ := h; constructor <;> simp
  | eeInit => obtain ⟨_, _, _, ⟨_, rfl⟩ | ⟨_, _, _, _, rfl⟩⟩ := h <;> constructor <;> simp
  | eePut => obtain ⟨_, _, _, _, rfl⟩ := h; constructor <;> simp
  | _ => cases h; constructor <;> simp

/-! ## What an agent's step writes -/

/-- Where the step of turn `u` may leave its mark on the parameters, the position, the log, the samples and the store. -/
structure TurnFrame (u : Turn) (s t : State) : Prop where
  parameters : t.cfg = s.cfg ∧ t.launch = s.launch ∧ t.prog = s.prog
  position : t.mpc = s.mpc ∨ u = .main ∧ t.mpc = s.mpc + 1 ∨ (u = .power ∨ u = .powerTorn) ∧ t.mpc = 0
  log : ∃ more, t.ret = s.ret ++ more
  samples : t.samples = s.samples ∨ u = .main ∧ fetched s = some .smpInit ∨
    u = .isrAdc ∨ u = .power ∨ u = .powerTorn
  store : t.ee = s.ee ∨ u = .powerTorn ∨ u = .main ∧
    ((∃ clear, fetched s = some (.eeInit clear)) ∨ ∃ offset value, fetched s = some (.eePut offset value))

/-- A command MAIN executes in its own context. -/
theorem turnFrame_of_effect {i : Instr} {s t : State} (hc : s.ctx = .main) (hi : fetched s = some i)
    (h : Effect i s t) : TurnFrame .main s t := by
  obtain ⟨hcfg, hlaunch, hprog, -⟩ := effect_keeps h
  obtain ⟨hpos, hlog, hsmp, hee⟩ := effect_frame h
  constructor
  case parameters => exact ⟨hcfg, hlaunch, hprog⟩
  case position => simpa using hpos
  case log => exact hlog
  case samples => simpa [hc, hi] using hsmp
  case store => simpa [hi] using hee

/-- Every enabled agent's step stays in that frame. -/
theorem turnEffect_frame {u : Turn} {s t : State} (he : enabled u s = true) (h : TurnEffect u s t) :
    TurnFrame u s t := by
  cases u with
  | main =>
    obtain ⟨i, hi, ⟨_, _, rfl⟩ | hx⟩ | ⟨_, _, rfl⟩ := h
    · constructor <;> simp [raise]
    · exact turnFrame_of_effect (enabled_main he).2.1 hi hx
    · constructor <;> simp [raise]
  | isrAdc => obtain ⟨_, _, rfl⟩ | ⟨_, rfl⟩ := h <;> constructor <;> simp
  | isrPcint => obtain ⟨_, _, rfl⟩ | ⟨_, _, _, rfl⟩ := h <;> constructor <;> simp
  | adc => obtain ⟨_, rfl⟩ | ⟨_, _, _, _, rfl⟩ := h <;> constructor <;> simp
  | pins => obtain ⟨_, _, _, rfl⟩ := h; constructor <;> simp
  | power => cases h; constructor <;> simp [powerLoss, State.powerOn]
  | powerTorn => obtain ⟨_, _, _, _, _, _, rfl⟩ := h; constructor <;> simp [powerLoss, State.powerOn]

/-- A step: the agent holds and only the inputs change, or an agent has a step, which stays in its frame. -/
theorem step_frame {s t : State} (h : step s = .next t) :
    (∃ env, t = { s with env := env }) ∨ ∃ u, takes u s ∧ TurnFrame u s t := by
  obtain ⟨-, -, u, v, hu, hv, ⟨-, rfl⟩ | ⟨he, hx⟩⟩ := step_cases h
  · exact .inl ⟨_, hv⟩
  · have frame := turnEffect_frame he hx
    rw [hv] at frame
    exact .inr ⟨u, takes_of_takeTurn hu he, { frame with }⟩

/-- Settles O58: no command writes a parameter, and a power loss starts again from the same ones. -/
theorem stepKeepsParameters : Obligations.StepKeepsParameters := by
  intro s t h
  obtain ⟨_, rfl⟩ | ⟨u, -, frame⟩ := step_frame h
  · exact ⟨rfl, rfl, rfl⟩
  · exact frame.parameters

/-- Settles O59: a power loss appends its marker to the log it finds. -/
theorem resultLogOnlyGrows : Obligations.ResultLogOnlyGrows := by
  intro s t h
  obtain ⟨_, rfl⟩ | ⟨u, -, frame⟩ := step_frame h
  · exact ⟨[], by simp⟩
  · exact frame.log

/-- Settles O60: the services, the converter and the pins leave `MPC` alone. -/
theorem positionMovesOnlyByMain : Obligations.PositionMovesOnlyByMain := by
  intro s t h hne
  obtain ⟨_, rfl⟩ | ⟨u, hu, frame⟩ := step_frame h
  · exact absurd rfl hne
  · obtain hsame | ⟨rfl, hnext⟩ | ⟨rfl | rfl, hzero⟩ := frame.position
    · exact absurd hsame hne
    · exact .inl ⟨hu, hnext⟩
    · exact .inr ⟨.inl hu, hzero⟩
    · exact .inr ⟨.inr hu, hzero⟩

/-- Settles O21: of MAIN's commands only `SMP.INIT` writes the samples, since `SMP.ISR` has no effect in MAIN's context. -/
theorem samplesChangeOnlyBy : Obligations.SamplesChangeOnlyBy := by
  intro s t h hne
  obtain ⟨_, rfl⟩ | ⟨u, hu, frame⟩ := step_frame h
  · exact absurd rfl hne
  · obtain hsame | ⟨rfl, hi⟩ | rfl | rfl | rfl := frame.samples
    · exact absurd hsame hne
    · exact .inl ⟨hu, hi⟩
    · exact .inr (.inl hu)
    · exact .inr (.inr (.inl hu))
    · exact .inr (.inr (.inr hu))

/-- Settles O44: of MAIN's commands only `EE.INIT` and `EE.PUT` have an EEPROM micro-step. -/
theorem storeChangesOnlyBy : Obligations.StoreChangesOnlyBy := by
  intro s t h hne
  obtain ⟨_, rfl⟩ | ⟨u, hu, frame⟩ := step_frame h
  · exact absurd rfl hne
  · obtain hsame | rfl | ⟨rfl, ⟨clear, hi⟩ | ⟨offset, value, hi⟩⟩ := frame.store
    · exact absurd hsame hne
    · exact .inr (.inr hu)
    · exact .inl ⟨clear, hu, hi⟩
    · exact .inr (.inl ⟨offset, value, hu, hi⟩)

/-! ## MAIN's turn -/

/-- MAIN's step on a word that is a command. -/
theorem mainStep_of_decode {s : State} {w : Word} {i : Instr} (hw : s.prog[s.mpc]? = some w) (hd : decode w = .ok i) :
    mainStep s = exec i s := by
  simp only [mainStep, hw, hd]

/-- MAIN is enabled in its own context wherever a word stands at `MPC`. -/
theorem enabled_main_of_word {s : State} {w : Word} (hf : s.fault.faulted = false) (hc : s.ctx = .main)
    (hw : s.prog[s.mpc]? = some w) : enabled .main s = true := by
  obtain ⟨hl, -⟩ := List.getElem?_eq_some_iff.1 hw
  simp [enabled, hf, hc, hl]

/-- Settles O5: the turn listed is MAIN's, which is enabled and fetches the word. -/
theorem stepRunsDecodedCommand : Obligations.StepRunsDecodedCommand := by
  intro s ts w i hf hcfg hts hc hw hd
  rw [step_eq hf hcfg, takeTurn_listed hts]
  have he : enabled .main { s with env := { s.env with turns := ts } } = true := enabled_main_of_word hf hc hw
  exact (runTurn_enabled he).trans (mainStep_of_decode hw hd)

/-! ## The accumulator's range (42_rotary.md R176) -/

/-- Zero has every width. -/
theorem accInRange_zero (bits : Nat) : accInRange bits 0 = true := by
  have : (0 : Int) < 2 ^ (bits - 1) := by positivity
  simp only [accInRange, Bool.and_eq_true, decide_eq_true_eq]
  omega

/-- A value wrapped to `bits` bits is in the range of `bits` bits. -/
theorem accInRange_bmod {bits : Nat} (hb : 1 ≤ bits) (t : Int) : accInRange bits (t.bmod (2 ^ bits)) = true := by
  obtain ⟨k, rfl⟩ : ∃ k, bits = k + 1 := ⟨bits - 1, by omega⟩
  have hpow : (2 ^ (k + 1) : Nat) = 2 * 2 ^ k := by ring
  have hlow := Int.le_bmod (x := t) (m := 2 ^ (k + 1)) (by positivity)
  have hhigh := Int.bmod_lt (x := t) (m := 2 ^ (k + 1)) (by positivity)
  rw [hpow] at hlow hhigh
  push_cast at hlow hhigh
  simp only [accInRange, Nat.add_sub_cancel, hpow, Bool.and_eq_true, decide_eq_true_eq]
  omega

/-- `AccAdd` answers a value of the accumulator's width. -/
theorem accInRange_of_accAdd {cfg : Config} {acc d r : Int} (hb : 1 ≤ cfg.rotAccBits) (h : accAdd cfg acc d = some r) :
    accInRange cfg.rotAccBits r = true := by
  unfold accAdd at h
  split at h
  · next hin => cases h; exact hin
  · split at h <;> cases h
    exact accInRange_bmod hb _

/-- A transition keeps the accumulator in its range. -/
theorem accInRange_of_transition {pa pb : Bool} {s : State} {rs : RotaryState} {acc : Int} (hb : 1 ≤ s.cfg.rotAccBits)
    (hacc : s.rotReady = true → accInRange s.cfg.rotAccBits s.acc = true) (h : Transition pa pb s rs acc) :
    accInRange s.cfg.rotAccBits acc = true := by
  obtain ⟨-, hready, d, -, ⟨-, rfl⟩ | ⟨-, hadd⟩⟩ := h
  · exact hacc hready
  · exact accInRange_of_accAdd hb hadd

/-! ## What `EE.INIT` plans stays in the region (20_memory.md R61) -/

/-- Every operation acts in the region of the slots. -/
def InRegion (cfg : Config) (ops : List EeOp) : Prop := ∀ op ∈ ops, eeOpAddr op < slotCount cfg * (cfg.size + 2)

/-- A job stays in the region and finishes with a slot and a record: `Inv.jobWithin` of one job. -/
def JobFits (cfg : Config) (job : EeJob) : Prop :=
  InRegion cfg job.ops ∧ job.slot < slotCount cfg ∧ job.record.length = cfg.size

theorem inRegion_append {cfg : Config} {ops ops' : List EeOp} (h : InRegion cfg ops) (h' : InRegion cfg ops') :
    InRegion cfg (ops ++ ops') :=
  fun op hop => (List.mem_append.1 hop).elim (h op) (h' op)

theorem inRegion_writeSlotOps {cfg : Config} {slot : Nat} (h : slot < slotCount cfg) (ver : Half) (record : List Byte) :
    InRegion cfg (writeSlotOps cfg slot ver record) :=
  fun _ hop => by have := (writeSlotOps_addr hop).2; have := slot_in_region h; omega

theorem inRegion_clearStoreOps (cfg : Config) (first : Nat) : InRegion cfg (clearStoreOps cfg first) :=
  fun _ => clearStoreOps_addr

/-- Writing the caller's default at slot 0 fits after operations that do. -/
theorem jobFits_seedJob {s : State} {before : List EeOp} (hns : 0 < slotCount s.cfg)
    (hm : s.membuf.length = s.cfg.size) (h : InRegion s.cfg before) : JobFits s.cfg (seedJob s before) :=
  ⟨inRegion_append h (inRegion_writeSlotOps hns _ _), hns, hm⟩

/-- The slot an advance writes is one of the ring's. -/
theorem advanceTarget_lt {s : State} (hns : 0 < slotCount s.cfg) (i : Nat) : (advanceTarget s i).1 < slotCount s.cfg := by
  unfold advanceTarget
  split
  · exact hns
  · exact Nat.mod_lt _ hns

theorem inRegion_advanceWipe (s : State) (i : Nat) : InRegion s.cfg (advanceWipe s i) := by
  unfold advanceWipe
  split
  · exact inRegion_clearStoreOps _ _
  · exact fun _ h => absurd h List.not_mem_nil

/-- The advance of a record fits, whether the validator keeps the record or not. -/
theorem jobFits_advanceJob {s : State} (hns : 0 < slotCount s.cfg) (hm : s.membuf.length = s.cfg.size) (i : Nat) :
    JobFits s.cfg (advanceJob s i) := by
  have hcopy := inRegion_append (inRegion_advanceWipe s i) (inRegion_writeSlotOps (advanceTarget_lt hns i)
    (advanceTarget s i).2 (slotPayload s.cfg s.ee i))
  simp only [advanceJob]
  split
  · exact ⟨hcopy, advanceTarget_lt hns i, slotPayload_length _ _ _⟩
  · exact jobFits_seedJob hns hm (inRegion_append hcopy (inRegion_clearStoreOps _ _))

/-- Every plan of `EE.INIT` fits. -/
theorem jobFits_eeInitPlan {clear : Bool} {s t : State} {job : EeJob} (hns : 0 < slotCount s.cfg)
    (hm : s.membuf.length = s.cfg.size) (h : eeInitPlan clear s = some (job, t)) : JobFits s.cfg job := by
  obtain ⟨-, rfl, -⟩ | ⟨-, -, rfl⟩ | ⟨-, i, -, rfl⟩ := eeInitPlan_cases h
  · exact jobFits_seedJob hns hm (inRegion_clearStoreOps _ _)
  · exact jobFits_seedJob hns hm fun _ h => absurd h List.not_mem_nil
  · exact jobFits_advanceJob hns hm i

/-! ## The updates that keep the invariant -/

/-- An EEPROM operation at an address of the store keeps every listed byte inside it. -/
theorem eeApply_within {m : Memory} {op : EeOp} {cap : Nat} (ha : eeOpAddr op < cap) (h : ∀ c ∈ m, c.1 < cap) :
    ∀ c ∈ eeApply m op, c.1 < cap := by
  intro c hc
  obtain hold | rfl := mem_eeSet hc
  · exact h c hold
  · exact ha

section Updates

variable {s : State} (h : Inv s)

include h

/-- The inputs are free. -/
theorem inv_setEnv (env : Env) : Inv { s with env := env } := { h with }

/-- Entering the fault state. -/
theorem inv_setFault (f : FaultRegs) : Inv { s with fault := f } := { h with }

/-- An EEPROM operation at an address of the store. -/
theorem inv_eeApply {op : EeOp} (ha : eeOpAddr op < s.cfg.eeCap) : Inv { s with ee := eeApply s.ee op } :=
  { h with eeCanonical := eeApply_wf op h.eeCanonical, eeWithin := eeApply_within ha h.eeWithin }

/-- MAIN moves on where no command is in progress. -/
theorem inv_advance (hj : s.job = none) : Inv (advance s) := { h with jobCommand := fun hne => absurd hj hne }

/-- A value goes to the log. -/
theorem inv_logRet (v : RetValue) : Inv (logRet v s) := { h with }

/-- The mask and the critical-section stack. -/
theorem inv_setMask (i : Bool) (stack : List Bool) : Inv { s with i := i, csStack := stack } := { h with }

/-- A new state and accumulator of the debouncer. -/
theorem inv_setRotary (rs : RotaryState) {acc : Int} (hacc : accInRange s.cfg.rotAccBits acc = true) :
    Inv { s with rs := rs, acc := acc } :=
  { h with accRange := fun _ => hacc }

/-- The debouncer ready and its interrupt enabled. -/
theorem inv_rotaryOn : Inv { s with rotReady := true, pcie := true, rs := .start, acc := 0 } :=
  { h with pinEnabled := fun _ => rfl, accRange := fun _ => accInRange_zero _ }

/-- `SMP.INIT`'s writes. -/
theorem inv_smpInit (hn : 0 < s.cfg.n) : Inv (startFreeRunning (seedAll (converterOn s))) := by
  obtain ⟨samples, _, _, _, hf, hl⟩ := smpInit_frame s
  rw [hf]
  exact { h with
    samplesLength := hl.trans h.samplesLength, cursorBound := fun _ => hn, adcEnabled := fun _ => rfl }

/-- A micro-step of `EE.INIT` before the last. -/
theorem inv_setJob {job : EeJob} {clear : Bool} (hr : s.stReady = false) (hi : fetched s = some (.eeInit clear))
    (hfit : JobFits s.cfg job) : Inv { s with job := some job } :=
  { h with
    jobCommand := fun _ => ⟨hr, clear, hi⟩, jobWithin := fun _ hj => Option.some.inj hj ▸ hfit }

/-- The last micro-step of `EE.INIT`. -/
theorem inv_eeFinish {job : EeJob} (hfit : JobFits s.cfg job) : Inv (eeFinish job s) := by
  obtain ⟨-, hslot, hrecord⟩ := hfit
  exact { h with
    slotBound := fun _ => hslot, membufLength := hrecord
    jobCommand := fun hne => absurd rfl hne, jobWithin := fun _ hj => nomatch hj }

/-- A command other than `EE.INIT` is never in progress. -/
theorem job_eq_none {i : Instr} (hi : fetched s = some i) (hne : ∀ clear, i ≠ .eeInit clear) : s.job = none := by
  by_contra hj
  obtain ⟨-, clear, hf⟩ := h.jobCommand hj
  exact hne clear (Option.some.inj (hi.symm.trans hf))

end Updates

/-! ## The commands -/

/-- `EE.INIT`: the job, in progress or just planned, fits, and the store is not ready before its last micro-step. -/
theorem inv_eeInit {clear : Bool} {s t : State} (h : Inv s) (hns : 0 < slotCount s.cfg)
    (hi : fetched s = some (.eeInit clear)) (he : Effect (.eeInit clear) s t) : Inv t := by
  obtain ⟨job, env, hjob, hstep⟩ := he
  have hready : s.stReady = false := by
    obtain ⟨hj, -⟩ | ⟨-, -, hr, -⟩ := hjob
    · exact (h.jobCommand (by simp [hj])).1
    · exact hr
  have hfit : JobFits s.cfg job := by
    obtain ⟨hj, -⟩ | ⟨-, -, -, hplan⟩ := hjob
    · exact h.jobWithin job hj
    · exact jobFits_eeInitPlan hns h.membufLength hplan
  obtain ⟨-, rfl⟩ | ⟨op, rest, hops, haddr, rfl⟩ := hstep
  · exact inv_eeFinish (inv_setEnv h env) hfit
  · obtain ⟨hregion, hlast⟩ := hfit
    have hrest : InRegion s.cfg rest := fun o ho => hregion o (hops ▸ List.mem_cons_of_mem _ ho)
    exact inv_setJob (inv_eeApply (inv_setEnv h env) haddr) (clear := clear) hready hi ⟨hrest, hlast⟩

/-- The bounds of a configuration that has runs, as the commands need them. -/
structure Bounds (cfg : Config) : Prop where
  channels : 0 < cfg.n
  slots : 0 < slotCount cfg
  accBits : 1 ≤ cfg.rotAccBits

theorem bounds_of_wellFormed {cfg : Config} {launch : Launch} (h : cfg.wellFormed launch = true) : Bounds cfg := by
  obtain ⟨hn, -, -, -, -, -, hns, hb, -, -⟩ := configOk_bounds (wellFormed_parts h).1
  exact ⟨by omega, by omega, hb⟩

/-- A command other than `EE.INIT` keeps the invariant: it ends in one step, and the handler bodies have no effect in
MAIN's context. -/
theorem inv_effect_of_job_none {i : Instr} {s t : State} (h : Inv s) (hb : Bounds s.cfg) (hj : s.job = none)
    (hne : ∀ clear, i ≠ .eeInit clear) (he : Effect i s t) : Inv t := by
  have hmain := h.ctxMain
  cases i with
  | irqOff | irqOn | csEnter => cases he; exact inv_advance (inv_setMask h _ _) hj
  | csExit => obtain ⟨saved, -, rfl⟩ := he; exact inv_advance (inv_setMask h _ _) hj
  | fence => cases he; exact inv_advance h hj
  | assertIoff => obtain ⟨-, rfl⟩ := he; exact inv_advance h hj
  | smpInit =>
    obtain ⟨-, -, -, rfl⟩ := he
    refine inv_advance (inv_smpInit h hb.channels) ?_
    obtain ⟨_, _, _, _, hf, -⟩ := smpInit_frame s
    rw [hf]
    exact hj
  | smpGet idx => obtain ⟨-, -, -, rfl⟩ := he; exact inv_advance (inv_logRet h _) hj
  | smpGetall => obtain ⟨-, -, rfl⟩ := he; exact inv_advance (inv_logRet h _) hj
  | smpIsr => obtain ⟨hc, -⟩ := he; simp [hmain] at hc
  | rotInit => obtain ⟨-, -, rfl⟩ := he; exact inv_advance (inv_rotaryOn h) hj
  | rotStep pa pb =>
    obtain ⟨rs, acc, htr, rfl⟩ := he
    have hacc := accInRange_of_transition hb.accBits h.accRange htr
    exact inv_advance (inv_setRotary h rs hacc) hj
  | rotTake =>
    obtain ⟨-, -, env, rfl | ⟨-, rfl⟩⟩ := he
    · exact inv_advance (inv_logRet (inv_setEnv h env) _) hj
    · exact inv_advance (inv_logRet (inv_setRotary (inv_setEnv h env) s.rs (accInRange_zero _)) _) hj
  | rotIsr => obtain ⟨hc, -⟩ := he; simp [hmain] at hc
  | eeInit clear => exact absurd rfl (hne clear)
  | eePut offset value => obtain ⟨-, -, -, haddr, rfl⟩ := he; exact inv_advance (inv_eeApply h haddr) hj

/-- The effect of a command MAIN executes keeps the invariant: none but `EE.INIT` runs while one is in progress. -/
theorem inv_effect {i : Instr} {s t : State} (h : Inv s) (hb : Bounds s.cfg) (hi : fetched s = some i)
    (he : Effect i s t) : Inv t := by
  by_cases hclear : ∃ clear, i = .eeInit clear
  · obtain ⟨clear, rfl⟩ := hclear
    exact inv_eeInit h hb.slots hi he
  · have hne : ∀ clear, i ≠ .eeInit clear := fun clear hc => hclear ⟨clear, hc⟩
    exact inv_effect_of_job_none h hb (job_eq_none h hi hne) hne he

/-! ## The agents -/

/-- The conversion-complete service stores a sample and moves the cursor on. -/
theorem inv_serviceAdc {s t : State} (h : Inv s) (hn : 0 < s.cfg.n) (he : TurnEffect .isrAdc s t) : Inv t := by
  obtain ⟨f, -, rfl⟩ | ⟨-, rfl⟩ := he
  · exact inv_setFault h f
  · exact { h with
      ctxMain := rfl, samplesLength := List.length_set.trans h.samplesLength
      cursorBound := fun _ => Nat.mod_lt _ hn }

/-- The pin-change service makes a transition. -/
theorem inv_servicePcint {s t : State} (h : Inv s) (hb : 1 ≤ s.cfg.rotAccBits) (he : TurnEffect .isrPcint s t) :
    Inv t := by
  obtain ⟨f, -, rfl⟩ | ⟨rs, acc, htr, rfl⟩ := he
  · exact inv_setFault h f
  · have hacc := accInRange_of_transition (s := { s with i := false }) hb h.accRange htr
    exact { inv_setRotary h rs hacc with ctxMain := rfl }

/-- The invariant at every power-on: no part is ready, and the launch inputs have their sizes. -/
theorem inv_powerOn {cfg : Config} {launch : Launch} (hw : cfg.wellFormed launch = true) (prog : List Word) (env : Env) :
    Inv (State.powerOn cfg launch prog env) := by
  obtain ⟨-, hcells, hwithin, hm⟩ := wellFormed_parts hw
  exact {
    eeCanonical := hcells, eeWithin := hwithin, ctxMain := rfl, samplesLength := List.length_replicate
    cursorBound := nofun, adcEnabled := nofun, pinEnabled := nofun, accRange := nofun, slotBound := nofun
    membufLength := hm, jobCommand := fun hne => absurd rfl hne, jobWithin := nofun }

/-- A power loss keeps the store and resets the rest. -/
theorem inv_powerLoss {s : State} (h : Inv s) (hw : s.cfg.wellFormed s.launch = true) : Inv (powerLoss s) :=
  { inv_powerOn hw s.prog s.env with eeCanonical := h.eeCanonical, eeWithin := h.eeWithin }

/-- The step of every enabled agent. -/
theorem inv_turnEffect {u : Turn} {s t : State} (h : Inv s) (hw : s.cfg.wellFormed s.launch = true)
    (he : TurnEffect u s t) : Inv t := by
  have hb := bounds_of_wellFormed hw
  cases u with
  | main =>
    obtain ⟨i, hi, ⟨_, _, rfl⟩ | hx⟩ | ⟨-, _, rfl⟩ := he
    · exact inv_setFault h _
    · exact inv_effect h hb hi hx
    · exact inv_setFault h _
  | isrAdc => exact inv_serviceAdc h hb.channels he
  | isrPcint => exact inv_servicePcint h hb.accBits he
  | adc =>
    obtain ⟨_, rfl⟩ | ⟨-, _, _, -, rfl⟩ := he
    · exact inv_setFault h _
    · exact { h with }
  | pins => obtain ⟨_, _, _, rfl⟩ := he; exact { h with }
  | power => cases he; exact inv_powerLoss h hw
  | powerTorn =>
    obtain ⟨op, _, y, env, -, haddr, rfl⟩ := he
    exact inv_setEnv (inv_eeApply (inv_powerLoss h hw) (op := .write (eeOpAddr op) y) haddr) env

/-- Settles O56: the held turn changes only the inputs, and every agent's step keeps the invariant. -/
theorem stepKeepsInvariant : Obligations.StepKeepsInvariant := by
  intro s t h hstep
  obtain ⟨-, hw, u, v, -, hv, hcases⟩ := step_cases hstep
  have hinv : Inv v := hv ▸ inv_setEnv h v.env
  have hwv : v.cfg.wellFormed v.launch = true := hv ▸ hw
  obtain ⟨-, rfl⟩ | ⟨-, he⟩ := hcases
  · exact hinv
  · exact inv_turnEffect hinv hwv he

end Sys2Proof.StateProofs
end

section
/-! The statements of 20_memory.md: the EEPROM operation of every step lies in the region of the slots, so that no step
writes past it and none leaves the store (R61). -/

namespace Sys2Proof.MemoryProofs

open Sys2Proof.Machine Sys2Proof.Safety Sys2Proof.Laws Sys2Proof.StateProofs

/-! ## The operation of MAIN's next micro-step -/

/-- What is pending is the operation of the command fetched. -/
theorem nextEeOp_eq (s : State) : nextEeOp s = (fetched s).bind fun i => pendingEeOp i s := by
  unfold nextEeOp fetched
  cases s.prog[s.mpc]? with
  | none => rfl
  | some w => dsimp only; cases decode w <;> rfl

theorem nextEeOp_of_fetched {s : State} {i : Instr} (h : fetched s = some i) : nextEeOp s = pendingEeOp i s := by
  rw [nextEeOp_eq, h, Option.bind_some]

theorem nextEeOp_eq_some {s : State} {p : EeOp × State} :
    nextEeOp s = some p ↔ ∃ i, fetched s = some i ∧ pendingEeOp i s = some p := by
  rw [nextEeOp_eq, Option.bind_eq_some_iff]

/-- A job's operation is the first one it has left. -/
theorem mem_ops_of_jobOp {job : EeJob} {s u : State} {op : EeOp} (h : jobOp job s = some (op, u)) : op ∈ job.ops := by
  unfold jobOp at h
  split at h
  · cases h
  · next hops => cases h; exact hops ▸ List.mem_cons_self

theorem jobOp_cons {job : EeJob} {op : EeOp} {rest : List EeOp} (h : job.ops = op :: rest) (s : State) :
    jobOp job s = some (op, s) := by
  unfold jobOp
  rw [h]

/-- `EE.INIT` in progress: the operation pending is its job's. -/
theorem pendingInit_of_job {clear : Bool} {s : State} {job : EeJob} (h : s.job = some job) :
    pendingInit clear s = jobOp job s := by
  simp only [pendingInit, h]

/-- `EE.INIT` not begun: the operation pending is that of the job planned. -/
theorem pendingInit_of_plan {clear : Bool} {s t : State} {job : EeJob} (hj : s.job = none) (hc : s.ctx = .main)
    (hr : s.stReady = false) (hp : eeInitPlan clear s = some (job, t)) : pendingInit clear s = jobOp job t := by
  simp [pendingInit, hj, hc, hr, hp]

/-- The operation pending for `EE.INIT` is one of a job in progress or of a job planned. -/
theorem pendingInit_cases {clear : Bool} {s u : State} {op : EeOp} (h : pendingInit clear s = some (op, u)) :
    ∃ job, op ∈ job.ops ∧ (s.job = some job ∨ ∃ t, eeInitPlan clear s = some (job, t)) := by
  unfold pendingInit at h
  split at h
  · next job hj => exact ⟨job, mem_ops_of_jobOp h, .inl hj⟩
  · split_ifs at h
    split at h
    · cases h
    · next job t hp => exact ⟨job, mem_ops_of_jobOp h, .inr ⟨t, hp⟩⟩

/-- The operation pending for `EE.PUT` writes at `putAddr`, where the command does not fault. -/
theorem pendingPut_eq_some {offset : Half} {value : Byte} {s : State} {p : EeOp × State} :
    pendingPut offset value s = some p ↔
      (s.ctx = .main ∧ s.stReady = true ∧ offset.toNat < s.cfg.size) ∧ (.write (putAddr s offset) value, s) = p := by
  simp [pendingPut]

/-! ## Every operation lies in the region (R61) -/

/-- A payload byte of a slot of the ring lies in the region. -/
theorem putAddr_in_region {s : State} {offset : Half} (hslot : s.stSlot < slotCount s.cfg)
    (hoff : offset.toNat < s.cfg.size) : putAddr s offset < slotCount s.cfg * (s.cfg.size + 2) := by
  have := slot_in_region hslot
  unfold putAddr
  omega

/-- The operation pending for a command lies in the region: that of a job by `Inv.jobWithin`, that of a plan because
every plan fits, and that of `EE.PUT` because `ST_SLOT` is a slot of the ring. -/
theorem pendingEeOp_in_region {i : Instr} {s u : State} {op : EeOp} (h : Inv s) (hns : 0 < slotCount s.cfg)
    (hp : pendingEeOp i s = some (op, u)) : eeOpAddr op < slotCount s.cfg * (s.cfg.size + 2) := by
  cases i with
  | eeInit clear =>
    obtain ⟨job, hop, hj | ⟨t, hplan⟩⟩ := pendingInit_cases hp
    · exact (h.jobWithin job hj).1 op hop
    · exact (jobFits_eeInitPlan hns h.membufLength hplan).1 op hop
  | eePut offset value =>
    obtain ⟨⟨-, hready, hoff⟩, ⟨⟩⟩ := pendingPut_eq_some.1 hp
    exact putAddr_in_region (h.slotBound hready) hoff
  | _ => cases hp

/-- The operation of MAIN's next micro-step lies in the region. -/
theorem nextEeOp_in_region {s u : State} {op : EeOp} (h : Inv s) (hns : 0 < slotCount s.cfg)
    (hn : nextEeOp s = some (op, u)) : eeOpAddr op < slotCount s.cfg * (s.cfg.size + 2) := by
  obtain ⟨i, -, hp⟩ := nextEeOp_eq_some.1 hn
  exact pendingEeOp_in_region h hns hp

/-! ## What a step writes in the store -/

/-- A command's effect on the store is none, or the operation that was pending. -/
theorem effect_store {i : Instr} {s t : State} (h : Effect i s t) :
    t.ee = s.ee ∨ ∃ op u, pendingEeOp i s = some (op, u) ∧ t.ee = eeApply s.ee op := by
  obtain hsame | ⟨clear, rfl⟩ | ⟨offset, value, rfl⟩ := (effect_frame h).store
  · exact .inl hsame
  · obtain ⟨job, env, hjob, ⟨-, rfl⟩ | ⟨op, rest, hops, -, rfl⟩⟩ := h
    · exact .inl rfl
    · refine .inr ⟨op, { s with env := env }, ?_, rfl⟩
      rw [← jobOp_cons hops]
      obtain ⟨hj, rfl⟩ | ⟨hj, hc, hr, hplan⟩ := hjob
      · exact pendingInit_of_job hj
      · exact pendingInit_of_plan hj hc hr hplan
  · obtain ⟨hc, hr, hoff, -, rfl⟩ := h
    exact .inr ⟨_, s, pendingPut_eq_some.2 ⟨⟨hc, hr, hoff⟩, rfl⟩, rfl⟩

/-- An agent's step leaves the store alone, or makes one operation at the address of the one that was pending: MAIN that
operation itself, a power loss a write of any byte there. -/
theorem turnEffect_store {u : Turn} {s t : State} (h : TurnEffect u s t) :
    t.ee = s.ee ∨ ∃ op v op', nextEeOp s = some (op, v) ∧ eeOpAddr op' = eeOpAddr op ∧ t.ee = eeApply s.ee op' := by
  cases u with
  | main =>
    obtain ⟨i, hi, ⟨_, _, rfl⟩ | hx⟩ | ⟨-, _, rfl⟩ := h
    · exact .inl rfl
    · rw [nextEeOp_of_fetched hi]
      exact (effect_store hx).imp_right fun ⟨op, v, hop, ht⟩ => ⟨op, v, op, hop, rfl, ht⟩
    · exact .inl rfl
  | isrAdc => obtain ⟨_, -, rfl⟩ | ⟨-, rfl⟩ := h <;> exact .inl rfl
  | isrPcint => obtain ⟨_, -, rfl⟩ | ⟨_, _, -, rfl⟩ := h <;> exact .inl rfl
  | adc => obtain ⟨_, rfl⟩ | ⟨-, _, _, -, rfl⟩ := h <;> exact .inl rfl
  | pins => obtain ⟨_, _, _, rfl⟩ := h; exact .inl rfl
  | power => cases h; exact .inl rfl
  | powerTorn =>
    obtain ⟨op, v, y, _, hn, -, rfl⟩ := h
    exact .inr ⟨op, v, .write (eeOpAddr op) y, hn, rfl, rfl⟩

/-- Settles O45: a step makes at most the operation that was pending, which lies in the region. -/
theorem storeTailUntouched : Obligations.StoreTailUntouched := by
  intro s t h hstep a ha
  obtain ⟨-, hw, u, v, -, hv, ⟨-, rfl⟩ | ⟨-, hx⟩⟩ := step_cases hstep
  · rw [hv]
  · have hee : v.ee = s.ee := by rw [hv]
    obtain hsame | ⟨op, _, op', hn, haddr, ht⟩ := turnEffect_store hx
    · rw [hsame, hee]
    · have hregion := nextEeOp_in_region (s := v) (hv ▸ inv_setEnv h v.env)
        (hv ▸ (bounds_of_wellFormed hw).slots) hn
      have hcfg : v.cfg = s.cfg := by rw [hv]
      rw [hcfg, ← haddr] at hregion
      rw [ht, hee]
      exact eeRead_eeApply_ne op' (Nat.ne_of_gt (lt_of_lt_of_le hregion ha))

/-! ## Where there is a next state -/

/-- The result is a next state. -/
def HasNext (r : Result) : Prop := ∃ t, r = .next t

@[simp] theorem hasNext_next (s : State) : HasNext (.next s) := ⟨s, rfl⟩

@[simp] theorem hasNext_ite {c : Prop} [Decidable c] {a b : Result} :
    HasNext (if c then a else b) ↔ if c then HasNext a else HasNext b := by
  split <;> rfl

/-- A sequence has a next state where the first operation has one and the second has one after it. -/
theorem hasNext_andThen {r : Result} {f : State → Result} (hr : HasNext r) (hf : ∀ t, HasNext (f t)) :
    HasNext (andThen r f) := by
  obtain ⟨t, rfl⟩ := hr
  exact hf t

/-- A micro-step has a next state at an address of the store. -/
theorem hasNext_eeMicro {op : EeOp} {s : State} (h : eeOpAddr op < s.cfg.eeCap) : HasNext (eeMicro op s) :=
  ⟨_, eeMicro_within h⟩

/-- The micro-step of a job has a next state where its operation is at an address of the store. -/
theorem hasNext_eeContinue {job : EeJob} {s : State}
    (h : ∀ op u, jobOp job s = some (op, u) → eeOpAddr op < s.cfg.eeCap) : HasNext (eeContinue job s) := by
  unfold eeContinue
  split
  · exact hasNext_next _
  · next op rest hops =>
    exact hasNext_andThen (hasNext_eeMicro (h op s (jobOp_cons hops s))) fun _ => hasNext_next _

/-- `EE.INIT` has a next state where the operation pending is at an address of the store. -/
theorem hasNext_execEeInit {clear : Bool} {s : State}
    (h : ∀ op u, pendingInit clear s = some (op, u) → eeOpAddr op < s.cfg.eeCap) : HasNext (execEeInit clear s) := by
  unfold execEeInit
  split
  · next job hj => exact hasNext_eeContinue fun op u hop => h op u (pendingInit_of_job hj ▸ hop)
  · next hj =>
    split_ifs with hc hr
    · exact hasNext_next _
    · exact hasNext_next _
    · split
      · exact hasNext_next _
      · next job t hp =>
        have hcfg : t.cfg = s.cfg := by rw [eeInitPlan_state hp]
        refine hasNext_eeContinue fun op u hop => hcfg ▸ h op u ?_
        rw [pendingInit_of_plan hj (by simpa using hc) (by simpa using hr) hp, hop]

/-- `EE.PUT` has a next state where the operation pending is at an address of the store. -/
theorem hasNext_execEePut {offset : Half} {value : Byte} {s : State}
    (h : ∀ op u, pendingPut offset value s = some (op, u) → eeOpAddr op < s.cfg.eeCap) :
    HasNext (execEePut offset value s) := by
  unfold execEePut
  split_ifs with hc hr hoff
  · exact hasNext_next _
  · exact hasNext_next _
  · exact hasNext_next _
  · have hput : pendingPut offset value s = some (.write (putAddr s offset) value, s) :=
      pendingPut_eq_some.2 ⟨⟨by simpa using hc, by simpa using hr, by omega⟩, rfl⟩
    exact hasNext_andThen (hasNext_eeMicro (h _ s hput)) fun _ => hasNext_next _

/-- The body of the conversion-complete handler always has a next state. -/
theorem hasNext_execSmpIsr (s : State) : HasNext (execSmpIsr s) := by
  simp [execSmpIsr]

/-- The body of the pin-change handler always has a next state. -/
theorem hasNext_execRotIsr (s : State) : HasNext (execRotIsr s) := by
  unfold execRotIsr
  split
  · exact hasNext_next _
  · split <;> exact hasNext_next _

/-- Every command has a next state, but for an EEPROM operation outside the store. -/
theorem hasNext_exec {i : Instr} {s : State}
    (h : ∀ op u, pendingEeOp i s = some (op, u) → eeOpAddr op < s.cfg.eeCap) : HasNext (exec i s) := by
  cases i with
  | irqOff | irqOn | csEnter | fence => exact hasNext_next _
  | csExit => simp only [exec, execCsExit]; split <;> exact hasNext_next _
  | assertIoff => simp [exec, execAssertIoff]
  | smpInit => simp [exec, execSmpInit]
  | smpGet idx => simp [exec, execSmpGet]
  | smpGetall => simp [exec, execSmpGetall]
  | smpIsr => exact hasNext_execSmpIsr s
  | rotInit => simp [exec, execRotInit]
  | rotStep pa pb => simp only [exec, execRotStep]; split <;> exact hasNext_next _
  | rotTake => simp [exec, execRotTake]
  | rotIsr => exact hasNext_execRotIsr s
  | eeInit clear => exact hasNext_execEeInit h
  | eePut offset value => exact hasNext_execEePut h

/-- MAIN has a next state where the command fetched has one. -/
theorem hasNext_mainStep {s : State} (h : ∀ i, fetched s = some i → HasNext (exec i s)) : HasNext (mainStep s) := by
  unfold fetched at h
  unfold mainStep
  split
  · exact hasNext_next _
  · next hw =>
    split
    · next i hd => exact h i (by simp only [hw, hd])
    · exact hasNext_next _

/-- A service step has a next state where its body has one. -/
theorem hasNext_service {body : State → Result} {entered s : State} (h : HasNext (body entered)) :
    HasNext (service body entered s) :=
  hasNext_andThen h fun _ => hasNext_next _

/-- A torn write has a next state where the operation pending is at an address of the store. -/
theorem hasNext_powerTornStep {s : State}
    (h : ∀ op u, nextEeOp s = some (op, u) → eeOpAddr op < s.cfg.eeCap) : HasNext (powerTornStep s) := by
  unfold powerTornStep
  split
  · exact hasNext_next _
  · next op u hn =>
    have hcfg : (draw 256 u).2.cfg = s.cfg := by rw [draw_state, nextEeOp_state hn]
    exact hasNext_andThen (hasNext_eeMicro (hcfg ▸ h op u hn)) fun _ => hasNext_next _

/-- Every agent's step has a next state where the operation pending is at an address of the store. -/
theorem hasNext_agentStep {s : State} (h : ∀ op u, nextEeOp s = some (op, u) → eeOpAddr op < s.cfg.eeCap) (u : Turn) :
    HasNext (agentStep u s) := by
  cases u with
  | main =>
    refine hasNext_mainStep fun i hi => hasNext_exec ?_
    rwa [← nextEeOp_of_fetched hi]
  | isrAdc => exact hasNext_service (hasNext_execSmpIsr _)
  | isrPcint => exact hasNext_service (hasNext_execRotIsr _)
  | adc => simp [agentStep, adcStep]
  | pins | power => exact hasNext_next _
  | powerTorn => exact hasNext_powerTornStep h

/-- Under the invariant the turn of every agent has a next state: the operation pending lies in the region, and so in the
store. -/
theorem hasNext_runTurn {s : State} (h : Inv s) (hns : 0 < slotCount s.cfg) (u : Turn) : HasNext (runTurn u s) := by
  unfold runTurn
  split
  · exact hasNext_agentStep
      (fun op v hn => lt_of_lt_of_le (nextEeOp_in_region h hns hn) (region_in_store s.cfg)) u
  · exact hasNext_next s

/-- Settles O57: the step is the turn of an agent, and taking the turn keeps the invariant. -/
theorem unfaultedStateSteps : Obligations.UnfaultedStateSteps := by
  intro s h hf hw
  rw [step_eq hf hw]
  have hv := takeTurn_state s
  generalize (takeTurn s).2 = v at hv ⊢
  exact hasNext_runTurn (hv ▸ inv_setEnv h v.env) (hv ▸ (bounds_of_wellFormed hw).slots) _

end Sys2Proof.MemoryProofs
end

section
/-! The statements of 30_encoding.md: decoding and encoding are inverse to each other, and MAIN faults on every word
that is the encoding of no command (R90 to R93). -/

namespace Sys2Proof.EncodingProofs

open Sys2Proof.Machine Sys2Proof.Laws

/-! ## Decoding what was encoded -/

/-- Settles O1: the fields of the encoding are those of its row, and an operand is read back from the field it fills. -/
theorem decodeInvertsEncode : Obligations.DecodeInvertsEncode := by
  intro i
  cases i with
  | smpGet idx => simp [encode, decode]
  | rotStep pa pb => revert pa pb; decide
  | eeInit clear => revert clear; decide
  | eePut offset value => simp [encode, decode]
  | _ => rfl

/-! ## Encoding what was decoded -/

/-- A word with the fields of a command's encoding is that encoding. -/
theorem commandWord_eq_of_fields {w : Word} {op a : Byte} {b : Half} (hop : (opField w).toNat = op.toNat)
    (ha : aField w = a) (hb : bField w = b) : commandWord op a b = w := by
  rw [← BitVec.eq_of_toNat_eq hop, ← ha, ← hb, commandWord_fields]

/-- A checked row accepts where its check holds, and answers its own command. -/
theorem checked_eq_ok {p : Prop} [Decidable p] {i j : Instr} :
    (if p then .ok i else .error .nonzeroField : Except DecodeError Instr) = .ok j ↔ p ∧ i = j := by
  by_cases hp : p <;> simp [hp]

/-- A row without operands accepts the zero fields and answers its own command. -/
theorem needZeroAB_eq_ok {a : Byte} {b : Half} {i j : Instr} :
    needZeroAB a b i = .ok j ↔ (a = 0#8 ∧ b = 0#16) ∧ i = j := checked_eq_ok

/-- A word that a row without operands accepts is the row's `OP` with zero fields. -/
theorem encode_of_needZeroAB {w : Word} {op : Byte} {i j : Instr} (h : needZeroAB (aField w) (bField w) i = .ok j)
    (hrow : encode i = commandWord op 0#8 0#16) (hop : (opField w).toNat = op.toNat) : encode j = w := by
  obtain ⟨⟨ha, hb⟩, rfl⟩ := needZeroAB_eq_ok.1 h
  rw [hrow, commandWord_eq_of_fields hop ha hb]

/-- Settles O2: along the rows of the decoder, each field of the word is the operand it was read as or the zero the row
asks for. -/
theorem encodeInvertsDecode : Obligations.EncodeInvertsDecode := by
  intro w i h
  unfold decode at h
  split at h <;> rename_i hop
  case h_8 => -- `SMP.GET`
    obtain ⟨ha, rfl⟩ := checked_eq_ok.1 h
    exact commandWord_eq_of_fields hop ha rfl
  case h_12 => -- `ROT.STEP`
    obtain ⟨⟨ha, hb⟩, rfl⟩ := checked_eq_ok.1 h
    exact commandWord_eq_of_fields hop (levels_of_zero _ ha).symm hb
  case h_15 => -- `EE.INIT`
    obtain ⟨⟨ha, hb⟩, rfl⟩ := checked_eq_ok.1 h
    exact commandWord_eq_of_fields hop (flag_of_zero _ ha).symm hb
  case h_16 => -- `EE.PUT`
    cases h
    exact commandWord_eq_of_fields hop rfl rfl
  case h_17 => cases h -- no row
  -- the rows without operands
  all_goals exact encode_of_needZeroAB h rfl hop

/-! ## Illegal words -/

/-- A word that R93 calls illegal: its `OP` is in no row of R92, or a field its row marks `0` is not zero. -/
def IllegalWord (w : Word) : Prop :=
  (opField w).toNat ∉
      [0x01, 0x02, 0x03, 0x04, 0x05, 0x06, 0x10, 0x11, 0x12, 0x13, 0x20, 0x21, 0x22, 0x23, 0x30, 0x31] ∨
    ((opField w).toNat ∈ [0x01, 0x02, 0x03, 0x04, 0x05, 0x06, 0x10, 0x12, 0x13, 0x20, 0x22, 0x23] ∧
      (aField w ≠ 0#8 ∨ bField w ≠ 0#16)) ∨
    ((opField w).toNat = 0x11 ∧ aField w ≠ 0#8) ∨
    ((opField w).toNat = 0x21 ∧ ((aField w).extractLsb' 2 6 ≠ 0#6 ∨ bField w ≠ 0#16)) ∨
    ((opField w).toNat = 0x30 ∧ ((aField w).extractLsb' 1 7 ≠ 0#7 ∨ bField w ≠ 0#16))

/-- No command's encoding is illegal. -/
theorem not_illegalWord_encode (i : Instr) : ¬ IllegalWord (encode i) := by
  cases i with
  | rotStep pa pb =>
    have hzero : (0#6 ++ BitVec.ofBool pb ++ BitVec.ofBool pa).extractLsb' 2 6 = 0#6 := by revert pa pb; decide
    simp [IllegalWord, encode, hzero]
  | eeInit clear =>
    have hzero : (0#7 ++ BitVec.ofBool clear).extractLsb' 1 7 = 0#7 := by revert clear; decide
    simp [IllegalWord, encode, hzero]
  | _ => simp [IllegalWord, encode]

/-- An illegal word decodes to no command, since it would be that command's encoding. -/
theorem decode_of_illegalWord {w : Word} (h : IllegalWord w) : ∃ e, decode w = .error e := by
  cases hd : decode w with
  | error e => exact ⟨e, rfl⟩
  | ok i => exact absurd (encodeInvertsDecode w i hd ▸ h) (not_illegalWord_encode i)

/-- MAIN's step on a word that is no command. -/
theorem mainStep_of_decode_error {s : State} {w : Word} {e : DecodeError} (hw : s.prog[s.mpc]? = some w)
    (hd : decode w = .error e) : mainStep s = .next (raise .illegalCommand (illegalInfo w) s) := by
  simp only [mainStep, hw, hd]

/-- Settles O4: an illegal word decodes to no command, and MAIN raises `ILLEGAL_COMMAND` with its upper half. -/
theorem illegalWordsFault : Obligations.IllegalWordsFault := by
  intro s w hw hill
  obtain ⟨e, he⟩ := decode_of_illegalWord hill
  exact mainStep_of_decode_error hw he

/-! ## The example words (R96) -/

/-- Settles O3: each row's word is evaluated by the decoder. -/
theorem exampleWordsDecode : Obligations.ExampleWordsDecode := by
  unfold Obligations.ExampleWordsDecode
  decide

end Sys2Proof.EncodingProofs
end

section
/-! The statements of 40_access_primitives.md: what the six access commands do and leave alone, how sections nest, and
what a cleared mask excludes (R120 to R128). -/

namespace Sys2Proof.AccessProofs

open Sys2Proof.Machine Sys2Proof.Safety Sys2Proof.Laws Sys2Proof.EncodingProofs

/-! ## What each access command answers -/

theorem exec_csEnter (s : State) : exec .csEnter s = .next (advance (pushSection s)) := rfl

/-- `CS.EXIT` with a section open restores the innermost mask saved. -/
theorem exec_csExit_of_append {s : State} {outer : List Bool} {saved : Bool} (h : s.csStack = outer ++ [saved]) :
    exec .csExit s = .next (advance { s with csStack := outer, i := saved }) := by
  simp [exec, execCsExit, popSection, h]

/-- `CS.EXIT` with no section open faults. -/
theorem exec_csExit_of_nil {s : State} (h : s.csStack = []) :
    exec .csExit s = .next (raise .csUnderflow 0#16 s) := by
  simp [exec, execCsExit, popSection, h]

/-- `ASSERT.IOFF` passes where the mask is clear. -/
theorem exec_assertIoff_of_masked {s : State} (h : s.i = false) : exec .assertIoff s = .next (advance s) := by
  simp [exec, execAssertIoff, h]

/-- `ASSERT.IOFF` faults where the mask is set. -/
theorem exec_assertIoff_of_unmasked {s : State} (h : s.i = true) :
    exec .assertIoff s = .next (raise .assertFailed 0#16 s) := by
  simp [exec, execAssertIoff, h]

/-- With the mask set, a pending, enabled interrupt may be taken from MAIN's context (60_exceptions.md R260). -/
theorem services_enabled_of_unmasked {s : State} (hi : s.i = true) (hf : s.fault.faulted = false)
    (hc : s.ctx = .main) :
    (s.adcCtrl.iflag = true → s.adcCtrl.ie = true → enabled .isrAdc s = true) ∧
      (s.pcif = true → s.pcie = true → enabled .isrPcint s = true) := by
  constructor <;> intro hpending henabled <;>
    simp [enabled, adcInterruptReady, pinInterruptReady, hi, hf, hc, hpending, henabled]

/-- Settles O8: each command's answer, and `IRQ.ON` leaves the mask set and the pending interrupts as they were. -/
theorem accessCommandsResult : Obligations.AccessCommandsResult := by
  intro s
  refine ⟨rfl, rfl, ?irqOn, exec_csEnter s, rfl, exec_assertIoff_of_masked, exec_assertIoff_of_unmasked,
    decodeInvertsEncode .irqOff, decodeInvertsEncode .irqOn, decodeInvertsEncode .csEnter, decodeInvertsEncode .fence,
    decodeInvertsEncode .assertIoff⟩
  case irqOn =>
    rintro t ⟨⟩ hf hc
    exact services_enabled_of_unmasked (s := advance (setI true s)) rfl hf hc

/-- Settles O9: the stack is empty, or it ends in the mask that is restored. -/
theorem sectionExitRestoresMask : Obligations.SectionExitRestoresMask := by
  intro s
  refine ⟨fun _ _ => exec_csExit_of_append, ?unmasked, exec_csExit_of_nil, decodeInvertsEncode .csExit⟩
  case unmasked =>
    intro outer t hs ht hf hc
    cases (exec_csExit_of_append hs).symm.trans ht
    exact services_enabled_of_unmasked (s := advance { s with csStack := outer, i := true }) rfl hf hc

/-- Settles O11: of the six commands only `CS.EXIT` and `ASSERT.IOFF` can fault, and a fault leaves the mask and the
stack alone. -/
theorem accessFrame : Obligations.AccessFrame := by
  intro i s t hi h
  cases i with
  | irqOff | irqOn | csEnter | fence => cases h; refine ⟨rfl, ?_, ?_, ?_, fun _ => rfl⟩ <;> simp
  | csExit =>
    obtain ⟨_, _, rfl⟩ | ⟨_, _, rfl⟩ := exec_next h <;> refine ⟨rfl, ?_, ?_, ?_, fun _ => rfl⟩ <;> simp
  | assertIoff =>
    obtain ⟨_, _, rfl⟩ | ⟨_, rfl⟩ := exec_next h <;> refine ⟨rfl, ?_, ?_, ?_, fun _ => rfl⟩ <;> simp
  | _ => simp at hi

/-! ## Sections nest (R122, R123) -/

theorem andThen_assoc (r : Result) (f g : State → Result) :
    andThen (andThen r f) g = andThen r fun s => andThen (f s) g := by
  cases r <;> rfl

@[simp] theorem repeatExec_zero (i : Instr) (s : State) : repeatExec i 0 s = .next s := rfl

theorem repeatExec_succ (i : Instr) (n : Nat) (s : State) :
    repeatExec i (n + 1) s = andThen (exec i s) (repeatExec i n) := rfl

/-- The last of the executions may be split off as well as the first. -/
theorem repeatExec_succ_last (i : Instr) (n : Nat) :
    repeatExec i (n + 1) = fun s => andThen (repeatExec i n s) (exec i) := by
  induction n with
  | zero => funext s; cases h : exec i s <;> simp [repeatExec_succ, h, andThen]
  | succ n ih =>
    funext s
    calc repeatExec i (n + 2) s
        = andThen (exec i s) fun u => andThen (repeatExec i n u) (exec i) := by rw [repeatExec_succ, ih]
      _ = andThen (repeatExec i (n + 1) s) (exec i) := (andThen_assoc _ _ _).symm

/-- Settles O10, by induction on the depth: the outermost entry and the last exit enclose the `n` sections within, after
which the stack ends in the mask that entry saved. -/
theorem sectionsNestToAnyDepth : Obligations.SectionsNestToAnyDepth := by
  intro n
  induction n with
  | zero => exact fun s => rfl
  | succ n ih =>
    intro s
    rw [repeatExec_succ, exec_csEnter, andThen_next, repeatExec_succ_last, ← andThen_assoc, ih, andThen_next,
      exec_csExit_of_append (outer := s.csStack) (saved := s.i) rfl]
    have hmpc : s.mpc + 1 + 2 * n + 1 = s.mpc + 2 * (n + 1) := by omega
    simp [advance, pushSection, hmpc]

/-! ## Exclusion (R128, 41_sampler.md R147) -/

/-- The mask, the handlers' data and MAIN's position are in `t` as they were in `s`. -/
def HandlerDataKept (s t : State) : Prop :=
  t.i = s.i ∧ t.samples = s.samples ∧ t.cur = s.cur ∧ t.sel = s.sel ∧ t.rs = s.rs ∧ t.acc = s.acc ∧ t.mpc = s.mpc ∧
    t.csStack = s.csStack

/-- With the mask clear no service is enabled, and the converter and the pins write none of the handlers' data. -/
theorem handlerDataKept_of_masked {u : Turn} {s t : State} (hi : s.i = false) (he : enabled u s = true)
    (h : TurnEffect u s t) (hmain : u ≠ .main) (hpower : u ≠ .power) (htorn : u ≠ .powerTorn) :
    HandlerDataKept s t := by
  cases u with
  | main | power | powerTorn => contradiction
  | isrAdc => obtain ⟨-, -, hset, -⟩ := enabled_isrAdc he; simp [hi] at hset
  | isrPcint => obtain ⟨-, -, hset, -⟩ := enabled_isrPcint he; simp [hi] at hset
  | adc => obtain ⟨_, rfl⟩ | ⟨-, _, _, -, rfl⟩ := h <;> simp [HandlerDataKept]
  | pins => obtain ⟨_, _, _, rfl⟩ := h; simp [HandlerDataKept]

/-- Settles O49: the agent that steps is none of the three excluded, and taking the turn changes only the inputs. -/
theorem exclusionKeepsHandlerData : Obligations.ExclusionKeepsHandlerData := by
  intro s t hi hstep hmain hpower htorn
  obtain ⟨-, -, u, v, hu, hv, hcases⟩ := step_cases hstep
  have hkept : HandlerDataKept v t := by
    obtain ⟨-, rfl⟩ | ⟨he, hx⟩ := hcases
    · simp [HandlerDataKept]
    · have htakes := takes_of_takeTurn hu he
      exact handlerDataKept_of_masked (hv ▸ hi) he hx (fun h => hmain (h ▸ htakes)) (fun h => hpower (h ▸ htakes))
        fun h => htorn (h ▸ htakes)
  rw [hv] at hkept
  obtain ⟨hmask, hdata⟩ := hkept
  exact ⟨hmask.trans hi, hdata⟩

end Sys2Proof.AccessProofs
end

section
/-! The statements of 41_sampler.md: what each of the sampler's commands and a completed conversion write, and the
pipeline that every step keeps (R140 to R150). -/

namespace Sys2Proof.SamplerProofs

open Sys2Proof.Machine Sys2Proof.Safety Sys2Proof.Laws Sys2Proof.EncodingProofs

/-! ## When a conversion completes (R144) -/

/-- The converter enabled: it runs, free, with a conversion in flight. -/
theorem enabled_adc {s : State} (h : enabled .adc s = true) :
    s.fault.faulted = false ∧ s.adcCtrl.en = true ∧ s.adcCtrl.free = true ∧ s.convActive = true := by
  simp only [enabled, Bool.and_eq_true, Bool.not_eq_true'] at h
  obtain ⟨hf, ⟨⟨hen, hfree⟩, hactive⟩, -⟩ := h
  exact ⟨hf, hen, hfree, hactive⟩

/-! ## The pipeline (R149, R150) -/

/-- Advancing the cursor by one and then by `k` is advancing it by `k + 1`. -/
theorem cursor_advance (c k n : Nat) : ((c + 1) % n + k) % n = (c + (k + 1)) % n := by
  rw [Nat.mod_add_mod, Nat.add_assoc, Nat.add_comm 1 k]

section Updates

variable {s : State} (h : Pipeline s)

include h

/-- The inputs are free. -/
theorem pipeline_setEnv (env : Env) : Pipeline { s with env := env } := { h with }

/-- Entering the fault state. -/
theorem pipeline_setFault (f : FaultRegs) : Pipeline { s with fault := f } := { h with }

/-- `SMP.INIT` starts the count: no conversion is done, the first channel is converted and the second armed. -/
theorem pipeline_smpInit (hn : 2 ≤ s.cfg.n) (hr : s.smpReady = false) :
    Pipeline (startFreeRunning (seedAll (converterOn s))) := by
  obtain ⟨samples, _, _, _, hf, -⟩ := smpInit_frame s
  obtain ⟨-, hdone⟩ := h.idle hr
  rw [hf]
  exact {
    idle := nofun
    cursor := fun _ => by simp [hdone]
    pending := nofun
    inFlight := fun _ => by simp [bitNat]
    armed := fun _ => by simp [Nat.mod_eq_of_lt hn]
    done := h.done }

/-- The conversion just completed was of the channel its number names, so it may join the list. -/
theorem done_append (hr : s.smpReady = true) (hflag : s.adcCtrl.iflag = false) {j : Nat}
    (hj : j < (s.doneCh ++ [s.convCh]).length) : (s.doneCh ++ [s.convCh])[j] = channel s.cfg (j % s.cfg.n) := by
  rw [List.getElem_append]
  split
  · next hold => exact h.done j hold
  · next hnew =>
    have hlast : j = s.doneCh.length := by
      rw [List.length_append, List.length_singleton] at hj
      omega
    have hch := h.inFlight hr
    rw [h.cursor hr, hflag] at hch
    simpa [bitNat, hlast] using hch

/-- A completion: the conversion in flight is done, and the armed channel's starts. -/
theorem pipeline_complete (hactive : s.convActive = true) (hflag : s.adcCtrl.iflag = false) (data : Half) (env : Env) :
    Pipeline
      { s with
        adcData := data, doneCh := s.doneCh ++ [s.convCh], convActive := true, convCh := s.sel.chsel, env := env,
        adcCtrl := { s.adcCtrl with iflag := true } } := by
  have hr : s.smpReady = true := by
    by_contra hnot
    obtain ⟨hidle, -⟩ := h.idle (by simpa using hnot)
    simp [hactive] at hidle
  exact {
    idle := fun hnot => by simp [hr] at hnot
    cursor := fun _ => by simpa [bitNat, hflag] using h.cursor hr
    pending := fun _ _ => by simp
    inFlight := fun _ => h.armed hr
    armed := fun _ => h.armed hr
    done := fun _ hj => done_append h hr hflag hj }

/-- A service: the waiting completion is taken, and the channel two ahead of the cursor armed. -/
theorem pipeline_service (hr : s.smpReady = true) (hflag : s.adcCtrl.iflag = true) (samples : List Half) (i : Bool)
    (ctx : Ctx) :
    Pipeline
      { s with
        adcCtrl := { s.adcCtrl with iflag := false }, samples := samples, cur := (s.cur + 1) % s.cfg.n,
        sel := { s.sel with chsel := channel s.cfg ((s.cur + 2) % s.cfg.n) }, i := i, ctx := ctx } := by
  have hpos : 0 < s.doneCh.length := List.length_pos_iff.2 (h.pending hr hflag)
  exact {
    idle := fun hnot => by simp [hr] at hnot
    cursor := fun _ => by
      have hcur : s.cur = (s.doneCh.length - 1) % s.cfg.n := by simpa [hflag, bitNat] using h.cursor hr
      calc (s.cur + 1) % s.cfg.n
          = (s.doneCh.length - 1 + 1) % s.cfg.n := by rw [hcur, Nat.mod_add_mod]
        _ = s.doneCh.length % s.cfg.n := by rw [Nat.sub_add_cancel hpos]
    pending := nofun
    inFlight := fun _ => by
      have hch : s.convCh = channel s.cfg ((s.cur + 1) % s.cfg.n) := by simpa [hflag, bitNat] using h.inFlight hr
      exact hch.trans (congrArg (channel s.cfg) (cursor_advance s.cur 0 s.cfg.n).symm)
    armed := fun _ => congrArg (channel s.cfg) (cursor_advance s.cur 1 s.cfg.n).symm
    done := h.done }

/-- A command MAIN executes: only `SMP.INIT` touches the pipeline, `SMP.ISR` having no effect in MAIN's context. -/
theorem pipeline_effect {i : Instr} {t : State} (hc : s.ctx = .main) (hn : 2 ≤ s.cfg.n) (he : Effect i s t) :
    Pipeline t := by
  cases i with
  | irqOff | irqOn | csEnter | fence => cases he; exact { h with }
  | csExit => obtain ⟨_, -, rfl⟩ := he; exact { h with }
  | assertIoff => obtain ⟨-, rfl⟩ := he; exact { h with }
  | smpInit => obtain ⟨-, -, hr, rfl⟩ := he; exact { pipeline_smpInit h hn hr with }
  | smpGet => obtain ⟨-, -, -, rfl⟩ := he; exact { h with }
  | smpGetall => obtain ⟨-, -, rfl⟩ := he; exact { h with }
  | smpIsr => obtain ⟨hisr, -⟩ := he; simp [hc] at hisr
  | rotInit => obtain ⟨-, -, rfl⟩ := he; exact { h with }
  | rotStep => obtain ⟨_, _, -, rfl⟩ := he; exact { h with }
  | rotTake => obtain ⟨-, -, _, rfl | ⟨-, rfl⟩⟩ := he <;> exact { h with }
  | rotIsr => obtain ⟨-, _, _, -, rfl⟩ := he; exact { h with }
  | eeInit => obtain ⟨_, _, -, ⟨-, rfl⟩ | ⟨_, _, -, -, rfl⟩⟩ := he <;> exact { h with }
  | eePut => obtain ⟨-, -, -, -, rfl⟩ := he; exact { h with }

end Updates

/-- After a power loss nothing is converted. -/
theorem pipeline_powerLoss (s : State) : Pipeline (powerLoss s) where
  idle := fun _ => ⟨rfl, rfl⟩
  cursor := nofun
  pending := nofun
  inFlight := nofun
  armed := nofun
  done := nofun

/-- The step of every enabled agent. -/
theorem pipeline_turnEffect {u : Turn} {s t : State} (hp : Pipeline s) (hc : s.ctx = .main) (hn : 2 ≤ s.cfg.n)
    (he : enabled u s = true) (hx : TurnEffect u s t) : Pipeline t := by
  cases u with
  | main =>
    obtain ⟨_, -, ⟨_, _, rfl⟩ | hi⟩ | ⟨-, _, rfl⟩ := hx
    · exact pipeline_setFault hp _
    · exact pipeline_effect hp hc hn hi
    · exact pipeline_setFault hp _
  | isrAdc =>
    obtain ⟨f, -, rfl⟩ | ⟨hr, rfl⟩ := hx
    · exact pipeline_setFault hp f
    · obtain ⟨-, -, -, hflag, -⟩ := enabled_isrAdc he
      exact pipeline_service hp hr hflag _ _ _
  | isrPcint =>
    obtain ⟨f, -, rfl⟩ | ⟨_, _, -, rfl⟩ := hx
    · exact pipeline_setFault hp f
    · exact { hp with }
  | adc =>
    obtain ⟨_, rfl⟩ | ⟨hflag, _, _, -, rfl⟩ := hx
    · exact pipeline_setFault hp _
    · obtain ⟨-, -, -, hactive⟩ := enabled_adc he
      exact pipeline_complete hp hactive hflag _ _
  | pins => obtain ⟨_, _, _, rfl⟩ := hx; exact { hp with }
  | power => cases hx; exact pipeline_powerLoss s
  | powerTorn => obtain ⟨_, _, _, _, -, -, rfl⟩ := hx; exact { pipeline_powerLoss s with }

/-- Settles O20: a completion and a service each move the pipeline on by one, `SMP.INIT` starts it and a power loss
empties it; nothing else touches it. -/
theorem stepKeepsPipeline : Obligations.StepKeepsPipeline := by
  intro s t h hp hstep
  obtain ⟨-, hw, u, v, -, hv, hcases⟩ := step_cases hstep
  obtain ⟨hn, -⟩ := configOk_bounds (wellFormed_parts hw).1
  have hpv : Pipeline v := hv ▸ pipeline_setEnv hp v.env
  obtain ⟨-, rfl⟩ | ⟨he, hx⟩ := hcases
  · exact hpv
  · exact pipeline_turnEffect hpv (hv ▸ h.ctxMain) (hv ▸ hn) he hx

/-! ## `SMP.INIT` (R140, R141) -/

/-- A drawn result takes the next draw listed. -/
theorem drawResult_listed {s : State} {d : Nat} {rest : List Nat} (h : s.env.draws = d :: rest)
    (hd : d < 2 ^ s.cfg.adcBits) :
    drawResult s = (BitVec.ofNat 16 d, { s with env := { s.env with draws := rest } }) := by
  simp [drawResult, draw_listed _ h, Nat.mod_eq_of_lt hd]

/-- The value a round of the seeding loop stores is the result drawn from the state it starts in. -/
theorem seedSlot_eq_drawResult (s : State) (k : Nat) :
    seedSlot s k =
      seeded s (s.samples.set k (drawResult s).1) (drawResult s).1 (drawResult s).2.env (channel s.cfg k) := by
  cases hd : s.env.draws <;> simp [seedSlot, blockingConvert, drawResult, draw, armChannel, seeded, hd]

/-- The seeding loop has led from `s` to `t` and stored `seeds` in the first slots. -/
structure Seeding (s t : State) (seeds : List Half) : Prop where
  frame : t =
    { s with
      samples := seeds ++ s.samples.drop seeds.length, adcData := seeds.getLastD s.adcData, env := t.env,
      adcCtrl := { s.adcCtrl with start := t.adcCtrl.start }, sel := { s.sel with chsel := t.sel.chsel } }
  startCleared : seeds ≠ [] → t.adcCtrl.start = false
  bounded : ∀ v ∈ seeds, v.toNat < 2 ^ s.cfg.adcBits
  drawn : ∀ ds rest : List Nat, s.env.draws = ds ++ rest → ds.length = seeds.length →
    (∀ d ∈ ds, d < 2 ^ s.cfg.adcBits) → seeds = ds.map (BitVec.ofNat 16) ∧ t.env = { s.env with draws := rest }

/-- Before the first round. -/
theorem seeding_nil (s : State) : Seeding s s [] where
  frame := rfl
  startCleared := fun h => absurd rfl h
  bounded := nofun
  drawn := fun ds rest hd hl _ => by
    obtain rfl := List.length_eq_zero_iff.1 hl
    exact ⟨rfl, by rw [show rest = s.env.draws from hd.symm]⟩

/-- Storing the next seed in the slots not seeded yet. -/
theorem set_append_drop (seeds samples : List Half) (v : Half) (h : seeds.length < samples.length) :
    (seeds ++ samples.drop seeds.length).set seeds.length v =
      seeds ++ [v] ++ samples.drop (seeds ++ [v]).length := by
  rw [List.set_append_right _ _ le_rfl, Nat.sub_self, List.drop_eq_getElem_cons h, List.set_cons_zero]
  simp

/-- One more round stores one more result. -/
theorem seeding_round {s t : State} {seeds : List Half} (h : Seeding s t seeds)
    (hl : seeds.length < s.samples.length) :
    Seeding s (seedSlot t seeds.length) (seeds ++ [(drawResult t).1]) := by
  have hcfg : t.cfg = s.cfg := by rw [h.frame]
  have hround := seedSlot_eq_drawResult t seeds.length
  constructor
  case frame =>
    rw [hround]
    generalize (drawResult t).1 = v
    generalize (drawResult t).2.env = env
    rw [h.frame]
    simp only [seeded, set_append_drop _ _ _ hl, List.getLastD_concat]
  case startCleared => intro _; rw [hround]; rfl
  case bounded =>
    intro v hv
    obtain hold | hnew := List.mem_append.1 hv
    · exact h.bounded v hold
    · rw [List.mem_singleton.1 hnew, ← hcfg]
      exact drawResult_lt t
  case drawn =>
    intro ds rest hd hlen hds
    obtain ⟨ds, d, rfl⟩ : ∃ ds' d, ds = ds' ++ [d] := by
      refine ⟨_, _, (List.dropLast_concat_getLast (l := ds) ?_).symm⟩
      rintro rfl
      simp at hlen
    have hbefore : s.env.draws = ds ++ d :: rest := by simpa using hd
    obtain ⟨hseeds, henv⟩ := h.drawn ds (d :: rest) hbefore (by simpa using hlen)
      fun x hx => hds x (List.mem_append_left _ hx)
    have hlast := drawResult_listed (s := t) (by rw [henv]) (hcfg ▸ hds d (by simp))
    rw [hround, hlast]
    exact ⟨by rw [hseeds, List.map_append]; rfl, by simp [seeded, henv]⟩

/-- The first `m` rounds store `m` results, by induction on `m`. -/
theorem seeding_rounds {s : State} {m : Nat} (hm : m ≤ s.samples.length) :
    ∃ seeds : List Half, seeds.length = m ∧ Seeding s ((List.range m).foldl seedSlot s) seeds := by
  induction m with
  | zero => exact ⟨[], rfl, seeding_nil s⟩
  | succ m ih =>
    obtain ⟨seeds, rfl, hseeding⟩ := ih (by omega)
    rw [List.range_succ, List.foldl_append]
    exact ⟨_, List.length_append, seeding_round hseeding hm⟩

/-- The whole loop stores a result in every slot. -/
theorem seeding_seedAll {s : State} (hl : s.samples.length = s.cfg.n) :
    ∃ seeds : List Half, seeds.length = s.cfg.n ∧ Seeding s (seedAll s) seeds :=
  seeding_rounds hl.ge

/-- `SMP.INIT` in MAIN under exclusion, the first time. -/
theorem exec_smpInit {s : State} (hc : s.ctx = .main) (hi : s.i = false) (hr : s.smpReady = false) :
    exec .smpInit s = .next (advance (startFreeRunning (seedAll (converterOn s)))) := by
  simp [exec, execSmpInit, hc, hi, hr]

/-- `SMP.INIT` outside MAIN or with the mask set. -/
theorem exec_smpInit_of_context {s : State} (h : s.ctx ≠ .main ∨ s.i = true) :
    exec .smpInit s = .next (raise .wrongContext 0x10#16 s) := by
  by_cases hc : s.ctx = .main
  · have hi := h.resolve_left (not_not_intro hc)
    simp [exec, execSmpInit, hc, hi]
  · simp [exec, execSmpInit, hc]

/-- `SMP.INIT` a second time. -/
theorem exec_smpInit_of_ready {s : State} (hc : s.ctx = .main) (hi : s.i = false) (hr : s.smpReady = true) :
    exec .smpInit s = .next (raise .doubleInit 0x10#16 s) := by
  simp [exec, execSmpInit, hc, hi, hr]

/-- What `SMP.INIT` leaves, given the seeds of its loop: every slot is seeded, and `ADC_DATA` keeps the last seed. -/
theorem startFreeRunning_of_seeding {s : State} {seeds : List Half} (hl : seeds.length = s.samples.length)
    (hne : seeds ≠ []) (h : Seeding (converterOn s) (seedAll (converterOn s)) seeds) :
    startFreeRunning (seedAll (converterOn s)) =
      { s with
        samples := seeds, cur := 0, smpReady := true, adcData := seeds.getLast hne,
        env := (seedAll (converterOn s)).env,
        adcCtrl := { en := true, start := false, free := true, iflag := false, ie := true, pre := s.adcCtrl.pre },
        sel := { other := s.sel.other, chsel := channel s.cfg 1 },
        convActive := true, convCh := channel s.cfg 0 } := by
  have hstart := h.startCleared hne
  have hframe := h.frame
  have hrest : (converterOn s).samples.drop seeds.length = [] := List.drop_eq_nil_of_le hl.ge
  rw [hstart, hrest, List.append_nil, List.getLastD_eq_getLast?, List.getLast?_eq_getLast_of_ne_nil hne] at hframe
  rw [startFreeRunning_eq, hframe]
  rfl

/-- Settles O14: the loop leaves its seeds, and the lines around it write the rest. -/
theorem sampleInitResult : Obligations.SampleInitResult := by
  intro s
  refine ⟨?effect, exec_smpInit_of_context, exec_smpInit_of_ready, decodeInvertsEncode .smpInit⟩
  case effect =>
    intro hcfg hl hc hi hr
    obtain ⟨seeds, hlen, hseeding⟩ := seeding_seedAll (s := converterOn s) hl
    have hne : seeds ≠ [] := by
      obtain ⟨hn, -⟩ := configOk_bounds hcfg
      rintro rfl
      have hzero : 0 = s.cfg.n := hlen
      omega
    refine ⟨seeds, seeds.getLast hne, (seedAll (converterOn s)).env, ?_, hlen, hseeding.bounded,
      List.getLast?_eq_getLast_of_ne_nil hne, fun ds rest hd hds => hseeding.drawn ds rest hd (hds.trans hlen.symm)⟩
    rw [exec_smpInit hc hi hr, startFreeRunning_of_seeding (hlen.trans hl.symm) hne hseeding]
    rfl

/-! ## `SMP.GET` and `SMP.GETALL` (R146, R147) -/

/-- A cached sample that exists. -/
theorem sampleAt_eq_getElem {s : State} {k : Nat} (h : k < s.samples.length) : sampleAt s k = s.samples[k] :=
  List.getD_eq_getElem _ _ h

/-- The snapshot of all channels is the cache. -/
theorem map_sampleAt_range {s : State} (h : s.samples.length = s.cfg.n) :
    (List.range s.cfg.n).map (sampleAt s) = s.samples := by
  refine List.ext_getElem (by simp [h]) fun k _ hk => ?_
  rw [List.getElem_map, List.getElem_range, sampleAt_eq_getElem hk]

/-- Settles O15: the checks in order, and the value read from the cache. -/
theorem sampleReadResult : Obligations.SampleReadResult := by
  intro s idx
  refine ⟨?get, ?getRange, ?getall, ?masked, ?notReady, decodeInvertsEncode (.smpGet idx),
    decodeInvertsEncode .smpGetall⟩
  case get =>
    intro hi hr hlen hn
    simp [exec, execSmpGet, hi, hr, Nat.not_le.2 hn, sampleAt_eq_getElem hlen, logRet, advance]
  case getRange =>
    intro hi hr hn
    simp [exec, execSmpGet, hi, hr, hn]
  case getall =>
    intro hi hr hlen
    simp [exec, execSmpGetall, hi, hr, map_sampleAt_range hlen, logRet, advance]
  case masked =>
    intro hi
    simp [exec, execSmpGet, execSmpGetall, hi]
  case notReady =>
    intro hi hr
    simp [exec, execSmpGet, execSmpGetall, hi, hr]

/-! ## `SMP.ISR` (R145) -/

/-- `SMP.ISR` outside its handler or with the mask set. -/
theorem exec_smpIsr_of_context {s : State} (h : s.ctx ≠ .isrAdc ∨ s.i = true) :
    exec .smpIsr s = .next (raise .wrongContext 0x13#16 s) := by
  by_cases hc : s.ctx = .isrAdc
  · have hi := h.resolve_left (not_not_intro hc)
    simp [exec, execSmpIsr, hc, hi]
  · simp [exec, execSmpIsr, hc]

/-- `ROT.ISR` outside its handler. -/
theorem exec_rotIsr_of_context {s : State} (h : s.ctx ≠ .isrPcint) :
    exec .rotIsr s = .next (raise .wrongContext 0x23#16 s) := by
  simp [exec, execRotIsr, h]

/-- Settles O16: the checks in order, and `storeConversion` past them. -/
theorem sampleIsrResult : Obligations.SampleIsrResult := by
  intro s
  refine ⟨?effect, exec_smpIsr_of_context, ?notReady, decodeInvertsEncode .smpIsr⟩
  case effect =>
    intro hc hi hr
    simp [exec, execSmpIsr, hc, hi, hr, storeConversion, armChannel]
  case notReady =>
    intro hc hi hr
    simp [exec, execSmpIsr, hc, hi, hr]

/-- A fault raised in MAIN's context names MAIN. -/
theorem raise_of_main {s : State} (h : s.ctx = .main) (code : FaultCode) (info : Half) :
    raise code info s =
      { s with
        fault := { faulted := true, code := faultNumber code, agent := .main, mpc := s.mpc, info := info } } := by
  simp [raise, raiseBy, h, ctxAgent]

/-- Settles O17: MAIN's context is that of neither handler. -/
theorem handlerBodiesNotForMain : Obligations.HandlerBodiesNotForMain := by
  intro s hc
  rw [exec_smpIsr_of_context (.inl (by simp [hc])), exec_rotIsr_of_context (by simp [hc]), raise_of_main hc,
    raise_of_main hc]
  exact ⟨rfl, rfl⟩

/-! ## The frame of the sampler's commands -/

/-- Settles O18: a command raises a fault, which writes the fault fields, or has its effect, which writes what its row
lists. -/
theorem samplerFrame : Obligations.SamplerFrame := by
  intro i s t h
  refine ⟨?reads, ?isr, ?init⟩
  case reads =>
    rintro (rfl | ⟨idx, rfl⟩)
    · obtain ⟨_, _, rfl⟩ | ⟨-, -, rfl⟩ := exec_next h <;> exact ⟨rfl, fun _ => rfl⟩
    · obtain ⟨_, _, rfl⟩ | ⟨-, -, -, rfl⟩ := exec_next h <;> exact ⟨rfl, fun _ => rfl⟩
  case isr =>
    rintro rfl
    obtain ⟨_, _, rfl⟩ | ⟨-, -, -, rfl⟩ := exec_next h <;> exact ⟨rfl, rfl, fun _ => rfl⟩
  case init =>
    rintro rfl
    obtain ⟨_, _, rfl⟩ | ⟨-, -, -, rfl⟩ := exec_next h
    · exact ⟨rfl, rfl, rfl, fun _ => rfl⟩
    · obtain ⟨_, _, _, _, hf, -⟩ := smpInit_frame s
      rw [hf]
      exact ⟨rfl, rfl, rfl, fun _ => rfl⟩

/-! ## The converter's completion (R144) -/

/-- The converter running: it is enabled unless a completion waits under `hold`. -/
theorem enabled_adc_eq {s : State} (hf : s.fault.faulted = false) (hen : s.adcCtrl.en = true)
    (hfree : s.adcCtrl.free = true) (hactive : s.convActive = true) :
    enabled .adc s = !(s.adcCtrl.iflag && s.cfg.adcOverrun == .hold) := by
  simp [enabled, hf, hen, hfree, hactive]

/-- Settles O19: the result is the draw of `2 ^ ADC_BITS`, and the converter's step completes or overruns by the flag. -/
theorem conversionCompletes : Obligations.ConversionCompletes := by
  intro s
  refine ⟨enabled_adc, fun hf hen hfree hactive => ?_⟩
  have henabled := enabled_adc_eq hf hen hfree hactive
  refine ⟨?completes, ?holds, ?overruns⟩
  case completes =>
    intro hflag
    refine ⟨(draw (2 ^ s.cfg.adcBits) s).1, (draw (2 ^ s.cfg.adcBits) s).2.env, draw_lt (by positivity) s, ?_, ?_⟩
    · intro d rest hd
      rw [draw_listed _ hd]
      exact ⟨rfl, rfl⟩
    · rw [runTurn_enabled (by simp [henabled, hflag])]
      simp only [agentStep, adcStep, hflag, completeConversion, drawResult]
      rw [draw_state]
      simp [startConversion, hactive]
  case holds =>
    intro hflag hhold
    simp [henabled, hflag, hhold]
  case overruns =>
    intro hflag hfault
    rw [runTurn_enabled (by simp [henabled, hfault])]
    simp [agentStep, adcStep, hflag, raiseBy, faultNumber]

end Sys2Proof.SamplerProofs
end

section
/-! The statements of 42_rotary.md: the accumulator, the debouncer's commands, the pins, what every accepted table makes
of a sequence of patterns, and the conservation of detents (R171 to R180). -/

namespace Sys2Proof.RotaryProofs

open Sys2Proof.Machine Sys2Proof.Safety Sys2Proof.Laws Sys2Proof.StateProofs Sys2Proof.EncodingProofs
  Sys2Proof.SamplerProofs

/-! ## `AccAdd` (R176) -/

theorem accInRange_iff {bits : Nat} {t : Int} :
    accInRange bits t = true ↔ -(2 ^ (bits - 1)) ≤ t ∧ t ≤ 2 ^ (bits - 1) - 1 := by
  simp [accInRange]

theorem accAdd_of_inRange {cfg : Config} {acc d : Int} (h : accInRange cfg.rotAccBits (acc + d) = true) :
    accAdd cfg acc d = some (acc + d) := if_pos h

theorem accAdd_of_overflow_fault {cfg : Config} {acc d : Int} (h : accInRange cfg.rotAccBits (acc + d) = false)
    (hovf : cfg.rotOvf = .fault) : accAdd cfg acc d = none := by
  simp [accAdd, h, hovf]

theorem accAdd_of_overflow_wrap {cfg : Config} {acc d : Int} (h : accInRange cfg.rotAccBits (acc + d) = false)
    (hovf : cfg.rotOvf = .wrap) : accAdd cfg acc d = some ((acc + d).bmod (2 ^ cfg.rotAccBits)) := by
  simp [accAdd, h, hovf]

/-- Under `fault` the only value `AccAdd` answers is the sum. -/
theorem eq_add_of_accAdd {cfg : Config} {acc d r : Int} (hovf : cfg.rotOvf = .fault)
    (h : accAdd cfg acc d = some r) : r = acc + d := by
  cases hin : accInRange cfg.rotAccBits (acc + d) with
  | true => rw [accAdd_of_inRange hin] at h; exact (Option.some.inj h).symm
  | false => rw [accAdd_of_overflow_fault hin hovf] at h; cases h

/-- Settles O25: the wrapped value is the balanced remainder, which has the accumulator's width. -/
theorem accumulatorAdd : Obligations.AccumulatorAdd := by
  rintro cfg acc d lo hi hb rfl rfl
  refine ⟨fun hlo hhi => accAdd_of_inRange (accInRange_iff.2 ⟨hlo, hhi⟩), fun hout => ?_, accInRange_iff⟩
  have hover : accInRange cfg.rotAccBits (acc + d) = false := by
    rw [Bool.eq_false_iff, Ne, accInRange_iff]
    omega
  refine ⟨accAdd_of_overflow_fault hover, fun hovf => ⟨_, accAdd_of_overflow_wrap hover hovf, ?_⟩⟩
  obtain ⟨hlo, hhi⟩ := accInRange_iff.1 (accInRange_bmod hb (acc + d))
  have hmod := Int.bmod_emod (x := acc + d) (m := 2 ^ cfg.rotAccBits)
  exact ⟨hlo, hhi, by simpa using Int.emod_eq_emod_iff_emod_sub_eq_zero.1 hmod⟩

/-! ## The transition (R174) -/

/-- Where the checks pass and `AccAdd` gives a sum, the transition is made. -/
theorem rotTransition_of_transition {pa pb : Bool} {s : State} {rs : RotaryState} {acc : Int}
    (h : Transition pa pb s rs acc) : rotTransition pa pb s = .ok { s with rs := rs, acc := acc } := by
  obtain ⟨hi, hr, d, hcell, ⟨rfl, rfl⟩ | ⟨hd, hadd⟩⟩ := h
  · simp [rotTransition, hi, hr, hcell]
  · simp [rotTransition, hi, hr, hcell, hd, hadd]

theorem exec_rotStep_of_transition {pa pb : Bool} {s : State} {rs : RotaryState} {acc : Int}
    (h : Transition pa pb s rs acc) :
    exec (.rotStep pa pb) s = .next (advance { s with rs := rs, acc := acc }) := by
  simp [exec, execRotStep, rotTransition_of_transition h]

theorem exec_rotStep_of_error {pa pb : Bool} {s : State} {code : FaultCode} {info : Half}
    (h : rotTransition pa pb s = .error (code, info)) : exec (.rotStep pa pb) s = .next (raise code info s) := by
  simp [exec, execRotStep, h]

/-- Settles O23: the checks in the order written, and the transition past them. -/
theorem rotaryStepResult : Obligations.RotaryStepResult := by
  intro s pa pb
  refine ⟨?transition, ?unmasked, ?notReady, ?badCell, ?overflow, decodeInvertsEncode (.rotStep pa pb)⟩
  case transition => exact fun _ d _ hi hr hcell hacc => exec_rotStep_of_transition ⟨hi, hr, d, hcell, hacc⟩
  case unmasked => exact fun hi => exec_rotStep_of_error (by simp [rotTransition, hi])
  case notReady => exact fun hi hr => exec_rotStep_of_error (by simp [rotTransition, hi, hr])
  case badCell =>
    exact fun hi hr hcell => exec_rotStep_of_error (by simp [rotTransition, hi, hr, hcell, tableIndex])
  case overflow =>
    intro ns d hi hr hovf hcell hd hout
    exact exec_rotStep_of_error (by simp [rotTransition, hi, hr, hcell, hd, accAdd_of_overflow_fault hout hovf])

/-! ## The other commands (R173, R175, R178) -/

/-- In its handler `ROT.ISR` is `ROT.STEP` of the present levels but for `MPC`, since both run the one transition. -/
theorem exec_rotIsr_of_handler {s : State} (hc : s.ctx = .isrPcint) :
    ∃ t, exec (.rotStep s.pinA s.pinB) s = .next t ∧ exec .rotIsr s = .next { t with mpc := s.mpc } := by
  cases h : rotTransition s.pinA s.pinB s with
  | ok u =>
    obtain ⟨rs, acc, htr, rfl⟩ := rotTransition_ok h
    exact ⟨_, exec_rotStep_of_transition htr, by simp [exec, execRotIsr, hc, h, advance]⟩
  | error e => exact ⟨_, exec_rotStep_of_error h, by simp [exec, execRotIsr, hc, h, raise, raiseBy]⟩

/-- Settles O24: a transition in the handler is that of `ROT.STEP`, with `MPC` put back. -/
theorem rotaryIsrResult : Obligations.RotaryIsrResult := by
  intro s
  refine ⟨exec_rotIsr_of_handler, ?transition, exec_rotIsr_of_context, decodeInvertsEncode .rotIsr⟩
  case transition =>
    intro ns d acc hc hi hr hcell hacc
    obtain ⟨t, hstep, hisr⟩ := exec_rotIsr_of_handler hc
    rw [exec_rotStep_of_transition ⟨hi, hr, d, hcell, hacc⟩] at hstep
    cases hstep
    exact hisr

/-- Settles O22: the checks in order, and the writes past them. -/
theorem rotaryInitResult : Obligations.RotaryInitResult := by
  intro s
  refine ⟨?effect, ?context, ?twice, decodeInvertsEncode .rotInit⟩
  case effect => intro hc hr; simp [exec, execRotInit, hc, hr, advance]
  case context => intro hc; simp [exec, execRotInit, hc]
  case twice => intro hc hr; simp [exec, execRotInit, hc, hr]

/-- `ROT.TAKE` of a count that is not zero: the zero test reads torn or whole. -/
theorem exec_rotTake_of_ne_zero {s : State} (hc : s.ctx = .main) (hr : s.rotReady = true) (hacc : s.acc ≠ 0) :
    exec .rotTake s =
      if (drawTorn s).1 then .next (advance (logRet (.s16 0#16) (drawTorn s).2))
      else .next (advance (takeAcc (drawTorn s).2)) := by
  simp [exec, execRotTake, hc, hr, hacc]

/-- The zero test is whole where no handler can run between the bytes. -/
theorem drawTorn_of_whole {s : State} (h : s.i = false ∨ s.cfg.rotAccBits ≤ 8) : drawTorn s = (false, s) := by
  refine if_neg fun ⟨hi, hbits⟩ => ?_
  obtain hmask | hnarrow := h
  · simp [hmask] at hi
  · omega

/-- Elsewhere the zero test is torn where a draw of two answers 1. -/
theorem drawTorn_of_exposed {s : State} (hi : s.i = true) (hbits : 8 < s.cfg.rotAccBits) :
    drawTorn s = ((draw 2 s).1 == 1, (draw 2 s).2) := if_pos ⟨hi, hbits⟩

/-- Settles O26: the zero test decides between returning 0 and draining the accumulator. -/
theorem rotaryTakeResult : Obligations.RotaryTakeResult := by
  intro s
  refine ⟨?zero, ?whole, ?exposed, ?context, ?notReady, decodeInvertsEncode .rotTake⟩
  case zero => intro hc hr hacc; simp [exec, execRotTake, hc, hr, hacc, logRet, advance]
  case whole =>
    intro hc hr hacc hwhole
    rw [exec_rotTake_of_ne_zero hc hr hacc, drawTorn_of_whole hwhole]
    rfl
  case exposed =>
    intro hc hr hacc hi hbits
    refine ⟨(draw 2 s).2.env, ?_⟩
    rw [exec_rotTake_of_ne_zero hc hr hacc, drawTorn_of_exposed hi hbits, draw_state 2 s]
    constructor <;> intro hd <;> simp [hd, takeAcc, logRet, advance]
  case context => intro hc; simp [exec, execRotTake, hc]
  case notReady => intro hc hr; simp [exec, execRotTake, hc, hr]

/-- Settles O27: a command raises a fault, which writes the fault fields, or has its effect, which writes what its row
lists. -/
theorem rotaryFrame : Obligations.RotaryFrame := by
  intro i s t h
  refine ⟨?step, ?isr, ?take, ?init⟩
  case step =>
    rintro ⟨pa, pb, rfl⟩
    obtain ⟨_, _, rfl⟩ | ⟨_, _, -, rfl⟩ := exec_next h <;> exact ⟨rfl, fun _ => rfl⟩
  case isr =>
    rintro rfl
    obtain ⟨_, _, rfl⟩ | ⟨-, _, _, -, rfl⟩ := exec_next h <;> exact ⟨rfl, fun _ => rfl⟩
  case take =>
    rintro rfl
    obtain ⟨_, _, rfl⟩ | ⟨-, -, _, rfl | ⟨-, rfl⟩⟩ := exec_next h <;> exact ⟨rfl, fun _ => rfl⟩
  case init =>
    rintro rfl
    obtain ⟨_, _, rfl⟩ | ⟨-, -, rfl⟩ := exec_next h <;> exact ⟨rfl, fun _ => rfl⟩

/-! ## The pins (R177) -/

/-- The levels of a pattern are those it is made of. -/
theorem levels_of_pinPattern (a b : Bool) : (pinPattern a b % 2 == 1) = a ∧ (pinPattern a b / 2 == 1) = b := by
  cases a <;> cases b <;> decide

/-- Every pattern is that of its levels. -/
theorem pinPattern_of_levels {p : Nat} (hp : p < 4) : pinPattern (p % 2 == 1) (p / 2 == 1) = p := by
  interval_cases p <;> rfl

/-- Different pairs of levels have different patterns. -/
theorem pinPattern_ne_iff {a b a' b' : Bool} : pinPattern a b ≠ pinPattern a' b' ↔ a ≠ a' ∨ b ≠ b' := by
  refine ⟨fun h => ?_, fun h heq => ?_⟩
  · by_contra hsame
    obtain ⟨rfl, rfl⟩ : a = a' ∧ b = b' := by simpa using hsame
    exact h rfl
  · obtain ⟨ha, hb⟩ := levels_of_pinPattern a b
    obtain ⟨ha', hb'⟩ := levels_of_pinPattern a' b'
    rw [heq] at ha hb
    exact h.elim (fun hne => hne (ha.symm.trans ha')) fun hne => hne (hb.symm.trans hb')

/-- The pins' turn: the pattern moves on by the distance drawn. -/
theorem runTurn_pins {s : State} (hf : s.fault.faulted = false) :
    runTurn .pins s = .next
      { s with
        pinA := (pinPattern s.pinA s.pinB + 1 + (draw 3 s).1) % 4 % 2 == 1
        pinB := (pinPattern s.pinA s.pinB + 1 + (draw 3 s).1) % 4 / 2 == 1
        pcif := true, env := (draw 3 s).2.env } := by
  rw [runTurn_enabled (by simp [enabled, hf])]
  simp only [agentStep, pinsStep]
  rw [draw_state 3 s]

/-- Settles O51: the distance drawn is below 3, so the pattern changes, and every other pattern has a distance. -/
theorem pinChange : Obligations.PinChange := by
  intro s hf
  have hpresent := pinPattern_lt s.pinA s.pinB
  refine ⟨⟨_, _, _, ?_, runTurn_pins hf⟩, fun a b hne => ?_⟩
  · have hdraw := draw_lt (k := 3) (by decide) s
    rw [← pinPattern_ne_iff, pinPattern_of_levels (Nat.mod_lt _ (by decide))]
    omega
  · have hother := pinPattern_lt a b
    have hne' := pinPattern_ne_iff.2 hne
    refine ⟨(pinPattern a b + 3 - pinPattern s.pinA s.pinB) % 4, fun rest => ?_⟩
    have hdistance : (pinPattern s.pinA s.pinB + 1 + (pinPattern a b + 3 - pinPattern s.pinA s.pinB) % 4 % 3) % 4 =
        pinPattern a b := by omega
    obtain ⟨ha, hb⟩ := levels_of_pinPattern a b
    rw [runTurn_pins (by exact hf), draw_listed 3 rfl]
    simp only [hdistance, ha, hb]

/-! ## What an accepted table makes of a walk (R171) -/

/-- Both directions of an accepted table have their full path and no shorter one to their trigger. -/
theorem tableOk_paths {table : List Byte} (h : tableOk table = true) :
    tablePathsOk table = true ∧ tableNoShortcut table 1 1 = true ∧ tableNoShortcut table 4 2 = true := by
  simp only [tableOk, Bool.and_eq_true] at h
  obtain ⟨⟨⟨⟨-, hpaths⟩, -⟩, hcw⟩, hccw⟩ := h
  exact ⟨hpaths, hcw, hccw⟩

theorem rotaryCode_injective : Function.Injective rotaryCode := fun rs rs' h => by
  simpa using congrArg rotaryOfCode h

/-- A transition whose trigger counts has the trigger's code in its cell. -/
theorem cellTrigger_of_tableStep {table : List Byte} {rs ns : RotaryState} {p : Nat} :
    (tableStep table rs p = some (ns, 1) → cellTrigger table (rotaryCode rs) p = 1) ∧
      (tableStep table rs p = some (ns, -1) → cellTrigger table (rotaryCode rs) p = 2) := by
  constructor <;> intro h <;> have := triggerDelta_eq_some (tableStep_eq_some h).2 <;> omega

/-- An edge of the table is a transition some pattern makes. -/
theorem tableStep_of_hasEdge {table : List Byte} {rs ns : RotaryState} {tr : Nat} {d : Int}
    (h : tableHasEdge table (rotaryCode rs) (rotaryCode ns) tr = true) (hd : triggerDelta tr = some d) :
    ∃ p, p < 4 ∧ tableStep table rs p = some (ns, d) := by
  simp only [tableHasEdge, List.any_eq_true, List.mem_range, Bool.and_eq_true, beq_iff_eq] at h
  obtain ⟨p, hp, hnext, htrigger⟩ := h
  exact ⟨p, hp, by simp [tableStep, hnext, htrigger, hd]⟩

/-- Four edges in a row from `Start`, with a trigger on the last, count once. -/
theorem walk_of_edges {table : List Byte} {x y z : RotaryState} {tr : Nat} {d : Int}
    (hd : triggerDelta tr = some d)
    (h₁ : tableHasEdge table 0 (rotaryCode x) 0 = true) (h₂ : tableHasEdge table (rotaryCode x) (rotaryCode y) 0 = true)
    (h₃ : tableHasEdge table (rotaryCode y) (rotaryCode z) 0 = true)
    (h₄ : tableHasEdge table (rotaryCode z) 0 tr = true) :
    ∃ a b c e : Nat, a < 4 ∧ b < 4 ∧ c < 4 ∧ e < 4 ∧ rotVisits table .start [a, b, c, e] = [x, y, z, .start] ∧
      rotWalk table .start [a, b, c, e] = some (.start, d) := by
  obtain ⟨a, ha, hsa⟩ := tableStep_of_hasEdge (rs := .start) h₁ rfl
  obtain ⟨b, hb, hsb⟩ := tableStep_of_hasEdge h₂ rfl
  obtain ⟨c, hc, hsc⟩ := tableStep_of_hasEdge h₃ rfl
  obtain ⟨e, he, hse⟩ := tableStep_of_hasEdge (ns := .start) h₄ hd
  refine ⟨a, b, c, e, ha, hb, hc, he, ?_, ?_⟩
  · simp [rotVisits, hsa, hsb, hsc, hse]
  · simp [rotWalk, hsa, hsb, hsc, hse]

/-- Settles O30: R171's third condition gives the four edges of each path. -/
theorem fullPathsCount : Obligations.FullPathsCount := by
  intro table h
  have hpaths := (tableOk_paths h).1
  simp only [tablePathsOk, Bool.and_eq_true] at hpaths
  obtain ⟨⟨⟨⟨⟨⟨⟨h01, h12⟩, h23⟩, h30⟩, h04⟩, h45⟩, h56⟩, h60⟩ := hpaths
  exact ⟨walk_of_edges rfl h01 h12 h23 h30, walk_of_edges rfl h04 h45 h56 h60⟩

/-! ### No trigger without the full path (R171, condition 5) -/

/-- The pairs of a state and a progress that the table's search finds: they hold the start, are closed under every
pattern, and the trigger `tr` leaves only pairs with all three states visited. -/
structure NoShortcut (table : List Byte) (first tr : Nat) (found : List (Nat × Nat)) : Prop where
  start : (0, 0) ∈ found
  closed : ∀ node ∈ found, ∀ p < 4,
    (cellNext table node.1 p, pathProgress first node.2 (cellNext table node.1 p)) ∈ found
  trigger : ∀ node ∈ found, ∀ p < 4, cellTrigger table node.1 p = tr → node.2 = 3

/-- The search's answer is such a set of pairs. -/
theorem noShortcut_of_table {table : List Byte} {first tr : Nat} (h : tableNoShortcut table first tr = true) :
    ∃ found, NoShortcut table first tr found := by
  simp only [tableNoShortcut, pathSuccessors, Bool.and_eq_true, List.all_eq_true, List.contains_iff_mem, List.mem_map,
    List.mem_range, Bool.or_eq_true, bne_iff_ne, beq_iff_eq] at h
  obtain ⟨hstart, hall⟩ := h
  refine ⟨_, hstart, fun node hnode p hp => ?_, fun node hnode p hp htr => ?_⟩
  · exact (hall node hnode).1 _ ⟨p, hp, rfl⟩
  · exact ((hall node hnode).2 p hp).resolve_left (not_not_intro htr)

/-- A visit to `Start` begins anew; any other visit is added to those since the last. -/
theorem sinceStart_concat (visits : List RotaryState) (rs : RotaryState) :
    sinceStart (visits ++ [rs]) = if rs = .start then [] else sinceStart visits ++ [rs] := by
  by_cases h : rs = .start <;> simp [sinceStart, h]

/-- The progress `k` counts states of the path visited in order since the last visit to `Start`. -/
theorem take_sublist_concat {path visits : List RotaryState} {first k : Nat} (rs : RotaryState)
    (hpath : path.map rotaryCode = [first, first + 1, first + 2])
    (h : (path.take k).Sublist (sinceStart visits)) :
    (path.take (pathProgress first k (rotaryCode rs))).Sublist (sinceStart (visits ++ [rs])) := by
  unfold pathProgress
  split_ifs with hstart hnext
  · simp
  · have hne : rs ≠ .start := fun hrs => hstart (hrs ▸ rfl)
    obtain ⟨hk, hcode⟩ := hnext
    have hget : path[k]? = some rs := by
      have hmap : (path.map rotaryCode)[k]? = some (rotaryCode rs) := by
        rw [hpath, hcode]
        interval_cases k <;> rfl
      obtain ⟨x, hx, hcx⟩ : ∃ x, path[k]? = some x ∧ rotaryCode x = rotaryCode rs := by simpa using hmap
      rw [hx, rotaryCode_injective hcx]
    rw [sinceStart_concat, if_neg hne, List.take_add_one, hget]
    exact h.append (List.Sublist.refl _)
  · have hne : rs ≠ .start := fun hrs => hstart (hrs ▸ rfl)
    rw [sinceStart_concat, if_neg hne]
    exact h.trans (List.sublist_append_left _ _)

/-- A walk is a transition and the walk from the state it leads to. -/
theorem rotWalk_cons_eq_some {table : List Byte} {rs rs' : RotaryState} {p : Nat} {ps : List Nat} {sum : Int} :
    rotWalk table rs (p :: ps) = some (rs', sum) ↔
      ∃ ns d sum', tableStep table rs p = some (ns, d) ∧ rotWalk table ns ps = some (rs', sum') ∧ d + sum' = sum := by
  cases hcell : tableStep table rs p with
  | none => simp [rotWalk, hcell]
  | some cell =>
    obtain ⟨ns, d⟩ := cell
    cases hwalk : rotWalk table ns ps with
    | none => simp [rotWalk, hcell, hwalk]
    | some reached => simp [rotWalk, hcell, hwalk, Prod.ext_iff]

/-- A walk stays in the pairs found, its progress counting the states of the path visited since the last visit to
`Start`: by induction on the patterns, after any visits `before`. -/
theorem progress_of_walk {table : List Byte} {path : List RotaryState} {first tr : Nat} {found : List (Nat × Nat)}
    (hfound : NoShortcut table first tr found) (hpath : path.map rotaryCode = [first, first + 1, first + 2])
    {ps : List Nat} (hps : ∀ p ∈ ps, p < 4) {rs rs' : RotaryState} {sum : Int} {before : List RotaryState} {k : Nat}
    (hnode : (rotaryCode rs, k) ∈ found) (hk : (path.take k).Sublist (sinceStart before))
    (hwalk : rotWalk table rs ps = some (rs', sum)) :
    ∃ k', (rotaryCode rs', k') ∈ found ∧ (path.take k').Sublist (sinceStart (before ++ rotVisits table rs ps)) := by
  induction ps generalizing rs sum before k with
  | nil =>
    cases hwalk
    exact ⟨k, hnode, by simpa [rotVisits] using hk⟩
  | cons p ps ih =>
    obtain ⟨hp, hrest⟩ := List.forall_mem_cons.1 hps
    obtain ⟨ns, d, sum', hcell, hwalk', -⟩ := rotWalk_cons_eq_some.1 hwalk
    have hcode : rotaryCode ns = cellNext table (rotaryCode rs) p :=
      rotaryCode_of_rotaryOfCode (tableStep_eq_some hcell).1
    have hclosed := hfound.closed _ hnode p hp
    rw [← hcode] at hclosed
    obtain ⟨k', hnode', hk'⟩ := ih hrest hclosed (take_sublist_concat ns hpath hk) hwalk'
    exact ⟨k', hnode', by simpa [rotVisits, hcell] using hk'⟩

/-- In a table without a shortcut to the trigger `tr`, the trigger comes only after the whole path. -/
theorem path_sublist_of_trigger {table : List Byte} {path : List RotaryState} {first tr p : Nat} {ps : List Nat}
    {rs : RotaryState} {sum : Int} (htable : tableNoShortcut table first tr = true)
    (hpath : path.map rotaryCode = [first, first + 1, first + 2]) (hps : ∀ q ∈ ps, q < 4) (hp : p < 4)
    (hwalk : rotWalk table .start ps = some (rs, sum)) (htrigger : cellTrigger table (rotaryCode rs) p = tr) :
    path.Sublist (sinceStart (rotVisits table .start ps)) := by
  obtain ⟨found, hfound⟩ := noShortcut_of_table htable
  obtain ⟨k, hnode, hk⟩ := progress_of_walk hfound hpath hps (rs := .start) (k := 0) (before := []) hfound.start
    (List.Sublist.refl _) hwalk
  have hall : k = 3 := hfound.trigger _ hnode p hp htrigger
  have hlength : path.length = 3 := by simpa using congrArg List.length hpath
  rwa [hall, List.take_of_length_le hlength.le, List.nil_append] at hk

/-- Settles O28: each direction's trigger has its own code and path. -/
theorem triggerNeedsFullPath : Obligations.TriggerNeedsFullPath := by
  intro table ps p rs ns sum htable hps hp hwalk
  obtain ⟨-, hcw, hccw⟩ := tableOk_paths htable
  exact ⟨fun h => path_sublist_of_trigger hcw rfl hps hp hwalk (cellTrigger_of_tableStep.1 h),
    fun h => path_sublist_of_trigger hccw rfl hps hp hwalk (cellTrigger_of_tableStep.2 h)⟩

/-! ## Bounce rejection (R179) -/

/-- No transition of the walk from `rs` under the patterns changes the accumulator. -/
def NoTrigger (table : List Byte) (rs : RotaryState) (ps : List Nat) : Prop :=
  ∀ k < ps.length, ∀ (rs' ns : RotaryState) (sum d : Int), rotWalk table rs (ps.take k) = some (rs', sum) →
    tableStep table rs' (ps.getD k 0) = some (ns, d) → d = 0

/-- The first transition of such a walk, and the rest of it. -/
theorem noTrigger_cons {table : List Byte} {rs ns : RotaryState} {p : Nat} {ps : List Nat} {d : Int}
    (h : NoTrigger table rs (p :: ps)) (hcell : tableStep table rs p = some (ns, d)) :
    d = 0 ∧ NoTrigger table ns ps := by
  refine ⟨h 0 (by simp) rs ns 0 d rfl hcell, fun k hk rs' ns' sum e hwalk hcell' => ?_⟩
  exact h (k + 1) (by simpa using hk) rs' ns' (d + sum) e (rotWalk_cons_eq_some.2 ⟨ns, d, sum, hcell, hwalk, rfl⟩)
    (by simpa using hcell')

/-- A path is completed by a transition with the change `d` after its states. -/
theorem completesPath_of_step {table : List Byte} {path : List RotaryState} {d sum : Int} {ps : List Nat} {k : Nat}
    {rs ns : RotaryState} (hk : k < ps.length)
    (hpath : path.Sublist (sinceStart (rotVisits table .start (ps.take k))))
    (hwalk : rotWalk table .start (ps.take k) = some (rs, sum))
    (hcell : tableStep table rs (ps.getD k 0) = some (ns, d)) : completesPath table path d ps = true := by
  simp only [completesPath, List.any_eq_true, List.mem_range]
  exact ⟨k, hk, by simp only [hwalk, hcell, List.isSublist_iff_sublist.2 hpath, beq_self_eq_true, Bool.and_self]⟩

/-- In an accepted table, patterns from `Start` that complete no full path make no trigger. -/
theorem noTrigger_of_no_path {table : List Byte} {ps : List Nat} (htable : tableOk table = true)
    (hps : ∀ p ∈ ps, p < 4)
    (hcw : completesPath table [.cwBegin, .cwNext, .cwFinal] 1 ps = false)
    (hccw : completesPath table [.ccwBegin, .ccwNext, .ccwFinal] (-1) ps = false) :
    NoTrigger table .start ps := by
  intro k hk rs ns sum d hwalk hcell
  have hp : ps.getD k 0 < 4 := by
    rw [List.getD_eq_getElem _ _ hk]
    exact hps _ (List.getElem_mem hk)
  have hpaths := triggerNeedsFullPath table (ps.take k) _ rs ns sum htable
    (fun q hq => hps q (List.mem_of_mem_take hq)) hp hwalk
  obtain ⟨-, rfl⟩ | ⟨-, rfl⟩ | ⟨-, rfl⟩ := triggerDelta_eq_some (tableStep_eq_some hcell).2
  · rfl
  · simp [completesPath_of_step hk (hpaths.1 hcell) hwalk hcell] at hcw
  · simp [completesPath_of_step hk (hpaths.2 hcell) hwalk hcell] at hccw

/-- The first pair of levels makes its transition. -/
theorem stepLevels_cons_of_transition {pa pb : Bool} {rest : List (Bool × Bool)} {s : State} {rs : RotaryState}
    {acc : Int} (h : Transition pa pb s rs acc) :
    stepLevels ((pa, pb) :: rest) s = stepLevels rest (advance { s with rs := rs, acc := acc }) := by
  rw [stepLevels_cons, exec_rotStep_of_transition h, andThen_next]

/-- Levels that make no trigger move the state only, by induction on the levels. -/
theorem stepLevels_of_noTrigger {levels : List (Bool × Bool)} {s : State} (htable : tableOk s.cfg.rotTable = true)
    (hi : s.i = false) (hr : s.rotReady = true)
    (h : NoTrigger s.cfg.rotTable s.rs (levels.map fun l => pinPattern l.1 l.2)) :
    ∃ rs, stepLevels levels s = .next { s with rs := rs, mpc := s.mpc + levels.length } := by
  induction levels generalizing s with
  | nil => exact ⟨s.rs, rfl⟩
  | cons l rest ih =>
    obtain ⟨pa, pb⟩ := l
    obtain ⟨ns, d, hcell⟩ := tableStep_isSome htable s.rs (pinPattern_lt pa pb)
    obtain ⟨rfl, hrest⟩ := noTrigger_cons h hcell
    obtain ⟨rs, hsteps⟩ := ih (s := advance { s with rs := ns }) htable hi hr hrest
    refine ⟨rs, ?_⟩
    rw [stepLevels_cons_of_transition ⟨hi, hr, 0, hcell, .inl ⟨rfl, rfl⟩⟩, hsteps]
    have hmpc : s.mpc + 1 + rest.length = s.mpc + (rest.length + 1) := by omega
    simp [advance, hmpc]

/-- Levels stepped where the accumulator is further from its bounds than there are levels add the walk's sum, by
induction on the levels: each transition changes the accumulator by at most 1. -/
theorem stepLevels_of_rotWalk {levels : List (Bool × Bool)} {s : State} {rs : RotaryState} {sum : Int}
    (hi : s.i = false) (hr : s.rotReady = true)
    (hlow : -(2 ^ (s.cfg.rotAccBits - 1)) ≤ s.acc - levels.length)
    (hhigh : s.acc + levels.length ≤ 2 ^ (s.cfg.rotAccBits - 1) - 1)
    (hwalk : rotWalk s.cfg.rotTable s.rs (levels.map fun l => pinPattern l.1 l.2) = some (rs, sum)) :
    stepLevels levels s = .next { s with rs := rs, acc := s.acc + sum, mpc := s.mpc + levels.length } := by
  induction levels generalizing s sum with
  | nil => cases hwalk; simp
  | cons l rest ih =>
    obtain ⟨pa, pb⟩ := l
    obtain ⟨ns, d, sum', hcell, hwalk', rfl⟩ := rotWalk_cons_eq_some.1 hwalk
    have hd := triggerDelta_eq_some (tableStep_eq_some hcell).2
    rw [List.length_cons, Nat.cast_add_one] at hlow hhigh
    have hadd : accAdd s.cfg s.acc d = some (s.acc + d) := accAdd_of_inRange (accInRange_iff.2 (by omega))
    have htr : Transition pa pb s ns (s.acc + d) := by
      refine ⟨hi, hr, d, hcell, ?_⟩
      by_cases hzero : d = 0
      · exact .inl ⟨hzero, by omega⟩
      · exact .inr ⟨hzero, hadd⟩
    rw [stepLevels_cons_of_transition htr, ih (s := advance { s with rs := ns, acc := s.acc + d }) hi hr
      (by simp only [advance]; omega) (by simp only [advance]; omega) hwalk']
    have hmpc : s.mpc + 1 + rest.length = s.mpc + (rest.length + 1) := by omega
    simp [advance, hmpc, Int.add_assoc]

/-- The sums of R179's five sequences with the default table, each back in `Start`. -/
theorem rotWalk_defaultTable {ps : List Nat} {sum : Int}
    (h : (ps, sum) ∈
      [([1, 3], 0), ([1, 0, 2, 3], 1), ([2, 0, 1, 3], -1), ([1, 0, 1, 0, 2, 3], 1), ([1, 0, 2, 0, 1, 3], 0)]) :
    rotWalk defaultTable .start ps = some (.start, sum) ∧ ps.length ≤ 6 := by
  have hall : ∀ e ∈ [([1, 3], (0 : Int)), ([1, 0, 2, 3], 1), ([2, 0, 1, 3], -1), ([1, 0, 1, 0, 2, 3], 1),
      ([1, 0, 2, 0, 1, 3], 0)], rotWalk defaultTable .start e.1 = some (.start, e.2) ∧ e.1.length ≤ 6 := by decide
  exact hall _ h

/-- Settles O29: without a full path no transition has a trigger; and the default table's sums stay far from the
accumulator's bounds. -/
theorem bounceLeavesAccumulator : Obligations.BounceLeavesAccumulator := by
  refine ⟨?bounce, by decide, ?sequences⟩
  case bounce =>
    rintro s levels ps htable hi hr hstart rfl hcw hccw
    have hps : ∀ p ∈ levels.map fun l => pinPattern l.1 l.2, p < 4 := by
      intro p hp
      obtain ⟨l, -, rfl⟩ := List.mem_map.1 hp
      exact pinPattern_lt l.1 l.2
    have hnone := noTrigger_of_no_path htable hps hcw hccw
    exact stepLevels_of_noTrigger htable hi hr (hstart ▸ hnone)
  case sequences =>
    rintro s levels ps sum htable hbits hi hr hstart hacc rfl hmem
    obtain ⟨hwalk, hlength⟩ := rotWalk_defaultTable hmem
    rw [List.length_map] at hlength
    rw [stepLevels_of_rotWalk (rs := .start) (sum := sum) hi hr (by rw [hbits, hacc]; omega)
      (by rw [hbits, hacc]; omega) (by rw [htable, hstart]; exact hwalk), hacc, Int.zero_add, ← hstart]

/-! ## Conservation (R180) -/

/-- What R180 conserves but for the transitions: the accumulator and the sum of what `ROT.TAKE` has returned. -/
def rotationTotal (s : State) : Int := s.acc + takenSum s.ret

/-- The change a command makes to the total: that of its transition, if it makes one. -/
def commandGain : Instr → State → Int
  | .rotStep pa pb, s => transitionGain pa pb s
  | _, _ => 0

/-- The change the step of an agent makes to the total. -/
def turnGain (u : Turn) (s : State) : Int :=
  match u with
  | .main => ((fetched s).map fun i => commandGain i s).getD 0
  | .isrPcint => transitionGain s.pinA s.pinB s
  | _ => 0

theorem turnGain_main {i : Instr} {s : State} (h : fetched s = some i) : turnGain .main s = commandGain i s := by
  simp [turnGain, h]

theorem commandGain_setEnv (i : Instr) (s : State) (env : Env) :
    commandGain i { s with env := env } = commandGain i s := by
  cases i <;> rfl

/-- The inputs do not enter the change. -/
theorem turnGain_setEnv (u : Turn) (s : State) (env : Env) : turnGain u { s with env := env } = turnGain u s := by
  cases u with
  | main => simp only [turnGain, commandGain_setEnv]; rfl
  | _ => rfl

@[simp] theorem takenSum_append (log more : List (Nat × RetValue)) :
    takenSum (log ++ more) = takenSum log + takenSum more := by
  simp [takenSum]

/-- A value of the accumulator is returned whole in 16 bits. -/
theorem toInt_ofInt_of_inRange {bits : Nat} {acc : Int} (hb : bits ≤ 16) (h : accInRange bits acc = true) :
    (BitVec.ofInt 16 acc).toInt = acc := by
  obtain ⟨hlo, hhi⟩ := accInRange_iff.1 h
  have hwidth : (2 : Int) ^ (bits - 1) ≤ 2 ^ 15 := pow_le_pow_right₀ (by decide) (by omega)
  exact BitVec.toInt_ofInt_eq_self (by decide) (by omega) (by omega)

/-- Without an overflow a transition adds its change. -/
theorem acc_of_transition {pa pb : Bool} {s : State} {rs : RotaryState} {acc : Int} (hovf : s.cfg.rotOvf = .fault)
    (h : Transition pa pb s rs acc) : acc = s.acc + transitionGain pa pb s := by
  obtain ⟨-, -, d, hcell, hacc⟩ := h
  have hgain : transitionGain pa pb s = d := by simp [transitionGain, hcell]
  obtain ⟨rfl, rfl⟩ | ⟨-, hadd⟩ := hacc
  · omega
  · rw [hgain, eq_add_of_accAdd hovf hadd]

/-- What `ROT.TAKE` takes out of the accumulator it returns. -/
theorem rotationTotal_rotTake {s t : State} (hb : s.cfg.rotAccBits ≤ 16)
    (hacc : accInRange s.cfg.rotAccBits s.acc = true) (he : Effect .rotTake s t) :
    rotationTotal t = rotationTotal s := by
  obtain ⟨-, -, env, rfl | ⟨-, rfl⟩⟩ := he
  · simp [rotationTotal, takenSum]
  · have hwhole := toInt_ofInt_of_inRange hb hacc
    simp [rotationTotal, takenSum, hwhole, Int.add_comm]

/-- A command executed by MAIN with the debouncer ready changes the total by its transition's change. -/
theorem rotationTotal_effect {i : Instr} {s t : State} (hc : s.ctx = .main) (hovf : s.cfg.rotOvf = .fault)
    (hb : s.cfg.rotAccBits ≤ 16) (hr : s.rotReady = true) (hacc : accInRange s.cfg.rotAccBits s.acc = true)
    (he : Effect i s t) : rotationTotal t = rotationTotal s + commandGain i s := by
  cases i with
  | rotStep pa pb =>
    obtain ⟨rs, acc, htr, rfl⟩ := he
    simp only [rotationTotal, commandGain, advance, acc_of_transition hovf htr]
    omega
  | rotTake => rw [rotationTotal_rotTake hb hacc he]; exact (Int.add_zero _).symm
  | rotInit => obtain ⟨-, hnot, -⟩ := he; simp [hr] at hnot
  | rotIsr => obtain ⟨hisr, -⟩ := he; simp [hc] at hisr
  | csExit => obtain ⟨_, -, rfl⟩ := he; simp [rotationTotal, commandGain]
  | assertIoff => obtain ⟨-, rfl⟩ := he; simp [rotationTotal, commandGain]
  | smpInit =>
    obtain ⟨-, -, -, rfl⟩ := he
    obtain ⟨_, _, _, _, hf, -⟩ := smpInit_frame s
    rw [hf]
    simp [rotationTotal, commandGain]
  | smpGet => obtain ⟨-, -, -, rfl⟩ := he; simp [rotationTotal, commandGain, takenSum]
  | smpGetall => obtain ⟨-, -, rfl⟩ := he; simp [rotationTotal, commandGain, takenSum]
  | smpIsr => obtain ⟨hisr, -⟩ := he; simp [hc] at hisr
  | eeInit =>
    obtain ⟨_, _, -, ⟨-, rfl⟩ | ⟨_, _, -, -, rfl⟩⟩ := he <;> simp [rotationTotal, commandGain, takenSum]
  | eePut => obtain ⟨-, -, -, -, rfl⟩ := he; simp [rotationTotal, commandGain]
  | irqOff | irqOn | csEnter | fence => cases he; simp [rotationTotal, commandGain]

/-- The step of an enabled agent that leaves the debouncer ready and does not fault changes the total by its
transition's change. -/
theorem rotationTotal_turnEffect {u : Turn} {s t : State} (h : Inv s) (hovf : s.cfg.rotOvf = .fault)
    (hb : s.cfg.rotAccBits ≤ 16) (hr : s.rotReady = true) (hrt : t.rotReady = true) (hf : t.fault.faulted = false)
    (he : TurnEffect u s t) : rotationTotal t = rotationTotal s + turnGain u s := by
  cases u with
  | main =>
    obtain ⟨i, hi, ⟨_, _, rfl⟩ | hx⟩ | ⟨-, _, rfl⟩ := he
    · simp at hf
    · rw [turnGain_main hi, rotationTotal_effect h.ctxMain hovf hb hr (h.accRange hr) hx]
    · simp at hf
  | isrAdc =>
    obtain ⟨f, hfault, rfl⟩ | ⟨-, rfl⟩ := he
    · simp [hfault] at hf
    · simp [rotationTotal, turnGain]
  | isrPcint =>
    obtain ⟨f, hfault, rfl⟩ | ⟨rs, acc, htr, rfl⟩ := he
    · simp [hfault] at hf
    · have hacc : acc = s.acc + transitionGain s.pinA s.pinB s := acc_of_transition (s := { s with i := false }) hovf htr
      simp only [rotationTotal, turnGain, hacc]
      omega
  | adc =>
    obtain ⟨_, rfl⟩ | ⟨-, _, _, -, rfl⟩ := he
    · simp at hf
    · simp [rotationTotal, turnGain]
  | pins => obtain ⟨_, _, _, rfl⟩ := he; simp [rotationTotal, turnGain]
  | power => cases he; simp [powerLoss, State.powerOn] at hrt
  | powerTorn => obtain ⟨_, _, _, _, -, -, rfl⟩ := he; simp [powerLoss, State.powerOn] at hrt

/-- The agent that takes the step is the one whose turn it is, where that is enabled. -/
theorem takes_iff {s v : State} {u w : Turn} (h : takeTurn s = (u, v)) : takes w s ↔ u = w ∧ enabled w v = true := by
  simp [takes, h]

/-- A step takes the total on by the change of the agent that steps, or no agent steps and the total stays. -/
theorem rotationTotal_step {s t : State} (h : Inv s) (hovf : s.cfg.rotOvf = .fault) (hstep : step s = .next t)
    (hr : s.rotReady = true) (hrt : t.rotReady = true) (hf : t.fault.faulted = false) :
    (∃ u, (∀ w, takes w s ↔ w = u) ∧ rotationTotal t = rotationTotal s + turnGain u s) ∨
      (∀ w, ¬ takes w s) ∧ rotationTotal t = rotationTotal s := by
  obtain ⟨-, hw, u, v, hu, hv, hcases⟩ := step_cases hstep
  obtain ⟨-, -, -, -, -, -, -, -, hb, -⟩ := configOk_bounds (wellFormed_parts hw).1
  obtain ⟨hheld, rfl⟩ | ⟨he, hx⟩ := hcases
  · refine .inr ⟨fun w htakes => ?_, by rw [hv]; rfl⟩
    obtain ⟨rfl, he⟩ := (takes_iff hu).1 htakes
    simp [hheld] at he
  · refine .inl ⟨u, fun w => ?_, ?_⟩
    · rw [takes_iff hu]
      exact ⟨fun ⟨hturn, _⟩ => hturn.symm, fun hturn => ⟨hturn.symm, hturn ▸ he⟩⟩
    · have htotal := rotationTotal_turnEffect (hv ▸ inv_setEnv h v.env) (hv ▸ hovf) (hv ▸ hb) (hv ▸ hr) hrt hf hx
      rwa [hv, turnGain_setEnv] at htotal

/-- A command without a transition changes nothing. -/
theorem commandGain_eq_zero {i : Instr} {s : State} (h : ∀ pa pb, i ≠ .rotStep pa pb) : commandGain i s = 0 := by
  cases i with
  | rotStep pa pb => exact absurd rfl (h pa pb)
  | _ => rfl

/-- No turn but MAIN's `ROT.STEP` and the pin-change service has a change of its own. -/
theorem turnGain_eq_zero {u : Turn} {s : State} (hstep : ∀ pa pb, u = .main → fetched s ≠ some (.rotStep pa pb))
    (hisr : u ≠ .isrPcint) : turnGain u s = 0 := by
  cases u with
  | main =>
    cases hi : fetched s with
    | none => simp [turnGain, hi]
    | some i =>
      have hne : ∀ pa pb, i ≠ .rotStep pa pb := fun pa pb h => hstep pa pb rfl (hi.trans (congrArg some h))
      rw [turnGain_main hi, commandGain_eq_zero hne]
  | isrPcint => exact absurd rfl hisr
  | _ => rfl

/-- Settles O31: the change is that of the one agent that steps, and the torn read of `ROT.TAKE` returns 0 and keeps the
accumulator. -/
theorem rotationConserved : Obligations.RotationConserved := by
  intro s t h hovf hstep hr hrt hf
  obtain ⟨u, htakes, htotal⟩ | ⟨hnone, htotal⟩ := rotationTotal_step h hovf hstep hr hrt hf
  · refine ⟨?step, ?isr, ?other⟩
    case step =>
      rintro pa pb ⟨hmain, hi⟩
      obtain rfl := (htakes .main).1 hmain
      rwa [turnGain_main hi] at htotal
    case isr =>
      intro hisr
      obtain rfl := (htakes .isrPcint).1 hisr
      exact htotal
    case other =>
      intro hruns hisr
      have hzero : turnGain u s = 0 :=
        turnGain_eq_zero (fun pa pb hu hi => hruns pa pb ⟨(htakes .main).2 hu.symm, hi⟩)
          fun hu => hisr ((htakes .isrPcint).2 hu.symm)
      rwa [hzero, Int.add_zero] at htotal
  · exact ⟨fun _ _ hruns => absurd hruns.1 (hnone _), fun hisr => absurd hisr (hnone _), fun _ _ => htotal⟩

end Sys2Proof.RotaryProofs
end

section
/-! The statements of 43_store.md: `EE.PUT`, the search, the write sequences with what a power loss inside them leaves,
and `EE.INIT` from its checks to its last micro-step (R200 to R217). -/

namespace Sys2Proof.StoreProofs

open Sys2Proof.Machine Sys2Proof.Safety Sys2Proof.Laws Sys2Proof.StateProofs Sys2Proof.MemoryProofs
  Sys2Proof.EncodingProofs Sys2Proof.AccessProofs

/-! ## `EE.PUT` (R215) -/

/-- `EE.PUT` past its checks. -/
theorem exec_eePut_of_ready {s : State} {offset : Half} (value : Byte) (hc : s.ctx = .main) (hr : s.stReady = true)
    (hoff : offset.toNat < s.cfg.size) (haddr : putAddr s offset < s.cfg.eeCap) :
    exec (.eePut offset value) s =
      .next (advance { s with ee := eeApply s.ee (.write (putAddr s offset) value) }) := by
  simp [exec, execEePut, hc, hr, Nat.not_le.2 hoff, eeMicro_within (op := .write (putAddr s offset) value) haddr]

/-- Settles O32: the checks in order, and past them a write in the region, so in the store. -/
theorem putByteResult : Obligations.PutByteResult := by
  intro s offset value
  refine ⟨?write, ?context, ?notReady, ?range, rfl, decodeInvertsEncode (.eePut offset value)⟩
  case write =>
    intro hwf hc hr hoff hslot
    have haddr := lt_of_lt_of_le (putAddr_in_region hslot hoff) (region_in_store s.cfg)
    exact ⟨_, exec_eePut_of_ready value hc hr hoff haddr, eeRead_eeApply_self (.write _ value) hwf,
      fun a ha => eeRead_eeApply_ne (.write _ value) ha⟩
  case context => intro hc; simp [exec, execEePut, hc]
  case notReady => intro hc hr; simp [exec, execEePut, hc, hr]
  case range => intro hc hr hoff; simp [exec, execEePut, hc, hr, hoff]

/-! ## `EE.INIT`: the checks and one micro-step (R212) -/

/-- `EE.INIT` in progress does the next micro-step of its job. -/
theorem exec_eeInit_of_job {s : State} {job : EeJob} (clear : Bool) (hj : s.job = some job) :
    exec (.eeInit clear) s = eeContinue job s := by
  simp [exec, execEeInit, hj]

/-- `EE.INIT` past its checks does the first micro-step of its plan. -/
theorem exec_eeInit_of_plan {s t : State} {clear : Bool} {job : EeJob} (hj : s.job = none) (hc : s.ctx = .main)
    (hr : s.stReady = false) (hp : eeInitPlan clear s = some (job, t)) :
    exec (.eeInit clear) s = eeContinue job t := by
  simp [exec, execEeInit, hj, hc, hr, hp]

/-- `EE.INIT` past its checks faults where the search does. -/
theorem exec_eeInit_of_no_plan {s : State} {clear : Bool} (hj : s.job = none) (hc : s.ctx = .main)
    (hr : s.stReady = false) (hp : eeInitPlan clear s = none) :
    exec (.eeInit clear) s = .next (raise .ringBroken 0#16 s) := by
  simp [exec, execEeInit, hj, hc, hr, hp]

/-- A micro-step with an operation due does it and keeps the rest. -/
theorem eeContinue_cons {s : State} {job : EeJob} {op : EeOp} {rest : List EeOp} (hops : job.ops = op :: rest)
    (haddr : eeOpAddr op < s.cfg.eeCap) :
    eeContinue job s = .next { s with ee := eeApply s.ee op, job := some { job with ops := rest } } := by
  simp [eeContinue, hops, eeMicro_within haddr]

/-- The last micro-step is `Finish`. -/
theorem eeContinue_nil {s : State} {job : EeJob} (hops : job.ops = []) : eeContinue job s = .next (eeFinish job s) := by
  simp [eeContinue, hops]

/-- Settles O33: the two checks, before anything is planned. -/
theorem storeInitGuards : Obligations.StoreInitGuards := by
  intro s clear hj
  refine ⟨?context, ?twice, decodeInvertsEncode (.eeInit clear)⟩
  case context => intro hc; simp [exec, execEeInit, hj, hc]
  case twice => intro hc hr; simp [exec, execEeInit, hj, hc, hr]

/-- Settles O38: the micro-step of a job in progress is its next operation. -/
theorem storeInitMicroStep : Obligations.StoreInitMicroStep := by
  intro s clear job op rest hwf hj hops haddr
  refine ⟨eeApply s.ee op, ?_, eeRead_eeApply_self op hwf, fun a ha => eeRead_eeApply_ne op ha⟩
  rw [exec_eeInit_of_job clear hj, eeContinue_cons hops haddr]

/-- Settles O43: a command that does not fault makes at most the operation that was pending. -/
theorem storeFrame : Obligations.StoreFrame := by
  intro i s t h
  refine ⟨?put, ?init⟩
  case put =>
    rintro offset value rfl
    obtain ⟨_, _, rfl⟩ | ⟨-, -, -, -, rfl⟩ := exec_next h
    · exact ⟨rfl, fun _ _ => rfl⟩
    · exact ⟨rfl, fun a ha => eeRead_eeApply_ne (.write _ value) ha⟩
  case init =>
    rintro clear rfl
    obtain ⟨_, _, rfl⟩ | he := exec_next h
    · exact ⟨rfl, fun _ _ _ _ _ => rfl, fun _ _ => rfl⟩
    · refine ⟨?_, fun op u hp a ha => ?_, fun hp a => ?_⟩
      · obtain ⟨_, _, -, ⟨-, rfl⟩ | ⟨_, _, -, -, rfl⟩⟩ := he <;> rfl
      · obtain hsame | ⟨op', _, hp', ht⟩ := effect_store he
        · rw [hsame]
        · cases hp.symm.trans hp'
          rw [ht, eeRead_eeApply_ne op ha]
      · obtain hsame | ⟨_, _, hp', -⟩ := effect_store he
        · rw [hsame]
        · cases hp.symm.trans hp'

/-! ## Offsets round the ring -/

/-- Every slot is at an offset from any first one. -/
theorem exists_offset {ns first k : Nat} (hf : first < ns) (hk : k < ns) : ∃ u < ns, (first + u) % ns = k := by
  by_cases h : first ≤ k
  · exact ⟨k - first, by omega, by rw [Nat.add_sub_cancel' h, Nat.mod_eq_of_lt hk]⟩
  · refine ⟨k + ns - first, by omega, ?_⟩
    rw [Nat.add_sub_cancel' (by omega), Nat.add_mod_right, Nat.mod_eq_of_lt hk]

/-- Two offsets below the number of slots lead to one slot only if they are equal. -/
theorem offset_injective {ns first u v : Nat} (hu : u < ns) (hv : v < ns)
    (h : (first + u) % ns = (first + v) % ns) : u = v :=
  (Nat.ModEq.add_left_cancel' first h).eq_of_lt_of_lt hu hv

/-- The slot after the one at an offset is at the next offset. -/
theorem succ_offset (ns first u : Nat) : ((first + u) % ns + 1) % ns = (first + (u + 1)) % ns :=
  Nat.mod_add_mod _ _ _

/-- With two slots or more the next slot is another one. -/
theorem succ_slot_ne {ns n : Nat} (hns : 2 ≤ ns) (hn : n < ns) : (n + 1) % ns ≠ n := fun heq =>
  absurd (offset_injective (v := 0) hns (by omega) (heq.trans (Nat.mod_eq_of_lt hn).symm)) Nat.one_ne_zero

/-- The last offset from the slot after `n` leads to `n`. -/
theorem last_offset {ns n : Nat} (hn : n < ns) : ((n + 1) % ns + (ns - 1)) % ns = n := by
  rw [Nat.mod_add_mod, show n + 1 + (ns - 1) = n + ns by omega, Nat.add_mod_right, Nat.mod_eq_of_lt hn]

/-! ## Keys and the search (R202, R204, R205) -/

theorem slotKey_of_blank {cfg : Config} {m : Memory} {j : Nat} (h : slotBlank cfg m j = true) :
    slotKey cfg m j = -1 := by
  have := slotKey_cases cfg m j
  simp_all

theorem neg_one_le_slotKey (cfg : Config) (m : Memory) (j : Nat) : -1 ≤ slotKey cfg m j := by
  obtain ⟨-, h⟩ | ⟨-, h⟩ := slotKey_cases cfg m j <;> omega

/-- A slot with a key above another's is not blank. -/
theorem not_blank_of_key_lt {cfg : Config} {m : Memory} {j k : Nat} (h : slotKey cfg m k < slotKey cfg m j) :
    slotBlank cfg m j = false := by
  by_contra hb
  have := slotKey_of_blank (by simpa using hb : slotBlank cfg m j = true)
  have := neg_one_le_slotKey cfg m k
  omega

theorem allBlank_iff {cfg : Config} {m : Memory} :
    allBlank cfg m = true ↔ ∀ k, k < slotCount cfg → slotBlank cfg m k = true := by
  simp [allBlank]

/-- The search answers a slot exactly when it is the one descent. -/
theorem searchRing_eq_slot_iff {cfg : Config} {m : Memory} {n : Nat} :
    searchRing cfg m = .slot n ↔ n < slotCount cfg ∧ slotKey cfg m ((n + 1) % slotCount cfg) < slotKey cfg m n ∧
      ∀ k, k < slotCount cfg → slotKey cfg m ((k + 1) % slotCount cfg) < slotKey cfg m k → k = n := by
  have hmem : ∀ k, k ∈ descents cfg m ↔
      k < slotCount cfg ∧ slotKey cfg m ((k + 1) % slotCount cfg) < slotKey cfg m k := by
    simp [descents, isDescent]
  rw [searchRing_slot]
  constructor
  · rintro ⟨-, hd⟩
    simp only [hd, List.mem_singleton] at hmem
    obtain ⟨hn, hdesc⟩ := (hmem n).1 rfl
    exact ⟨hn, hdesc, fun k hk hk' => (hmem k).2 ⟨hk, hk'⟩⟩
  · rintro ⟨hn, hdesc, huniq⟩
    refine ⟨?_, List.perm_singleton.1 ((List.perm_ext_iff_of_nodup ?_ (List.nodup_singleton n)).2 fun k => ?_)⟩
    · by_contra hb
      have := allBlank_iff.1 (by simpa using hb) n hn
      simp [not_blank_of_key_lt hdesc] at this
    · exact List.nodup_range.filter _
    · rw [hmem, List.mem_singleton]
      exact ⟨fun ⟨hk, hk'⟩ => huniq k hk hk', fun hk => hk ▸ ⟨hn, hdesc⟩⟩

/-- The slot the search answers holds the greatest key: from the slot after it, the keys rise round the ring to it. -/
theorem slotKey_le_of_searchRing {cfg : Config} {m : Memory} {n k : Nat} (h : searchRing cfg m = .slot n)
    (hk : k < slotCount cfg) : slotKey cfg m k ≤ slotKey cfg m n := by
  obtain ⟨hn, -, huniq⟩ := searchRing_eq_slot_iff.1 h
  have hrise : ∀ d u, u + d + 1 = slotCount cfg →
      slotKey cfg m (((n + 1) % slotCount cfg + u) % slotCount cfg) ≤ slotKey cfg m n := by
    intro d
    induction d with
    | zero =>
      intro u hu
      rw [show u = slotCount cfg - 1 by omega, last_offset hn]
    | succ d ih =>
      intro u hu
      have hnext := ih (u + 1) (by omega)
      rw [← succ_offset] at hnext
      by_contra hgt
      have := huniq _ (Nat.mod_lt _ (by omega)) (lt_of_le_of_lt hnext (not_le.1 hgt))
      rw [this] at hgt
      exact hgt le_rfl
  obtain ⟨u, hu, rfl⟩ := exists_offset (Nat.mod_lt (n + 1) (by omega : 0 < slotCount cfg)) hk
  exact hrise (slotCount cfg - 1 - u) u (by omega)

/-- The slot the search answers is not blank. -/
theorem slotBlank_of_searchRing {cfg : Config} {m : Memory} {n : Nat} (h : searchRing cfg m = .slot n) :
    slotBlank cfg m n = false :=
  not_blank_of_key_lt (searchRing_eq_slot_iff.1 h).2.1

/-- `RING_OK` holds exactly where the search is not broken. -/
theorem ringOk_iff {cfg : Config} {m : Memory} :
    ringOk cfg m = true ↔ searchRing cfg m = .none ∨ ∃ n, searchRing cfg m = .slot n := by
  have hbroken := searchRing_broken (cfg := cfg) (m := m)
  cases hs : searchRing cfg m <;> simp_all

theorem findNewest_of_none {s : State} (h : searchRing s.cfg s.ee = .none) : findNewest s = some (none, s) := by
  simp [findNewest, h]

theorem findNewest_of_slot {s : State} {n : Nat} (h : searchRing s.cfg s.ee = .slot n) :
    findNewest s = some (some n, s) := by
  simp [findNewest, h]

theorem findNewest_of_fault {s : State} (h : ringOk s.cfg s.ee = false) (hb : s.cfg.searchBroken = .fault) :
    findNewest s = none := by
  simp [findNewest, searchRing_broken.2 h, hb]

theorem findNewest_of_draw {s : State} (h : ringOk s.cfg s.ee = false) (hb : s.cfg.searchBroken = .draw) :
    findNewest s = some ((searchChoices s.cfg s.ee).getD (draw (searchChoices s.cfg s.ee).length s).1 none,
      (draw (searchChoices s.cfg s.ee).length s).2) := by
  simp [findNewest, searchRing_broken.2 h, hb]

/-- The choices of a broken-ring search: `None` and the slots that are not blank. -/
theorem mem_searchChoices {cfg : Config} {m : Memory} {r : Option Nat} :
    r ∈ searchChoices cfg m ↔ ∀ j, r = some j → j < slotCount cfg ∧ slotBlank cfg m j = false := by
  cases r <;> simp [searchChoices]

/-- Settles O34: the one descent has the greatest key, and a broken-ring draw indexes the list of choices. -/
theorem searchFindsGreatest : Obligations.SearchFindsGreatest := by
  intro s
  refine ⟨?ring, ?fault, ?draw⟩
  case ring =>
    intro hok
    obtain hnone | ⟨j, hslot⟩ := ringOk_iff.1 hok
    · exact .inl ⟨findNewest_of_none hnone, allBlank_iff.1 (searchRing_none.1 hnone)⟩
    · obtain ⟨hj, hdesc, huniq⟩ := searchRing_eq_slot_iff.1 hslot
      exact .inr ⟨j, findNewest_of_slot hslot, hj, slotBlank_of_searchRing hslot, hdesc,
        fun k hk => ⟨slotKey_le_of_searchRing hslot hk, huniq k hk⟩⟩
  case fault =>
    intro hbad hfault hj hc hr
    exact exec_eeInit_of_no_plan hj hc hr (by simp [eeInitPlan, findNewest_of_fault hbad hfault])
  case draw =>
    intro hbad hdraw
    have hpos : 0 < (searchChoices s.cfg s.ee).length := by simp [searchChoices]
    refine ⟨⟨_, _, findNewest_of_draw hbad hdraw, draw_state _ s, ?_⟩, fun r hr => ?_⟩
    · rw [List.getD_eq_getElem _ _ (draw_lt hpos s)]
      exact mem_searchChoices.1 (List.getElem_mem _)
    · obtain ⟨d, hd, rfl⟩ := List.mem_iff_getElem.1 (mem_searchChoices.2 hr)
      refine ⟨d, fun rest => ?_⟩
      rw [findNewest_of_draw (s := { s with env := { s.env with draws := d :: rest } }) hbad hdraw,
        draw_listed (d := d) (rest := rest) _ rfl]
      simp [Nat.mod_eq_of_lt hd, hd]

/-! ## What is untouched in a slot -/

/-- A byte of one slot is no byte of another. -/
theorem outside_of_ne {cfg : Config} {slot j a : Nat} (h : j ≠ slot) (hlo : slotAddr cfg j ≤ a)
    (hhi : a < slotAddr cfg j + cfg.size + 2) :
    a < slotAddr cfg slot ∨ slotAddr cfg slot + cfg.size + 2 ≤ a := by
  obtain hlt | hgt := Nat.lt_or_gt_of_ne h
  · have := slotAddr_le_of_lt cfg hlt; omega
  · have := slotAddr_le_of_lt cfg hgt; omega

/-- Every byte of the slot reads the same in both memories. -/
def SameSlot (cfg : Config) (m m' : Memory) (slot : Nat) : Prop :=
  ∀ a, slotAddr cfg slot ≤ a → a < slotAddr cfg slot + cfg.size + 2 → eeRead m' a = eeRead m a

theorem slotBlank_of_sameSlot {cfg : Config} {m m' : Memory} {slot : Nat} (h : SameSlot cfg m m' slot) :
    slotBlank cfg m' slot = slotBlank cfg m slot := by
  rw [slotBlank, slotBlank, slotTag_congr h]

theorem slotKey_of_sameSlot {cfg : Config} {m m' : Memory} {slot : Nat} (h : SameSlot cfg m m' slot) :
    slotKey cfg m' slot = slotKey cfg m slot := by
  rw [slotKey, slotKey, slotTag_congr h]

/-! ## `WriteSlot` (R207, R209) -/

section WriteSlot

variable (cfg : Config) (slot : Nat) (ver : Half) (record : List Byte)

@[simp] theorem writeSlotOps_length : (writeSlotOps cfg slot ver record).length = cfg.size + 3 := by
  simp [writeSlotOps]

/-- The operations of `WriteSlot` but for its last. -/
theorem mem_take_writeSlotOps {k : Nat} (hk : k ≤ cfg.size + 2) {op : EeOp} :
    op ∈ (writeSlotOps cfg slot ver record).take k ↔
      1 ≤ k ∧ op = .erase (slotAddr cfg slot + 1) ∨
      (∃ j < cfg.size, j + 2 ≤ k ∧ op = .write (slotAddr cfg slot + 2 + j) (record.getD j erasedByte)) ∨
      k = cfg.size + 2 ∧ op = .write (slotAddr cfg slot) (lowByte ver) := by
  cases k with
  | zero => simp
  | succ k =>
    have hlast : ∀ x y : EeOp, op ∈ [x, y].take (k - cfg.size) ↔ k + 1 = cfg.size + 2 ∧ op = x := by
      intro x y
      obtain hle | heq : k ≤ cfg.size ∨ k = cfg.size + 1 := by omega
      · simp [Nat.sub_eq_zero_of_le hle]; omega
      · simp [heq]
    simp only [writeSlotOps, List.cons_append, List.take_succ_cons, List.mem_cons, List.take_append, List.length_map,
      List.length_range, ← List.map_take, List.take_range, List.mem_append, List.mem_map, List.mem_range, lt_min_iff,
      hlast]
    constructor
    · rintro (rfl | ⟨j, ⟨hjk, hj⟩, rfl⟩ | h)
      · exact .inl ⟨by omega, rfl⟩
      · exact .inr (.inl ⟨j, hj, by omega, rfl⟩)
      · exact .inr (.inr h)
    · rintro (⟨-, rfl⟩ | ⟨j, hj, hjk, rfl⟩ | h)
      · exact .inl rfl
      · exact .inr (.inl ⟨j, ⟨by omega, hj⟩, rfl⟩)
      · exact .inr (.inr h)

/-- The last operation of `WriteSlot`. -/
theorem writeSlotOps_eq_append :
    writeSlotOps cfg slot ver record =
      (writeSlotOps cfg slot ver record).take (cfg.size + 2) ++ [.write (slotAddr cfg slot + 1) (highByte ver)] := by
  conv_lhs => rw [← List.take_append_drop (cfg.size + 2) (writeSlotOps cfg slot ver record)]
  simp [writeSlotOps, List.drop_append]

variable {cfg slot ver record} {m : Memory}

/-- No byte outside the slot changes. -/
theorem eeRead_writeSlot_outside (k : Nat) {a : Nat}
    (ha : a < slotAddr cfg slot ∨ slotAddr cfg slot + cfg.size + 2 ≤ a) :
    eeRead (eeApplyAll m ((writeSlotOps cfg slot ver record).take k)) a = eeRead m a :=
  eeRead_eeApplyAll_of_not_mem fun op hop => by
    have := writeSlotOps_addr (List.mem_of_mem_take hop)
    omega

/-- Every other slot stays as it was. -/
theorem sameSlot_writeSlot (k : Nat) {j : Nat} (hj : j ≠ slot) :
    SameSlot cfg m (eeApplyAll m ((writeSlotOps cfg slot ver record).take k)) j :=
  fun _ hlo hhi => eeRead_writeSlot_outside k (outside_of_ne hj hlo hhi)

/-- Between its first and its last operation the slot is blank. -/
theorem slotBlank_writeSlot (hm : memoryWf m = true) {k : Nat} (hk1 : 1 ≤ k) (hk : k ≤ cfg.size + 2) :
    slotBlank cfg (eeApplyAll m ((writeSlotOps cfg slot ver record).take k)) slot = true := by
  rw [slotBlank_eq, beq_iff_eq]
  refine eeRead_eeApplyAll_const hm (fun op hop haddr => ?_) (.inr ⟨.erase (slotAddr cfg slot + 1), ?_, rfl⟩)
  · obtain ⟨-, rfl⟩ | ⟨j, -, -, rfl⟩ | ⟨-, rfl⟩ := (mem_take_writeSlotOps cfg slot ver record hk).1 hop
    · rfl
    · simp only [eeOpAddr] at haddr; omega
    · simp only [eeOpAddr] at haddr; omega
  · exact (mem_take_writeSlotOps cfg slot ver record hk).2 (.inl ⟨hk1, rfl⟩)

/-- Before the last operation the payload is written up to the byte of the operation made last. -/
theorem payload_writeSlot (hm : memoryWf m = true) {k : Nat} (hk : k ≤ cfg.size + 2) {j : Nat} (hj : j < cfg.size) :
    eeRead (eeApplyAll m ((writeSlotOps cfg slot ver record).take k)) (slotAddr cfg slot + 2 + j) =
      if j + 2 ≤ k then record.getD j erasedByte else eeRead m (slotAddr cfg slot + 2 + j) := by
  have hops := fun op => mem_take_writeSlotOps cfg slot ver record hk (op := op)
  split
  · next hjk =>
    refine eeRead_eeApplyAll_const hm (fun op hop haddr => ?_)
      (.inr ⟨.write (slotAddr cfg slot + 2 + j) (record.getD j erasedByte), ?_, rfl⟩)
    · obtain ⟨-, rfl⟩ | ⟨i, -, -, rfl⟩ | ⟨-, rfl⟩ := (hops op).1 hop
      · simp only [eeOpAddr] at haddr; omega
      · obtain rfl : i = j := by simp only [eeOpAddr] at haddr; omega
        rfl
      · simp only [eeOpAddr] at haddr; omega
    · exact (hops _).2 (.inr (.inl ⟨j, hj, hjk, rfl⟩))
  · next hjk =>
    refine eeRead_eeApplyAll_of_not_mem fun op hop => ?_
    obtain ⟨-, rfl⟩ | ⟨i, -, hik, rfl⟩ | ⟨-, rfl⟩ := (hops op).1 hop <;> simp only [eeOpAddr] <;> omega

/-- The tag's low byte is written by the last operation but one. -/
theorem lowByte_writeSlot (hm : memoryWf m = true) {k : Nat} (hk : k ≤ cfg.size + 2) :
    eeRead (eeApplyAll m ((writeSlotOps cfg slot ver record).take k)) (slotAddr cfg slot) =
      if k = cfg.size + 2 then lowByte ver else eeRead m (slotAddr cfg slot) := by
  have hops := fun op => mem_take_writeSlotOps cfg slot ver record hk (op := op)
  split
  · next hlast =>
    refine eeRead_eeApplyAll_const hm (fun op hop haddr => ?_)
      (.inr ⟨.write (slotAddr cfg slot) (lowByte ver), ?_, rfl⟩)
    · obtain ⟨-, rfl⟩ | ⟨i, -, -, rfl⟩ | ⟨-, rfl⟩ := (hops op).1 hop
      · simp only [eeOpAddr] at haddr; omega
      · simp only [eeOpAddr] at haddr; omega
      · rfl
    · exact (hops _).2 (.inr (.inr ⟨hlast, rfl⟩))
  · next hlast =>
    refine eeRead_eeApplyAll_of_not_mem fun op hop => ?_
    obtain ⟨-, rfl⟩ | ⟨i, -, -, rfl⟩ | ⟨h, -⟩ := (hops op).1 hop
    · simp only [eeOpAddr]; omega
    · simp only [eeOpAddr]; omega
    · exact absurd h hlast

/-- The whole of `WriteSlot` is its last operation after the others. -/
theorem eeApplyAll_writeSlotOps :
    eeApplyAll m (writeSlotOps cfg slot ver record) =
      eeApply (eeApplyAll m ((writeSlotOps cfg slot ver record).take (cfg.size + 2)))
        (.write (slotAddr cfg slot + 1) (highByte ver)) := by
  conv_lhs => rw [writeSlotOps_eq_append, eeApplyAll_append]
  rfl

/-- After `WriteSlot` the slot holds the tag. -/
theorem slotTag_writeSlotOps (hm : memoryWf m = true) :
    slotTag cfg (eeApplyAll m (writeSlotOps cfg slot ver record)) slot = ver := by
  have hlow := lowByte_writeSlot (slot := slot) (ver := ver) (record := record) hm (le_refl (cfg.size + 2))
  rw [if_pos rfl] at hlow
  have hhigh : eeRead (eeApplyAll m (writeSlotOps cfg slot ver record)) (slotAddr cfg slot + 1) = highByte ver := by
    rw [eeApplyAll_writeSlotOps]
    exact eeRead_eeApply_self (.write _ (highByte ver)) (eeApplyAll_wf _ hm)
  rw [slotTag, hhigh, eeApplyAll_writeSlotOps, eeRead_eeApply_ne _ (by simp only [eeOpAddr]; omega), hlow]
  exact tag_of_bytes ver

/-- After `WriteSlot` the slot holds the record. -/
theorem slotPayload_writeSlotOps (hm : memoryWf m = true) (hr : record.length = cfg.size) :
    slotPayload cfg (eeApplyAll m (writeSlotOps cfg slot ver record)) slot = record := by
  refine List.ext_getElem (by simp [hr]) fun j hj hj' => ?_
  have hsize : j < cfg.size := hr ▸ hj'
  have hbyte := payload_writeSlot (slot := slot) (ver := ver) (record := record) hm (le_refl (cfg.size + 2)) hsize
  rw [if_pos (by omega), List.getD_eq_getElem _ _ hj'] at hbyte
  simp only [slotPayload, List.getElem_map, List.getElem_range]
  rw [eeApplyAll_writeSlotOps, eeRead_eeApply_ne _ (by simp only [eeOpAddr]; omega), hbyte]

/-- After `WriteSlot` every other slot is as it was. -/
theorem sameSlot_writeSlotOps {j : Nat} (hj : j ≠ slot) :
    SameSlot cfg m (eeApplyAll m (writeSlotOps cfg slot ver record)) j := by
  have h := sameSlot_writeSlot (cfg := cfg) (ver := ver) (record := record) (m := m) (cfg.size + 3) hj
  rwa [List.take_of_length_le (by simp)] at h

end WriteSlot

/-- Settles O35: the high byte of the tag is erased first and written last. -/
theorem writeSlotCrashStates : Obligations.WriteSlotCrashStates := by
  intro cfg m slot ver record k hm hr
  refine ⟨writeSlotOps_length _ _ _ _, rfl, fun a => eeRead_writeSlot_outside k, fun hk1 hk => ?during,
    fun hk => ?after⟩
  case during =>
    refine ⟨slotBlank_writeSlot hm hk1 hk, fun j hj => ?_, lowByte_writeSlot hm hk⟩
    rw [payload_writeSlot hm hk (hr ▸ hj), List.getD_eq_getElem _ _ hj]
  case after =>
    rw [List.take_of_length_le (by simpa using hk)]
    exact ⟨slotTag_writeSlotOps hm, slotPayload_writeSlotOps hm hr⟩

/-! ## `ClearStore` (R208) -/

section ClearStore

variable {cfg : Config} {m : Memory} {first : Nat}

@[simp] theorem clearTagOps_length (cfg : Config) (first : Nat) : (clearTagOps cfg first).length = slotCount cfg := by
  simp [clearTagOps]

/-- Phase 1 blanks every slot. -/
theorem exists_clearTagOps (hf : first < slotCount cfg) {j : Nat} (hj : j < slotCount cfg) :
    ∃ op ∈ clearTagOps cfg first, eeOpAddr op = slotAddr cfg j + 1 := by
  obtain ⟨u, hu, rfl⟩ := exists_offset hf hj
  exact ⟨_, List.mem_map.2 ⟨u, List.mem_range.2 hu, rfl⟩, rfl⟩

/-- The two phases together reach every byte of the region. -/
theorem exists_clearStoreOps (hf : first < slotCount cfg) {a : Nat} (ha : a < slotCount cfg * (cfg.size + 2)) :
    ∃ op ∈ clearStoreOps cfg first, eeOpAddr op = a := by
  by_cases htag : a % (cfg.size + 2) = 1
  · have hslot : a / (cfg.size + 2) < slotCount cfg := Nat.div_lt_of_lt_mul (Nat.mul_comm _ _ ▸ ha)
    obtain ⟨op, hop, haddr⟩ := exists_clearTagOps hf hslot
    have hbyte := Nat.div_add_mod' a (cfg.size + 2)
    exact ⟨op, List.mem_append_left _ hop, by rw [haddr, slotAddr]; omega⟩
  · refine ⟨.erase a, List.mem_append_right _ (List.mem_map.2 ⟨a, ?_, rfl⟩), rfl⟩
    simp [ha, htag]

/-- Settles O36: every operation erases, and together they reach the bytes of the region. -/
theorem clearStoreErasesRegion : Obligations.ClearStoreErasesRegion := by
  intro cfg m first hm hf
  refine ⟨fun a ha => ?_, fun a ha => ?_⟩
  · exact eeRead_eeApplyAll_const hm (fun op hop _ => clearStoreOps_value hop) (.inr (exists_clearStoreOps hf ha))
  · exact eeRead_eeApplyAll_of_not_mem fun op hop => Nat.ne_of_lt (lt_of_lt_of_le (clearStoreOps_addr hop) ha)

/-- The operations of phase 1 up to a boundary. -/
theorem mem_take_clearStoreOps {k : Nat} (hk : k ≤ slotCount cfg) {op : EeOp} :
    op ∈ (clearStoreOps cfg first).take k ↔
      ∃ u < k, op = .erase (slotAddr cfg ((first + u) % slotCount cfg) + 1) := by
  rw [clearStoreOps, List.take_append_of_le_length (by simpa using hk), clearTagOps, ← List.map_take, List.take_range,
    Nat.min_eq_left hk]
  simp [eq_comm]

/-- From the end of phase 1 on, every slot is blank. -/
theorem allBlank_clearStore_take (hm : memoryWf m = true) (hf : first < slotCount cfg) {k : Nat}
    (hk : slotCount cfg ≤ k) : allBlank cfg (eeApplyAll m ((clearStoreOps cfg first).take k)) = true := by
  refine allBlank_iff.2 fun j hj => ?_
  obtain ⟨op, hop, haddr⟩ := exists_clearTagOps hf hj
  have htake : op ∈ (clearStoreOps cfg first).take k := by
    rw [clearStoreOps, List.take_append, List.take_of_length_le (by simpa using hk)]
    exact List.mem_append_left _ hop
  rw [slotBlank_eq, beq_iff_eq]
  exact eeRead_eeApplyAll_const hm (fun op hop _ => clearStoreOps_value (List.mem_of_mem_take hop))
    (.inr ⟨op, htake, haddr⟩)

theorem allBlank_clearStoreOps (hm : memoryWf m = true) (hf : first < slotCount cfg) :
    allBlank cfg (eeApplyAll m (clearStoreOps cfg first)) = true := by
  have h := allBlank_clearStore_take hm hf (k := (clearStoreOps cfg first).length) (by simp [clearStoreOps])
  rwa [List.take_length] at h

end ClearStore

/-! ## Blanking the oldest slots keeps the newest (R217) -/

/-- In `m'` the `count` slots from `first` on, round the ring, are blank, and the others have the keys they have in
`m`. -/
structure BlankedFrom (cfg : Config) (first count : Nat) (m m' : Memory) : Prop where
  blank : ∀ u < count, slotBlank cfg m' ((first + u) % slotCount cfg) = true
  kept : ∀ u, count ≤ u → u < slotCount cfg →
    slotKey cfg m' ((first + u) % slotCount cfg) = slotKey cfg m ((first + u) % slotCount cfg)

/-- While slots are blanked from the oldest on, the search finds the newest until it is blanked itself. -/
theorem searchRing_of_blankedFrom {cfg : Config} {m m' : Memory} {n count : Nat} (h : searchRing cfg m = .slot n)
    (hcount : count < slotCount cfg) (hb : BlankedFrom cfg ((n + 1) % slotCount cfg) count m m') :
    searchRing cfg m' = .slot n := by
  obtain ⟨hn, hdesc, huniq⟩ := searchRing_eq_slot_iff.1 h
  have hnewest := hb.kept (slotCount cfg - 1) (by omega) (by omega)
  rw [last_offset hn] at hnewest
  refine searchRing_eq_slot_iff.2 ⟨hn, ?descent, fun k hk hkdesc => ?unique⟩
  case descent =>
    rw [hnewest]
    obtain rfl | hpos := Nat.eq_zero_or_pos count
    · have holdest := hb.kept 0 le_rfl (by omega)
      rw [Nat.add_zero, Nat.mod_mod] at holdest
      rwa [holdest]
    · have holdest := slotKey_of_blank (hb.blank 0 hpos)
      rw [Nat.add_zero, Nat.mod_mod] at holdest
      rw [holdest]
      exact lt_of_le_of_lt (neg_one_le_slotKey cfg m _) hdesc
  case unique =>
    obtain ⟨u, hu, rfl⟩ := exists_offset (Nat.mod_lt (n + 1) (by omega : 0 < slotCount cfg)) hk
    by_cases hblank : u < count
    · have := hb.blank u hblank
      rw [not_blank_of_key_lt hkdesc] at this
      cases this
    · by_cases hlast : u + 1 = slotCount cfg
      · rw [show u = slotCount cfg - 1 by omega, last_offset hn]
      · refine huniq _ hk ?_
        rw [succ_offset] at hkdesc ⊢
        rwa [hb.kept u (by omega) hu, hb.kept (u + 1) (by omega) (by omega)] at hkdesc

/-- Inside `WriteSlot` its slot is blank and no other changes. -/
theorem blankedFrom_writeSlot {cfg : Config} {m : Memory} {slot k : Nat} (ver : Half) (record : List Byte)
    (hm : memoryWf m = true) (hslot : slot < slotCount cfg) (hk1 : 1 ≤ k) (hk : k ≤ cfg.size + 2) :
    BlankedFrom cfg slot 1 m (eeApplyAll m ((writeSlotOps cfg slot ver record).take k)) where
  blank u hu := by
    rw [show u = 0 by omega, Nat.add_zero, Nat.mod_eq_of_lt hslot]
    exact slotBlank_writeSlot hm hk1 hk
  kept u hu hlt := by
    refine slotKey_of_sameSlot (sameSlot_writeSlot k fun heq => ?_)
    have := offset_injective hlt (v := 0) (by omega) (by rw [heq, Nat.add_zero, Nat.mod_eq_of_lt hslot])
    omega

/-- Inside phase 1 of `ClearStore` the slots are blanked one after another. -/
theorem blankedFrom_clearStore {cfg : Config} {m : Memory} {first k : Nat} (hm : memoryWf m = true)
    (hk : k ≤ slotCount cfg) : BlankedFrom cfg first k m (eeApplyAll m ((clearStoreOps cfg first).take k)) where
  blank u hu := by
    rw [slotBlank_eq, beq_iff_eq]
    exact eeRead_eeApplyAll_const hm (fun op hop _ => clearStoreOps_value (List.mem_of_mem_take hop))
      (.inr ⟨_, (mem_take_clearStoreOps hk).2 ⟨u, hu, rfl⟩, rfl⟩)
  kept u hu hlt := by
    refine slotKey_of_sameSlot fun a hlo hhi => eeRead_eeApplyAll_of_not_mem fun op hop => ?_
    obtain ⟨v, hv, rfl⟩ := (mem_take_clearStoreOps hk).1 hop
    have hne : (first + u) % slotCount cfg ≠ (first + v) % slotCount cfg := fun heq => by
      have := offset_injective hlt (by omega) heq
      omega
    have := outside_of_ne hne hlo hhi
    simp only [eeOpAddr]
    omega

/-! ## Writing the next version makes its slot the newest (R210, R217) -/

theorem highByte_toNat (t : Half) : (highByte t).toNat = t.toNat / 256 := by
  have := t.isLt
  rw [highByte, BitVec.extractLsb'_toNat, Nat.shiftRight_eq_div_pow]
  omega

/-- The blank tags are the greatest 256. -/
theorem blankTag_iff {t : Half} : blankTag t = true ↔ 0xFF00 ≤ t.toNat := by
  have := t.isLt
  rw [blankTag, beq_iff_eq, ← BitVec.toNat_inj, highByte_toNat]
  simp only [BitVec.toNat_ofNat]
  omega

theorem toNat_lt_of_not_blank {t : Half} (h : blankTag t = false) : t.toNat < 0xFF00 := by
  by_contra hge
  simp [blankTag_iff.2 (not_lt.1 hge)] at h

/-- A version overflows where its tag would be blank. -/
theorem versionOverflows_eq (v : Half) : versionOverflows v = blankTag v := rfl

theorem tagKey_of_not_blank {t : Half} (h : blankTag t = false) : tagKey t = t.toNat := by
  simp [tagKey, h]

/-- The next version overflows exactly after the last one. -/
theorem versionOverflows_succ_iff {v : Half} (h : blankTag v = false) :
    versionOverflows (v + 1#16) = true ↔ v = 0xFEFF#16 := by
  have hv := toNat_lt_of_not_blank h
  rw [versionOverflows_eq, blankTag_iff, ← BitVec.toNat_inj, BitVec.toNat_add]
  simp only [BitVec.toNat_ofNat]
  omega

/-- Where it does not, the next version's key is above. -/
theorem tagKey_lt_succ {v : Half} (h : blankTag v = false) (hne : v ≠ 0xFEFF#16) : tagKey v < tagKey (v + 1#16) := by
  have hsucc : blankTag (v + 1#16) = false :=
    Bool.eq_false_iff.2 fun hb => hne ((versionOverflows_succ_iff h).1 hb)
  have hv := toNat_lt_of_not_blank h
  rw [tagKey_of_not_blank h, tagKey_of_not_blank hsucc, BitVec.toNat_add]
  simp only [BitVec.toNat_ofNat]
  omega

/-- A slot that gets a key above all others becomes the one descent, where no descent was but at the slot before it. -/
theorem searchRing_of_topKey {cfg : Config} {m m' : Memory} {t : Nat} (hns : 2 ≤ slotCount cfg)
    (ht : t < slotCount cfg) (hkept : ∀ j, j ≠ t → slotKey cfg m' j = slotKey cfg m j)
    (htop : ∀ j, j < slotCount cfg → slotKey cfg m j < slotKey cfg m' t)
    (hdesc : ∀ j, j < slotCount cfg → slotKey cfg m ((j + 1) % slotCount cfg) < slotKey cfg m j →
      (j + 1) % slotCount cfg = t) : searchRing cfg m' = .slot t := by
  have hpos : 0 < slotCount cfg := by omega
  refine searchRing_eq_slot_iff.2 ⟨ht, ?_, fun k hk hlt => ?_⟩
  · rw [hkept _ (succ_slot_ne hns ht)]
    exact htop _ (Nat.mod_lt _ hpos)
  · by_contra hne
    rw [hkept k hne] at hlt
    by_cases hsucc : (k + 1) % slotCount cfg = t
    · rw [hsucc] at hlt
      exact lt_asymm hlt (htop k hk)
    · rw [hkept _ hsucc] at hlt
      exact hsucc (hdesc k hk hlt)

theorem slotKey_writeSlotOps {cfg : Config} {m : Memory} {slot : Nat} {ver : Half} {record : List Byte}
    (hm : memoryWf m = true) : slotKey cfg (eeApplyAll m (writeSlotOps cfg slot ver record)) slot = tagKey ver := by
  rw [slotKey, slotTag_writeSlotOps hm]

/-- Written to the slot after the newest one, the next version is the newest. -/
theorem searchRing_writeNext {cfg : Config} {m : Memory} {n : Nat} (record : List Byte) (hm : memoryWf m = true)
    (hns : 2 ≤ slotCount cfg) (h : searchRing cfg m = .slot n) (hv : slotTag cfg m n ≠ 0xFEFF#16) :
    searchRing cfg (eeApplyAll m
      (writeSlotOps cfg ((n + 1) % slotCount cfg) (slotTag cfg m n + 1#16) record)) =
        .slot ((n + 1) % slotCount cfg) := by
  refine searchRing_of_topKey hns (Nat.mod_lt _ (by omega)) (fun j hj => slotKey_of_sameSlot (sameSlot_writeSlotOps hj))
    (fun j hj => ?_) fun j hj hlt => by rw [(searchRing_eq_slot_iff.1 h).2.2 j hj hlt]
  rw [slotKey_writeSlotOps hm]
  exact lt_of_le_of_lt (slotKey_le_of_searchRing h hj) (tagKey_lt_succ (slotBlank_of_searchRing h) hv)

/-- Written to slot 0 of a blank region, version 0 is the newest. -/
theorem searchRing_writeSeed {cfg : Config} {m : Memory} (record : List Byte) (hm : memoryWf m = true)
    (hns : 2 ≤ slotCount cfg) (h : allBlank cfg m = true) :
    searchRing cfg (eeApplyAll m (writeSlotOps cfg 0 0#16 record)) = .slot 0 := by
  have hkey : ∀ j, j < slotCount cfg → slotKey cfg m j = -1 := fun j hj => slotKey_of_blank (allBlank_iff.1 h j hj)
  refine searchRing_of_topKey hns (by omega) (fun j hj => slotKey_of_sameSlot (sameSlot_writeSlotOps hj))
    (fun j hj => ?_) fun j hj hlt => ?_
  · rw [slotKey_writeSlotOps hm, hkey j hj]
    decide
  · rw [hkey j hj, hkey _ (Nat.mod_lt _ (by omega))] at hlt
    exact absurd hlt (lt_irrefl _)

/-! ## Sequences that keep the ring -/

/-- The ring is in order at every boundary between the operations, and `r` is what the search finds after them. -/
structure KeepsRing (cfg : Config) (m : Memory) (ops : List EeOp) (r : Search) : Prop where
  throughout : ∀ k, ringOk cfg (eeApplyAll m (ops.take k)) = true
  final : searchRing cfg (eeApplyAll m ops) = r

theorem keepsRing_append {cfg : Config} {m : Memory} {ops ops' : List EeOp} {r r' : Search}
    (h : KeepsRing cfg m ops r) (h' : KeepsRing cfg (eeApplyAll m ops) ops' r') :
    KeepsRing cfg m (ops ++ ops') r' where
  throughout k := by
    obtain hle | hge := Nat.le_total k ops.length
    · rw [List.take_append_of_le_length hle]
      exact h.throughout k
    · rw [List.take_append, List.take_of_length_le hge, eeApplyAll_append]
      exact h'.throughout _
  final := by rw [eeApplyAll_append]; exact h'.final

theorem ringOk_of_slot {cfg : Config} {m : Memory} {n : Nat} (h : searchRing cfg m = .slot n) :
    ringOk cfg m = true := ringOk_iff.2 (.inr ⟨n, h⟩)

theorem ringOk_of_allBlank {cfg : Config} {m : Memory} (h : allBlank cfg m = true) : ringOk cfg m = true :=
  ringOk_iff.2 (.inl (searchRing_none.2 h))

section KeepsRing

variable {cfg : Config} {m : Memory} {n : Nat} (hm : memoryWf m = true) (hns : 2 ≤ slotCount cfg)

include hm hns

/-- Before the last operation of the next version's `WriteSlot` the search finds the old slot. -/
theorem searchRing_writeNext_take (ver : Half) (record : List Byte) (h : searchRing cfg m = .slot n) {k : Nat}
    (hk : k ≤ cfg.size + 2) :
    searchRing cfg (eeApplyAll m ((writeSlotOps cfg ((n + 1) % slotCount cfg) ver record).take k)) = .slot n := by
  obtain rfl | hpos := Nat.eq_zero_or_pos k
  · exact h
  · exact searchRing_of_blankedFrom h (by omega)
      (blankedFrom_writeSlot ver record hm (Nat.mod_lt _ (by omega)) hpos hk)

theorem keepsRing_writeNext (record : List Byte) (h : searchRing cfg m = .slot n)
    (hv : slotTag cfg m n ≠ 0xFEFF#16) :
    KeepsRing cfg m (writeSlotOps cfg ((n + 1) % slotCount cfg) (slotTag cfg m n + 1#16) record)
      (.slot ((n + 1) % slotCount cfg)) where
  throughout k := by
    obtain hk | hk : k ≤ cfg.size + 2 ∨ cfg.size + 3 ≤ k := by omega
    · exact ringOk_of_slot (searchRing_writeNext_take hm hns _ record h hk)
    · rw [List.take_of_length_le (by simpa using hk)]
      exact ringOk_of_slot (searchRing_writeNext record hm hns h hv)
  final := searchRing_writeNext record hm hns h hv

theorem keepsRing_writeSeed (record : List Byte) (h : allBlank cfg m = true) :
    KeepsRing cfg m (writeSlotOps cfg 0 0#16 record) (.slot 0) where
  throughout k := by
    obtain rfl | ⟨hk1, hk⟩ | hk : k = 0 ∨ 1 ≤ k ∧ k ≤ cfg.size + 2 ∨ cfg.size + 3 ≤ k := by omega
    · exact ringOk_of_allBlank h
    · refine ringOk_of_allBlank (allBlank_iff.2 fun j hj => ?_)
      obtain rfl | hne := eq_or_ne j 0
      · exact slotBlank_writeSlot hm hk1 hk
      · rw [slotBlank_of_sameSlot (sameSlot_writeSlot k hne)]
        exact allBlank_iff.1 h j hj
    · rw [List.take_of_length_le (by simpa using hk)]
      exact ringOk_of_slot (searchRing_writeSeed record hm hns h)
  final := searchRing_writeSeed record hm hns h

theorem keepsRing_clearStore (h : searchRing cfg m = .slot n) :
    KeepsRing cfg m (clearStoreOps cfg ((n + 1) % slotCount cfg)) .none where
  throughout k := by
    obtain hk | hk := Nat.lt_or_ge k (slotCount cfg)
    · exact ringOk_of_slot (searchRing_of_blankedFrom h hk (blankedFrom_clearStore hm hk.le))
    · exact ringOk_of_allBlank (allBlank_clearStore_take hm (Nat.mod_lt _ (by omega)) hk)
  final := searchRing_none.2 (allBlank_clearStoreOps hm (Nat.mod_lt _ (by omega)))

end KeepsRing

/-! ## The plan of `EE.INIT` (R210 to R213) -/

/-- The operations of an advance up to the validator's verdict. -/
def copyOps (s : State) (i : Nat) : List EeOp :=
  advanceWipe s i ++
    writeSlotOps s.cfg (advanceTarget s i).1 (advanceTarget s i).2 (slotPayload s.cfg s.ee i)

theorem advanceJob_of_accepts {s : State} {i : Nat} (h : accepts s.cfg (slotPayload s.cfg s.ee i) = true) :
    advanceJob s i =
      { ops := copyOps s i, slot := (advanceTarget s i).1, ver := (advanceTarget s i).2,
        record := slotPayload s.cfg s.ee i } := by
  simp [advanceJob, copyOps, h]

theorem advanceJob_of_rejects {s : State} {i : Nat} (h : accepts s.cfg (slotPayload s.cfg s.ee i) = false) :
    advanceJob s i =
      seedJob s (copyOps s i ++ clearStoreOps s.cfg (((advanceTarget s i).1 + 1) % slotCount s.cfg)) := by
  simp [advanceJob, copyOps, h, ns]

theorem eeInitPlan_of_none {s : State} (h : allBlank s.cfg s.ee = true) :
    eeInitPlan false s = some (seedJob s [], s) := by
  simp [eeInitPlan, findNewest_of_none (searchRing_none.2 h)]

theorem eeInitPlan_of_slot {s : State} {n : Nat} (h : searchRing s.cfg s.ee = .slot n) :
    eeInitPlan false s = some (advanceJob s n, s) := by
  simp [eeInitPlan, findNewest_of_slot h]

/-- The plan from a ring in order, by what the search finds. -/
theorem eeInitPlan_of_ringOk {s t : State} {job : EeJob} (h : ringOk s.cfg s.ee = true)
    (hp : eeInitPlan false s = some (job, t)) :
    allBlank s.cfg s.ee = true ∧ job = seedJob s [] ∨
      ∃ n, searchRing s.cfg s.ee = .slot n ∧ job = advanceJob s n := by
  obtain hnone | ⟨n, hslot⟩ := ringOk_iff.1 h
  · have hblank := searchRing_none.1 hnone
    rw [eeInitPlan_of_none hblank] at hp
    cases hp
    exact .inl ⟨hblank, rfl⟩
  · rw [eeInitPlan_of_slot hslot] at hp
    cases hp
    exact .inr ⟨n, hslot, rfl⟩

section Advance

variable {s : State} {n : Nat} (h : searchRing s.cfg s.ee = .slot n)

include h

/-- Without an overflow the record goes to the next slot, and nothing is wiped. -/
theorem advance_of_ne (hv : slotTag s.cfg s.ee n ≠ 0xFEFF#16) :
    advanceTarget s n = ((n + 1) % slotCount s.cfg, slotTag s.cfg s.ee n + 1#16) ∧
      copyOps s n = writeSlotOps s.cfg ((n + 1) % slotCount s.cfg) (slotTag s.cfg s.ee n + 1#16)
        (slotPayload s.cfg s.ee n) := by
  have hover : versionOverflows (slotTag s.cfg s.ee n + 1#16) = false :=
    Bool.eq_false_iff.2 fun ho => hv ((versionOverflows_succ_iff (slotBlank_of_searchRing h)).1 ho)
  simp [copyOps, advanceTarget, advanceWipe, hover, ns]

/-- After the last version the store is wiped and the record goes to slot 0 with version 0. -/
theorem advance_of_last (hv : slotTag s.cfg s.ee n = 0xFEFF#16) :
    advanceTarget s n = (0, 0#16) ∧
      copyOps s n = clearStoreOps s.cfg ((n + 1) % slotCount s.cfg) ++
        writeSlotOps s.cfg 0 0#16 (slotPayload s.cfg s.ee n) := by
  have hover := (versionOverflows_succ_iff (slotBlank_of_searchRing h)).2 hv
  simp [copyOps, advanceTarget, advanceWipe, hover, ns]

/-- The copy keeps the ring, and the copied record is the newest. -/
theorem keepsRing_copyOps (hm : memoryWf s.ee = true) (hns : 2 ≤ slotCount s.cfg) :
    KeepsRing s.cfg s.ee (copyOps s n) (.slot (advanceTarget s n).1) := by
  by_cases hv : slotTag s.cfg s.ee n = 0xFEFF#16
  · obtain ⟨htarget, hops⟩ := advance_of_last h hv
    have hclear := keepsRing_clearStore hm hns h
    rw [htarget, hops]
    exact keepsRing_append hclear
      (keepsRing_writeSeed (eeApplyAll_wf _ hm) hns _ (searchRing_none.1 hclear.final))
  · obtain ⟨htarget, hops⟩ := advance_of_ne h hv
    rw [htarget, hops]
    exact keepsRing_writeNext hm hns _ h hv

/-- The whole advance keeps the ring: a record rejected is the newest when its wipe begins. -/
theorem ringOk_advanceJob (hm : memoryWf s.ee = true) (hns : 2 ≤ slotCount s.cfg) (k : Nat) :
    ringOk s.cfg (eeApplyAll s.ee ((advanceJob s n).ops.take k)) = true := by
  have hcopy := keepsRing_copyOps h hm hns
  cases hverdict : accepts s.cfg (slotPayload s.cfg s.ee n) with
  | true =>
    rw [advanceJob_of_accepts hverdict]
    exact hcopy.throughout k
  | false =>
    have hwipe := keepsRing_append hcopy (keepsRing_clearStore (eeApplyAll_wf _ hm) hns hcopy.final)
    have hseed := keepsRing_writeSeed (eeApplyAll_wf _ hm) hns s.membuf (searchRing_none.1 hwipe.final)
    rw [advanceJob_of_rejects hverdict]
    exact (keepsRing_append hwipe hseed).throughout k

end Advance

/-- An accepted configuration has two slots or more. -/
theorem two_le_slotCount {cfg : Config} (h : configOk cfg = true) : 2 ≤ slotCount cfg := by
  obtain ⟨-, -, -, -, -, -, hns, -⟩ := configOk_bounds h
  exact hns

/-- Settles O42: each part of the plan starts from the ring that the part before it leaves. -/
theorem initKeepsRing : Obligations.InitKeepsRing := by
  intro s t k job hm hcfg hok hp
  have hns := two_le_slotCount hcfg
  obtain ⟨hblank, rfl⟩ | ⟨n, hslot, rfl⟩ := eeInitPlan_of_ringOk hok hp
  · exact (keepsRing_writeSeed hm hns s.membuf hblank).throughout k
  · exact ringOk_advanceJob hslot hm hns k

/-- Settles O41: until its last operation the advance only blanks the oldest slot, and with it the next version is the
newest. -/
theorem advanceSurvivesPowerLoss : Obligations.AdvanceSurvivesPowerLoss := by
  intro s n k job hm hcfg hslot hv hacc hp
  have hns := two_le_slotCount hcfg
  obtain ⟨hn, -, -⟩ := searchRing_eq_slot_iff.1 hslot
  obtain ⟨-, hops⟩ := advance_of_ne hslot hv
  rw [eeInitPlan_of_slot hslot, advanceJob_of_accepts hacc, hops] at hp
  cases hp
  rw [writeSlotOps_length, show ns s = slotCount s.cfg from rfl]
  refine ⟨(keepsRing_writeNext hm hns _ hslot hv).throughout k, rfl, ?blank, ?before, ?after⟩
  case blank => exact fun hk1 hk => slotBlank_writeSlot hm hk1 (by omega)
  case before =>
    exact fun hk => ⟨searchRing_writeNext_take hm hns _ _ hslot (by omega),
      slotPayload_congr (sameSlot_writeSlot k (succ_slot_ne hns hn).symm)⟩
  case after =>
    intro hk
    rw [List.take_of_length_le (by simpa using hk)]
    exact ⟨searchRing_writeNext _ hm hns hslot hv, slotTag_writeSlotOps hm, slotPayload_writeSlotOps hm (by simp)⟩

/-- Settles O40: the copy's `WriteSlot` comes last, after the wipe where the version overflows. -/
theorem storeInitAdvances : Obligations.StoreInitAdvances := by
  intro s n hm hcfg hslot hacc
  have hns := two_le_slotCount hcfg
  refine ⟨_, eeInitPlan_of_slot hslot, ?_⟩
  rw [advanceJob_of_accepts hacc]
  refine ⟨rfl, ?tag, ?payload, fun hv => ?next, fun hv => ?restart⟩
  case tag =>
    simp only [copyOps, eeApplyAll_append]
    exact slotTag_writeSlotOps (eeApplyAll_wf _ hm)
  case payload =>
    simp only [copyOps, eeApplyAll_append]
    exact slotPayload_writeSlotOps (eeApplyAll_wf _ hm) (slotPayload_length _ _ _)
  case next =>
    obtain ⟨htarget, hops⟩ := advance_of_ne hslot hv
    simp only [htarget, hops, ns, true_and]
    exact fun k _ hne => slotTag_congr (sameSlot_writeSlotOps hne)
  case restart =>
    obtain ⟨htarget, hops⟩ := advance_of_last hslot hv
    simp only [htarget, hops, eeApplyAll_append, true_and]
    intro k hk0 hk
    rw [slotBlank_of_sameSlot (sameSlot_writeSlotOps (by omega))]
    exact allBlank_iff.1 (allBlank_clearStoreOps hm (Nat.mod_lt _ (by omega))) k hk

/-- Where `EE.INIT` writes the caller's default, it does so on a blank region. -/
theorem eeInitPlan_seeds {s : State} {clear : Bool} (hm : memoryWf s.ee = true) (hns : 2 ≤ slotCount s.cfg)
    (h : clear = true ∨ allBlank s.cfg s.ee = true ∨
      ∃ n, searchRing s.cfg s.ee = .slot n ∧ accepts s.cfg (slotPayload s.cfg s.ee n) = false) :
    ∃ before, eeInitPlan clear s = some (seedJob s before, s) ∧ allBlank s.cfg (eeApplyAll s.ee before) = true := by
  cases clear with
  | true => exact ⟨_, rfl, allBlank_clearStoreOps hm (by omega)⟩
  | false =>
    obtain ⟨⟨⟩⟩ | hblank | ⟨n, hslot, hrej⟩ := h
    · exact ⟨_, eeInitPlan_of_none hblank, hblank⟩
    · refine ⟨_, advanceJob_of_rejects hrej ▸ eeInitPlan_of_slot hslot, ?_⟩
      rw [eeApplyAll_append]
      exact allBlank_clearStoreOps (eeApplyAll_wf _ hm) (Nat.mod_lt _ (by omega))

/-- Settles O39: the default is written to slot 0 of a blank region. -/
theorem storeInitSeedsDefault : Obligations.StoreInitSeedsDefault := by
  intro s clear hm hcfg hsize h
  obtain ⟨before, hp, hblank⟩ := eeInitPlan_seeds hm (two_le_slotCount hcfg) h
  have hwf := eeApplyAll_wf before hm
  refine ⟨_, hp, rfl, rfl, rfl, ?_⟩
  simp only [seedJob, eeApplyAll_append]
  refine ⟨slotTag_writeSlotOps hwf, slotPayload_writeSlotOps hwf hsize, fun k hk0 hk => ?_⟩
  rw [slotBlank_of_sameSlot (sameSlot_writeSlotOps (by omega))]
  exact allBlank_iff.1 hblank k hk

/-! ## The whole of `EE.INIT` (R212) -/

/-- The rest of a job, from any of its micro-steps to `Finish`. -/
theorem repeatExec_eeInit (clear : Bool) {ops : List EeOp} {job : EeJob} {s : State} (hops : job.ops = ops)
    (haddr : ∀ op ∈ ops, eeOpAddr op < s.cfg.eeCap) :
    andThen (eeContinue job s) (repeatExec (.eeInit clear) ops.length) =
      .next (eeFinish job { s with ee := eeApplyAll s.ee ops }) := by
  induction ops generalizing job s with
  | nil => rw [eeContinue_nil hops]; rfl
  | cons op rest ih =>
    have hrest := ih (job := { job with ops := rest })
      (s := { s with ee := eeApply s.ee op, job := some { job with ops := rest } }) rfl
      fun o ho => haddr o (List.mem_cons_of_mem _ ho)
    rw [eeContinue_cons hops (haddr op List.mem_cons_self), andThen_next, List.length_cons, repeatExec_succ,
      exec_eeInit_of_job clear rfl]
    exact hrest

/-- Every plan stays in the region, whatever the size of the caller's default. -/
theorem inRegion_eeInitPlan {clear : Bool} {s t : State} {job : EeJob} (hns : 0 < slotCount s.cfg)
    (h : eeInitPlan clear s = some (job, t)) : InRegion s.cfg job.ops := by
  have hseed : ∀ {before}, InRegion s.cfg before → InRegion s.cfg (seedJob s before).ops :=
    fun hb => inRegion_append hb (inRegion_writeSlotOps hns _ _)
  obtain ⟨-, rfl, -⟩ | ⟨-, -, rfl⟩ | ⟨-, i, -, rfl⟩ := eeInitPlan_cases h
  · exact hseed (inRegion_clearStoreOps _ _)
  · exact hseed fun _ hop => absurd hop List.not_mem_nil
  · have hcopy : InRegion s.cfg (copyOps s i) :=
      inRegion_append (inRegion_advanceWipe s i) (inRegion_writeSlotOps (advanceTarget_lt hns i) _ _)
    cases hverdict : accepts s.cfg (slotPayload s.cfg s.ee i) with
    | true => rw [advanceJob_of_accepts hverdict]; exact hcopy
    | false =>
      rw [advanceJob_of_rejects hverdict]
      exact hseed (inRegion_append hcopy (inRegion_clearStoreOps _ _))

/-- There is a plan wherever the search does not fault. -/
theorem eeInitPlan_isSome {clear : Bool} {s : State}
    (h : clear = true ∨ ringOk s.cfg s.ee = true ∨ s.cfg.searchBroken = .draw) :
    ∃ job env, eeInitPlan clear s = some (job, { s with env := env }) := by
  suffices hplan : ∃ job t, eeInitPlan clear s = some (job, t) by
    obtain ⟨job, t, hp⟩ := hplan
    exact ⟨job, t.env, eeInitPlan_state hp ▸ hp⟩
  cases clear with
  | true => exact ⟨_, _, rfl⟩
  | false =>
    have hfound : ∃ r t, findNewest s = some (r, t) := by
      cases hok : ringOk s.cfg s.ee with
      | true =>
        obtain hnone | ⟨n, hslot⟩ := ringOk_iff.1 hok
        · exact ⟨_, _, findNewest_of_none hnone⟩
        · exact ⟨_, _, findNewest_of_slot hslot⟩
      | false => exact ⟨_, _, findNewest_of_draw hok (by simpa [hok] using h)⟩
    obtain ⟨r, t, hr⟩ := hfound
    cases r with
    | none => exact ⟨seedJob s [], t, by simp [eeInitPlan, hr]⟩
    | some i => exact ⟨advanceJob s i, t, by simp [eeInitPlan, hr]⟩

/-- Settles O37, by induction on the operations of the plan. -/
theorem storeInitRunsToFinish : Obligations.StoreInitRunsToFinish := by
  intro s clear hcfg hj hc hr h
  obtain ⟨job, env, hp⟩ := eeInitPlan_isSome h
  have hregion := inRegion_eeInitPlan (by have := two_le_slotCount hcfg; omega) hp
  have hrun := repeatExec_eeInit clear (job := job) (s := { s with env := env }) rfl
    fun op hop => lt_of_lt_of_le (hregion op hop) (region_in_store s.cfg)
  refine ⟨job, env, hp, hregion, ?_⟩
  rw [repeatExec_succ, exec_eeInit_of_plan hj hc hr hp, hrun]
  simp [eeFinish, advance, logRet, hj]

end Sys2Proof.StoreProofs
end

section
/-! The statements of 60_exceptions.md: the fault state, the states without a step, the turns that pass, and the two
interrupt services with the order between them (R250 to R264). -/

namespace Sys2Proof.ExceptionProofs

open Sys2Proof.Machine Sys2Proof.Safety Sys2Proof.Laws Sys2Proof.SamplerProofs Sys2Proof.RotaryProofs

/-! ## The fault state (R250, R251) -/

/-- Settles O12: a command that ends in the fault state raised the fault, since a command's own
effect leaves the fault state alone. -/
theorem faultWritesOnlyFaultState : Obligations.FaultWritesOnlyFaultState := by
  intro i s t hf h hft
  obtain ⟨code, info, rfl⟩ | heffect := exec_next h
  · exact ⟨rfl, rfl, rfl⟩
  · rw [effect_fault heffect, hf] at hft
    cases hft

/-- Settles O13: the list is the graph of `faultNumber`. -/
theorem faultCodesNumbered : Obligations.FaultCodesNumbered := by
  intro s info code number h
  have hnumber : number = faultNumber code := by cases code <;> simpa [faultNumber] using h
  rw [hnumber]
  rfl

/-! ## The states without a step (R250, R257) -/

/-- Every channel code of an accepted configuration has `CHSEL_BITS` bits. -/
theorem channelCode_lt_of_configOk {cfg : Config} (h : configOk cfg = true) : ∀ c ∈ cfg.ch, c < 2 ^ cfg.chselBits := by
  simp only [configOk, codesOk, Bool.and_eq_true, List.all_eq_true, decide_eq_true_eq] at h
  obtain ⟨⟨⟨⟨⟨-, -, hcodes⟩, -⟩, -⟩, -⟩, -⟩ := h
  exact hcodes

/-- Settles O6: an accepted configuration has none of the defects R257 lists. -/
theorem statesWithoutStep : Obligations.StatesWithoutStep := by
  intro s
  refine ⟨fun hf => by simp [step, hf], fun hf hbad => ?_⟩
  have hrefused : s.cfg.wellFormed s.launch = false := by
    refine Bool.eq_false_iff.2 fun hwf => ?_
    obtain ⟨hok, -⟩ := wellFormed_parts hwf
    obtain ⟨hn, -, -, hadc, hadc', -, hslots, -, -, htable⟩ := configOk_bounds hok
    obtain h | h | h | h | h | ⟨c, hc, h⟩ := hbad
    · omega
    · exact absurd hslots (Nat.not_le.2 h)
    · rw [htable] at h; cases h
    · omega
    · omega
    · exact absurd (channelCode_lt_of_configOk hok c hc) (Nat.not_lt.2 h)
  simp [step, hf, hrefused]

/-! ## When an agent steps (R255, R260) -/

/-- The turn of an agent that is not enabled. -/
theorem runTurn_disabled {u : Turn} {s : State} (h : enabled u s = false) : runTurn u s = .next s := by
  simp [runTurn, h]

/-- Settles O7: the step takes the turn listed, and its agent holds. -/
theorem heldTurnPasses : Obligations.HeldTurnPasses := by
  rintro s _ t ts hf hwf hturns rfl hheld
  rw [step_eq hf hwf, takeTurn_listed hturns]
  exact runTurn_disabled hheld

theorem enabled_isrAdc_iff {s : State} :
    enabled .isrAdc s = true ↔
      s.fault.faulted = false ∧ s.ctx = .main ∧ s.i = true ∧ s.adcCtrl.iflag = true ∧ s.adcCtrl.ie = true := by
  refine ⟨enabled_isrAdc, ?_⟩
  rintro ⟨hf, hc, hi, hflag, hie⟩
  simp [enabled, adcInterruptReady, hf, hc, hi, hflag, hie]

theorem enabled_isrPcint_iff {s : State} :
    enabled .isrPcint s = true ↔
      s.fault.faulted = false ∧ s.ctx = .main ∧ s.i = true ∧ s.pcif = true ∧ s.pcie = true := by
  refine ⟨enabled_isrPcint, ?_⟩
  rintro ⟨hf, hc, hi, hflag, hie⟩
  simp [enabled, pinInterruptReady, hf, hc, hi, hflag, hie]

/-- Settles O46: both services wait for MAIN's context and the mask, each for its own two flags. -/
theorem serviceEnabledWhen : Obligations.ServiceEnabledWhen := fun _ => ⟨enabled_isrAdc_iff, enabled_isrPcint_iff⟩

/-! ## The services (R258 to R263) -/

/-- A service whose body does not fault returns from it. -/
theorem service_of_return {body : State → Result} {entered s t : State} (h : body entered = .next t)
    (hf : t.fault.faulted = false) : service body entered s = .next (interruptReturn t) := by
  simp [service, h, hf]

/-- A service whose body faults leaves the state it was entered from, but for the fault fields. -/
theorem service_of_fault {body : State → Result} {entered s t : State} (h : body entered = .next t)
    (hf : t.fault.faulted = true) : service body entered s = .next { s with fault := t.fault } := by
  simp [service, h, hf]

/-- The state the conversion-complete service leaves: its flag cleared, the sample stored and the cursor moved on. -/
def adcServiced (s : State) : State :=
  { s with
    adcCtrl := { s.adcCtrl with iflag := false }, samples := s.samples.set s.cur s.adcData,
    cur := (s.cur + 1) % s.cfg.n,
    sel := { other := s.sel.other, chsel := channel s.cfg ((s.cur + 2) % s.cfg.n) }, i := true, ctx := .main }

/-- The state the pin-change service leaves after a transition to `rs` and `acc`, its flag cleared. -/
def pinServiced (rs : RotaryState) (acc : Int) (s : State) : State :=
  { s with pcif := false, rs := rs, acc := acc, i := true, ctx := .main }

/-- The conversion-complete service after `SMP.INIT`. -/
theorem runTurn_isrAdc {s : State} (he : enabled .isrAdc s = true) (hr : s.smpReady = true) :
    runTurn .isrAdc s = .next (adcServiced s) := by
  obtain ⟨hf, -⟩ := enabled_isrAdc he
  obtain ⟨hbody, -⟩ := sampleIsrResult { interruptEntry .isrAdc s with adcCtrl := { s.adcCtrl with iflag := false } }
  exact (runTurn_enabled he).trans (service_of_return (hbody rfl rfl hr) hf)

/-- Settles O47: the body runs with the mask clear in the handler's context, and the return puts both back. -/
theorem adcServiceStep : Obligations.AdcServiceStep := fun _ he hr => runTurn_isrAdc he hr

/-- The pin-change service where the present levels have a transition. -/
theorem runTurn_isrPcint_of_transition {s : State} {rs : RotaryState} {acc : Int} (he : enabled .isrPcint s = true)
    (h : Transition s.pinA s.pinB { s with i := false } rs acc) :
    runTurn .isrPcint s = .next (pinServiced rs acc s) := by
  obtain ⟨hf, -⟩ := enabled_isrPcint he
  obtain ⟨-, hr, d, hcell, hacc⟩ := h
  obtain ⟨-, hbody, -⟩ := rotaryIsrResult { interruptEntry .isrPcint s with pcif := false }
  exact (runTurn_enabled he).trans (service_of_return (hbody rs d acc rfl rfl hr hcell hacc) hf)

/-- In its handler `ROT.ISR` raises what its transition does. -/
theorem exec_rotIsr_of_error {s : State} {code : FaultCode} {info : Half} (hc : s.ctx = .isrPcint)
    (h : rotTransition s.pinA s.pinB s = .error (code, info)) : exec .rotIsr s = .next (raise code info s) := by
  simp [exec, execRotIsr, hc, h]

/-- A transition whose trigger overflows the accumulator, with the accumulator as the info value (R176). -/
theorem rotTransition_of_overflow {pa pb : Bool} {s : State} {rs : RotaryState} {d : Int} (hi : s.i = false)
    (hr : s.rotReady = true) (hcell : tableStep s.cfg.rotTable s.rs (pinPattern pa pb) = some (rs, d)) (hd : d ≠ 0)
    (hout : accInRange s.cfg.rotAccBits (s.acc + d) = false) (hovf : s.cfg.rotOvf = .fault) :
    rotTransition pa pb s = .error (.accOverflow, BitVec.ofInt 16 s.acc) := by
  simp [rotTransition, hi, hr, hcell, hd, accAdd_of_overflow_fault hout hovf]

/-- Settles O48: the body makes the transition and returns, or it raises `ACC_OVERFLOW` as the handler's agent. -/
theorem pinServiceStep : Obligations.PinServiceStep := by
  intro s rs d he hr hcell
  refine ⟨?transition, ?overflow⟩
  case transition => exact fun acc hacc => runTurn_isrPcint_of_transition he ⟨rfl, hr, d, hcell, hacc⟩
  case overflow =>
    intro hd hout hovf
    have hbody : exec .rotIsr { interruptEntry .isrPcint s with pcif := false } = _ :=
      exec_rotIsr_of_error rfl (rotTransition_of_overflow rfl hr hcell hd hout hovf)
    exact (runTurn_enabled he).trans (service_of_fault hbody rfl)

/-! ## The order of the services (R264, 70_reset_and_hazards.md R297) -/

/-- A pin-change service that does not fault made the transition of the present levels. -/
theorem transition_of_runTurn_isrPcint {s t : State} (he : enabled .isrPcint s = true)
    (h : runTurn .isrPcint s = .next t) (hf : t.fault.faulted = false) :
    ∃ rs acc, Transition s.pinA s.pinB { s with i := false } rs acc ∧ t = pinServiced rs acc s := by
  rw [runTurn_enabled he] at h
  obtain ⟨f, hfault, rfl⟩ | hdone := servicePcint_next h
  · rw [hfault] at hf
    cases hf
  · exact hdone

/-- The conversion-complete service leaves the other source pending. -/
theorem enabled_isrPcint_adcServiced {s : State} (h : enabled .isrPcint s = true) :
    enabled .isrPcint (adcServiced s) = true := by
  obtain ⟨hf, -, -, hpending⟩ := enabled_isrPcint h
  exact enabled_isrPcint_iff.2 ⟨hf, rfl, rfl, hpending⟩

/-- The pin-change service leaves the other source pending. -/
theorem enabled_isrAdc_pinServiced {s : State} (rs : RotaryState) (acc : Int) (h : enabled .isrAdc s = true) :
    enabled .isrAdc (pinServiced rs acc s) = true := by
  obtain ⟨hf, -, -, hpending⟩ := enabled_isrAdc h
  exact enabled_isrAdc_iff.2 ⟨hf, rfl, rfl, hpending⟩

/-- The two services write disjoint state. -/
theorem pinServiced_adcServiced (rs : RotaryState) (acc : Int) (s : State) :
    pinServiced rs acc (adcServiced s) = adcServiced (pinServiced rs acc s) := rfl

/-- Settles O50: the pin-change service makes the same transition in both orders, since the other service writes nothing
that it reads. -/
theorem servicesCommute : Obligations.ServicesCommute := by
  intro s t u hadc hpcint hr ht hft hu _
  rw [runTurn_isrAdc hadc hr, andThen_next] at ht
  obtain ⟨rs, acc, htransition, rfl⟩ :=
    transition_of_runTurn_isrPcint (enabled_isrPcint_adcServiced hpcint) ht hft
  rw [runTurn_isrPcint_of_transition hpcint htransition, andThen_next,
    runTurn_isrAdc (enabled_isrAdc_pinServiced rs acc hadc) hr] at hu
  cases hu
  exact pinServiced_adcServiced rs acc s

end Sys2Proof.ExceptionProofs
end

section
/-! The statements of 70_reset_and_hazards.md and 10_state.md R46: what first power-on and a power loss leave, and a power
loss during a byte write (R280 to R284). -/

namespace Sys2Proof.ResetProofs

open Sys2Proof.Machine Sys2Proof.Safety Sys2Proof.Laws Sys2Proof.StateProofs Sys2Proof.SamplerProofs

/-! ## A power loss during a byte write (R284) -/

theorem enabled_powerTorn_iff {s : State} :
    enabled .powerTorn s = true ↔
      s.fault.faulted = false ∧ s.cfg.eeByteAtomic = false ∧ s.ctx = .main ∧ ∃ op u, nextEeOp s = some (op, u) := by
  simp [enabled, and_assoc, Option.isSome_iff_exists]

/-- The byte a draw leaves at an address: the draw's low eight bits. -/
def drawnByte (s : State) : Byte := BitVec.ofNat 8 (draw 256 s).1

/-- A draw listed is brought into the range of a byte, which keeps its low eight bits. -/
theorem drawnByte_listed {s : State} {d : Nat} {rest : List Nat} (h : s.env.draws = d :: rest) :
    drawnByte s = BitVec.ofNat 8 d := by
  rw [drawnByte, draw_listed 256 h]
  exact BitVec.eq_of_toNat_eq (by simp)

/-- The torn write's turn: the drawn byte is written where the pending operation was to act, then power is lost. -/
theorem runTurn_powerTorn {s u : State} {op : EeOp} (he : enabled .powerTorn s = true)
    (hn : nextEeOp s = some (op, u)) (ha : eeOpAddr op < s.cfg.eeCap) :
    runTurn .powerTorn s = .next
      { powerLoss s with
        ee := eeApply s.ee (.write (eeOpAddr op) (drawnByte u)), env := (draw 256 u).2.env } := by
  have hdraw : (draw 256 u).2 = { s with env := (draw 256 u).2.env } := by rw [draw_state, nextEeOp_state hn]
  have hmicro := eeMicro_within (op := .write (eeOpAddr op) (drawnByte u)) (s := (draw 256 u).2)
    (by rw [hdraw]; exact ha)
  have hstep : powerTornStep s = andThen (eeMicro (.write (eeOpAddr op) (drawnByte u)) (draw 256 u).2)
      fun v => .next (powerLoss v) := by
    simp only [powerTornStep, hn, drawnByte]
  rw [runTurn_enabled he, agentStep, hstep, hmicro, andThen_next, hdraw]
  rfl

/-- Settles O53: the drawn byte reads back in the canonical memory, and a power loss keeps the store it finds. -/
theorem tornByteWrite : Obligations.TornByteWrite := by
  intro s
  refine ⟨enabled_powerTorn_iff, fun op u hwf he hn ha => ?_⟩
  have hread := eeRead_eeApply_self (.write (eeOpAddr op) (drawnByte u)) hwf
  exact ⟨drawnByte u, _, _, runTurn_powerTorn he hn ha, hread, fun _ _ => drawnByte_listed,
    fun _ => eeRead_eeApply_ne (.write (eeOpAddr op) (drawnByte u))⟩

/-! ## First power-on and a power loss (R280, R283, 10_state.md R46) -/

/-- The power's turn in a state without a fault. -/
theorem runTurn_power {s : State} (hf : s.fault.faulted = false) : runTurn .power s = .next (powerLoss s) :=
  runTurn_enabled (by simp [enabled, hf])

/-- Settles O52: the next state is that of a first power-on but for the elements kept. -/
theorem powerLossResets : Obligations.PowerLossResets := by
  intro s hf
  refine ⟨powerLoss s, runTurn_power hf, ?_⟩
  simp [powerLoss, State.powerOn]

/-- Settles O54: each conjunct is a field of the state that power-on builds. -/
theorem powerOnValues : Obligations.PowerOnValues := by
  rintro cfg launch prog env _ rfl
  simp [State.powerOn, FaultRegs.clear]

/-! ## The invariants at reset and at every first power-on -/

/-- A power loss converts nothing, and first power-on leaves the converter as a power loss does. -/
theorem pipeline_powerOn (cfg : Config) (launch : Launch) (prog : List Word) (env : Env) :
    Pipeline (State.powerOn cfg launch prog env) :=
  { pipeline_powerLoss (State.powerOn cfg launch prog env) with }

/-- The configuration of the reset state has runs (00_scope.md R8). -/
theorem wellFormed_default : defaultConfig.wellFormed defaultLaunch = true := by decide

/-- Settles O55: the reset state is the first power-on of the default configuration, which has runs. -/
theorem invariantsAtPowerOn : Obligations.InvariantsAtPowerOn := by
  have hpowerOn (cfg : Config) (launch : Launch) (prog : List Word) (env : Env) (hw : cfg.wellFormed launch = true) :
      Inv (State.powerOn cfg launch prog env) ∧ Pipeline (State.powerOn cfg launch prog env) :=
    ⟨inv_powerOn hw prog env, pipeline_powerOn cfg launch prog env⟩
  exact ⟨hpowerOn _ _ _ _ wellFormed_default, hpowerOn⟩

end Sys2Proof.ResetProofs
end
